-- ==== Sys2Proof/Word.lean ====
section
/-! DEFINITION. The machine's word types (rule R9): a byte is 8 bits, a word 16, a doubleword 32. -/

namespace Sys2Proof

/-- A byte (rule R9). -/
abbrev Byte := BitVec 8

/-- A 16-bit word: selectors, table limits, error codes (rule R9). -/
abbrev Half := BitVec 16

/-- A doubleword: general registers, EIP, EFLAGS, effective and linear addresses (rules R6, R9). -/
abbrev Word := BitVec 32

/-- A privilege level, 0 (most privileged) to 3 (rules R33, R385). -/
abbrev Level := BitVec 2

end Sys2Proof
end

