-- ==== Sys2Proof/Config.lean ====
section
/-! DEFINITION. What is fixed for a run and the source leaves open: the named parameters of rule R7, as plain data that
the machine carries in one field of its state and never changes, and the one free value of the model. -/

namespace Sys2Proof

/-- `ebp_default_seg` (rules R7, R151; decision D2): the default segment of a memory operand whose base is EBP. -/
inductive EbpSeg where
  | ss
  | ds
deriving DecidableEq, Repr

/-- `paging` (rules R7, R69; decision D7): off, or a fixed partial map of 20-bit page numbers to 20-bit frame numbers. -/
inductive Paging where
  | off
  | on (pages : List (BitVec 20 × BitVec 20))
deriving DecidableEq, Repr

/-- `int_gate_type` (rules R7, R367; decision D12): `hardware` is 01110b, `source` is 00101b. -/
inductive IntGateType where
  | hardware
  | source
deriving DecidableEq, Repr

/-- `rpl_rule` (rule R7; decision D20). -/
inductive RplRule where
  | hardware
  | source
deriving DecidableEq, Repr

/-- `ltr_busy_rule` (rules R7, R278; decision D23). -/
inductive LtrBusyRule where
  | hardware
  | source
deriving DecidableEq, Repr

/-- `np_vector` (rules R7, R360; decision D22): the vector of a not-present exception, 11 or 13. -/
inductive NpVector where
  | v11
  | v13
deriving DecidableEq, Repr

/-- What asks for a delivery through the IDT (rules R340, R368, R370). INT n, INT 3 and INTO are the software kind; BOUND's
exception is told from the others because `gate_dpl_checked_for` may name it. -/
inductive EventKind where
  | intN
  | int3
  | into
  | bound
  | exception
  | external
deriving DecidableEq, Repr

/-- The named parameters of rule R7 that hold for a whole run. `populated` is the set of physical addresses with memory
behind them, as inclusive ranges (rule R70: part of `launch`); `stopEip` is the offset at which a run ends (rule R425).
The interrupt oracle of `external_interrupts` is consumed as the machine runs, so it is a field of the state. -/
structure Config where
  ebpDefaultSeg : EbpSeg
  paging : Paging
  intGateType : IntGateType
  errcodeVectors : List Nat
  rplRule : RplRule
  gateDplCheckedFor : List EventKind
  npVector : NpVector
  ltrBusyRule : LtrBusyRule
  populated : List (Nat × Nat)
  stopEip : Option Word
deriving DecidableEq, Repr

/-- The defaults of rule R7's table, with memory behind every physical address and no `stop_eip`. -/
def Config.standard : Config where
  ebpDefaultSeg := .ss
  paging := .off
  intGateType := .hardware
  errcodeVectors := [8, 10, 11, 12, 13, 14]
  rplRule := .hardware
  gateDplCheckedFor := [.intN, .int3, .into]
  npVector := .v11
  ltrBusyRule := .hardware
  populated := [(0, 0xFFFFFFFF)]
  stopEip := none

/-- DESIGN CHOICE, log entry 9. A free value: the 16 bits that rules R224, R247, R271 and R370 call `any value` (U6). It has
no body, so no proof can know it; the machine applies it to a counter that it advances at each use. -/
opaque Config.freeHalf : Nat → BitVec 16

end Sys2Proof
end

