-- ==== Sys2Proof/Syntax.lean ====
section
/-! DEFINITION. The instructions of spec/opcode_table.json: one constructor a row, each holding everything its bytes say
(the segment override prefix, the form of the displacement, the S-I-B fields), so that an instruction's length and
encoding are functions of it. Rules R130 to R160, R165. -/

namespace Sys2Proof

/-- The eight general registers, in the order of their numbers (rule R20). -/
inductive Reg where
  | eax | ecx | edx | ebx | esp | ebp | esi | edi
deriving DecidableEq, Repr

/-- The eight 8-bit register names, in the order of their field values (rules R22, R134). -/
inductive Reg8 where
  | al | cl | dl | bl | ah | ch | dh | bh
deriving DecidableEq, Repr

/-- The six segment registers, in the order of their SREG values (rules R30, R155). -/
inductive SReg where
  | es | cs | ss | ds | fs | gs
deriving DecidableEq, Repr

/-- The SS field of the S-I-B byte (rule R148). -/
inductive Scale where
  | x1 | x2 | x4 | x8
deriving DecidableEq, Repr

/-- A displacement: absent (MOD = 00), 8 bits (MOD = 01) or 32 bits (MOD = 10) (rule R152). -/
inductive Disp where
  | none
  | d8 (v : BitVec 8)
  | d32 (v : BitVec 32)
deriving DecidableEq, Repr

/-- A memory operand as Table 7.1 encodes it (rules R140 to R150). An index of `none` is INDEX = 100 (rule R149); its
scale field is kept because the bytes hold it. -/
inductive MemRef where
  /-- No S-I-B byte: a base register and a displacement (rules R141, R144, R145). -/
  | base (b : Reg) (d : Disp)
  /-- MOD = 00 with R/M = 101: a 32-bit displacement only (rule R142). -/
  | abs (d : BitVec 32)
  /-- An S-I-B byte with a base register (rule R147). -/
  | sib (b : Reg) (scale : Scale) (index : Option Reg) (d : Disp)
  /-- MOD = 00 with BASE = 101: a 32-bit displacement and an index (rule R150). -/
  | sibAbs (scale : Scale) (index : Option Reg) (d : BitVec 32)
deriving DecidableEq, Repr

/-- Operand 2 of a MOD R/M byte: a register (MOD = 11, rule R146) or memory. -/
inductive RM (ρ : Type) where
  | reg (r : ρ)
  | mem (m : MemRef)
deriving DecidableEq, Repr

/-- The instructions, in the order of spec/opcode_table.json. `ov` is the segment override prefix (rule R160): every
instruction may carry one; it counts in the length and acts on a memory operand only. -/
inductive Instr where
  | pushR32 (ov : Option SReg) (r : Reg)
  | pushRm32 (ov : Option SReg) (op : RM Reg)
  | pushImm32 (ov : Option SReg) (imm : BitVec 32)
  | pushImm8 (ov : Option SReg) (imm : BitVec 8)
  | pushEs (ov : Option SReg)
  | pushCs (ov : Option SReg)
  | pushSs (ov : Option SReg)
  | pushDs (ov : Option SReg)
  | pushFs (ov : Option SReg)
  | pushGs (ov : Option SReg)
  | popR32 (ov : Option SReg) (r : Reg)
  | popRm32 (ov : Option SReg) (op : RM Reg)
  | popEs (ov : Option SReg)
  | popSs (ov : Option SReg)
  | popDs (ov : Option SReg)
  | popFs (ov : Option SReg)
  | popGs (ov : Option SReg)
  | pusha (ov : Option SReg)
  | popa (ov : Option SReg)
  | jmpRel8 (ov : Option SReg) (rel : BitVec 8)
  | jmpRel32 (ov : Option SReg) (rel : BitVec 32)
  | jmpRm32 (ov : Option SReg) (op : RM Reg)
  | jmpM1632 (ov : Option SReg) (m : MemRef)
  | jmpPtr1632 (ov : Option SReg) (off : BitVec 32) (sel : BitVec 16)
  | callRel32 (ov : Option SReg) (rel : BitVec 32)
  | callRm32 (ov : Option SReg) (op : RM Reg)
  | callM1632 (ov : Option SReg) (m : MemRef)
  | callPtr1632 (ov : Option SReg) (off : BitVec 32) (sel : BitVec 16)
  | ret (ov : Option SReg)
  | retImm16 (ov : Option SReg) (imm : BitVec 16)
  | retFar (ov : Option SReg)
  | retFarImm16 (ov : Option SReg) (imm : BitVec 16)
  | movSregRm16 (ov : Option SReg) (sr : SReg) (op : RM Reg)
  | movRm16Sreg (ov : Option SReg) (op : RM Reg) (sr : SReg)
  | lgdt (ov : Option SReg) (m : MemRef)
  | lidt (ov : Option SReg) (m : MemRef)
  | ltr (ov : Option SReg) (op : RM Reg)
  | cli (ov : Option SReg)
  | sti (ov : Option SReg)
  | intN (ov : Option SReg) (n : BitVec 8)
  | int3 (ov : Option SReg)
  | into (ov : Option SReg)
  | bound (ov : Option SReg) (r : Reg) (m : MemRef)
  | iret (ov : Option SReg)
  | movRm8R8 (ov : Option SReg) (op : RM Reg8) (r : Reg8)
  | movRm32R32 (ov : Option SReg) (op : RM Reg) (r : Reg)
  | movR8Rm8 (ov : Option SReg) (r : Reg8) (op : RM Reg8)
  | movR32Rm32 (ov : Option SReg) (r : Reg) (op : RM Reg)
  | movR8Imm8 (ov : Option SReg) (r : Reg8) (imm : BitVec 8)
  | movR32Imm32 (ov : Option SReg) (r : Reg) (imm : BitVec 32)
  | movRm8Imm8 (ov : Option SReg) (op : RM Reg8) (imm : BitVec 8)
  | movRm32Imm32 (ov : Option SReg) (op : RM Reg) (imm : BitVec 32)
  | lea (ov : Option SReg) (r : Reg) (m : MemRef)
  | addRm32R32 (ov : Option SReg) (op : RM Reg) (r : Reg)
  | addR32Rm32 (ov : Option SReg) (r : Reg) (op : RM Reg)
  | addRm32Imm32 (ov : Option SReg) (op : RM Reg) (imm : BitVec 32)
  | addRm32Imm8 (ov : Option SReg) (op : RM Reg) (imm : BitVec 8)
  | nop (ov : Option SReg)
deriving DecidableEq, Repr

/-- Why the decoder refuses a byte sequence (rules R5, R160, R161, R167; decisions D8, D9). No source says what the
hardware does with one, so each is a refusal and not exception 6. All are safe: nothing is claimed of such a run. -/
inductive BadEncoding where
  /-- A first opcode byte that is in no row of the opcode table. -/
  | unlistedOpcode (op : Byte)
  /-- A byte after 0Fh that is in no row of the opcode table. -/
  | unlistedOpcode0F (op : Byte)
  /-- An opcode extension (the REG field) that is in no row of the opcode table. -/
  | unlistedExtension (op : Byte) (ext : BitVec 3)
  /-- One of 66h, 67h, F0h, F2h, F3h. -/
  | excludedPrefix (op : Byte)
  /-- A second segment override. -/
  | secondPrefix (op : Byte)
  /-- MOD = 11 where the row takes a memory operand only. -/
  | memoryFormOnly (op : Byte)
  /-- An SREG field that names no register the instruction takes: 110, 111, or CS as a destination. -/
  | badSreg (field : BitVec 3)
deriving DecidableEq, Repr

end Sys2Proof
end

