-- ==== Sys2Proof/WellFormed.lean ====
section
/-! DEFINITION. Which terms of `Instr` have an encoding. -/

namespace Sys2Proof

/-- The memory operands that Table 7.1 can encode: ESP is a base only through an S-I-B byte (rule R147), EBP is no base
without a displacement (rule R143), ESP is no index (rule R149). -/
def MemRef.wellFormed : MemRef → Bool
  | .base b d => decide (b ≠ .esp) && (decide (b ≠ .ebp) || decide (d ≠ .none))
  | .abs _ => true
  | .sib b _ ix d => (decide (b ≠ .ebp) || decide (d ≠ .none)) && decide (ix ≠ some .esp)
  | .sibAbs _ ix _ => decide (ix ≠ some .esp)

/-- A register operand is always encodable; a memory operand by `MemRef.wellFormed`. -/
def RM.wellFormed {ρ : Type} : RM ρ → Bool
  | .reg _ => true
  | .mem m => m.wellFormed

/-- The instructions that have an encoding: every memory operand encodable, and CS no destination of MOV to a segment
register (rules R167, R270). -/
def Instr.wellFormed : Instr → Bool
  | .pushR32 _ _ | .pushImm32 _ _ | .pushImm8 _ _ => true
  | .pushRm32 _ op | .popRm32 _ op => op.wellFormed
  | .pushEs _ | .pushCs _ | .pushSs _ | .pushDs _ | .pushFs _ | .pushGs _ => true
  | .popR32 _ _ | .popEs _ | .popSs _ | .popDs _ | .popFs _ | .popGs _ | .pusha _ | .popa _ => true
  | .jmpRel8 _ _ | .jmpRel32 _ _ | .jmpPtr1632 _ _ _ => true
  | .jmpRm32 _ op | .callRm32 _ op => op.wellFormed
  | .jmpM1632 _ m | .callM1632 _ m => m.wellFormed
  | .callRel32 _ _ | .callPtr1632 _ _ _ => true
  | .ret _ | .retImm16 _ _ | .retFar _ | .retFarImm16 _ _ => true
  | .movSregRm16 _ sr op => decide (sr ≠ .cs) && op.wellFormed
  | .movRm16Sreg _ op _ => op.wellFormed
  | .lgdt _ m | .lidt _ m => m.wellFormed
  | .ltr _ op => op.wellFormed
  | .cli _ | .sti _ | .intN _ _ | .int3 _ | .into _ | .iret _ => true
  | .bound _ _ m | .lea _ _ m => m.wellFormed
  | .movRm8R8 _ op _ | .movR8Rm8 _ _ op | .movRm8Imm8 _ op _ => op.wellFormed
  | .movRm32R32 _ op _ | .movR32Rm32 _ _ op | .movRm32Imm32 _ op _ => op.wellFormed
  | .movR8Imm8 _ _ _ | .movR32Imm32 _ _ _ => true
  | .addRm32R32 _ op _ | .addR32Rm32 _ _ op | .addRm32Imm32 _ op _ | .addRm32Imm8 _ op _ => op.wellFormed
  | .nop _ => true

end Sys2Proof
end

