-- ==== Sys2Proof/Decode.lean ====
section
/-! DEFINITION. From bytes to instructions and back: byte order, the fields of the MOD R/M and S-I-B bytes, the opcode map,
the encoder, and the reading of an opcode-table word. Rules R130 to R167. -/

namespace Sys2Proof

/-! ### Byte order (rule R62): the byte at the lowest address is the least significant. -/

/-- The word whose bytes, lowest address first, are `b0 b1`. -/
def le16 (b0 b1 : Byte) : BitVec 16 := b1 ++ b0

/-- The doubleword whose bytes, lowest address first, are `b0 b1 b2 b3`. -/
def le32 (b0 b1 b2 b3 : Byte) : BitVec 32 := b3 ++ b2 ++ b1 ++ b0

/-- The two bytes of a word, lowest address first. -/
def bytes16 (v : BitVec 16) : List Byte := [v.extractLsb' 0 8, v.extractLsb' 8 8]

/-- The four bytes of a doubleword, lowest address first. -/
def bytes32 (v : BitVec 32) : List Byte :=
  [v.extractLsb' 0 8, v.extractLsb' 8 8, v.extractLsb' 16 8, v.extractLsb' 24 8]

/-! ### Field values -/

/-- The number of a general register (rule R20). -/
def Reg.code : Reg → BitVec 3
  | .eax => 0 | .ecx => 1 | .edx => 2 | .ebx => 3 | .esp => 4 | .ebp => 5 | .esi => 6 | .edi => 7

/-- The general register of a number (rule R20). -/
def Reg.ofCode (c : BitVec 3) : Reg :=
  match c.toNat with
  | 0 => .eax | 1 => .ecx | 2 => .edx | 3 => .ebx | 4 => .esp | 5 => .ebp | 6 => .esi | _ => .edi

/-- The field value of an 8-bit register name (rule R134). -/
def Reg8.code : Reg8 → BitVec 3
  | .al => 0 | .cl => 1 | .dl => 2 | .bl => 3 | .ah => 4 | .ch => 5 | .dh => 6 | .bh => 7

/-- The 8-bit register name of a field value (rule R134). -/
def Reg8.ofCode (c : BitVec 3) : Reg8 :=
  match c.toNat with
  | 0 => .al | 1 => .cl | 2 => .dl | 3 => .bl | 4 => .ah | 5 => .ch | 6 => .dh | _ => .bh

/-- The SREG value of a segment register (rule R155). -/
def SReg.code : SReg → BitVec 3
  | .es => 0 | .cs => 1 | .ss => 2 | .ds => 3 | .fs => 4 | .gs => 5

/-- The segment register of an SREG value; 110 and 111 name none (rule R155). -/
def SReg.ofCode (c : BitVec 3) : Option SReg :=
  match c.toNat with
  | 0 => some .es | 1 => some .cs | 2 => some .ss | 3 => some .ds | 4 => some .fs | 5 => some .gs | _ => none

/-- The SS field of a scale (rule R148). -/
def Scale.code : Scale → BitVec 2
  | .x1 => 0 | .x2 => 1 | .x4 => 2 | .x8 => 3

/-- The scale of an SS field (rule R148). -/
def Scale.ofCode (c : BitVec 2) : Scale :=
  match c.toNat with
  | 0 => .x1 | 1 => .x2 | 2 => .x4 | _ => .x8

/-- The INDEX field: 100 says that there is no index register (rule R149). -/
def indexCode : Option Reg → BitVec 3
  | none => 4
  | some r => r.code

/-- The index register of an INDEX field (rule R149). -/
def indexOf (c : BitVec 3) : Option Reg := if c = 4 then none else some (Reg.ofCode c)

/-- The segment register of an override prefix byte (rule R160). -/
def overrideOf (b : Byte) : Option SReg :=
  if b = 0x26 then some .es
  else if b = 0x2E then some .cs
  else if b = 0x36 then some .ss
  else if b = 0x3E then some .ds
  else if b = 0x64 then some .fs
  else if b = 0x65 then some .gs
  else none

/-- The override prefix byte of a segment register (rule R160). -/
def overrideByte : SReg → Byte
  | .es => 0x26 | .cs => 0x2E | .ss => 0x36 | .ds => 0x3E | .fs => 0x64 | .gs => 0x65

/-- The prefixes that the model refuses (rule R161). -/
def isExcludedPrefix (b : Byte) : Bool :=
  b = 0x66 || b = 0x67 || b = 0xF0 || b = 0xF2 || b = 0xF3

/-! ### The decoder -/

/-- Why decoding stops without an instruction: the bytes are outside the admitted subset, or they end too early (then
fetching the byte after them is what fails). -/
inductive DecodeStop where
  | bad (why : BadEncoding)
  | truncated
deriving DecidableEq, Repr

/-- What a decoder of one part of an instruction answers; a value comes with the bytes left after it. -/
abbrev Read := Except DecodeStop

/-- One byte. -/
def take8 : List Byte → Read (BitVec 8 × List Byte)
  | b :: t => .ok (b, t)
  | [] => .error .truncated

/-- Two bytes, least significant first (rule R153). -/
def take16 : List Byte → Read (BitVec 16 × List Byte)
  | b0 :: b1 :: t => .ok (le16 b0 b1, t)
  | _ => .error .truncated

/-- Four bytes, least significant first (rules R152, R153). -/
def take32 : List Byte → Read (BitVec 32 × List Byte)
  | b0 :: b1 :: b2 :: b3 :: t => .ok (le32 b0 b1 b2 b3, t)
  | _ => .error .truncated

/-- The MOD field (rule R132). -/
def modField (m : Byte) : BitVec 2 := m.extractLsb' 6 2

/-- The REG field (rule R132). -/
def regField (m : Byte) : BitVec 3 := m.extractLsb' 3 3

/-- The R/M field (rule R132). -/
def rmField (m : Byte) : BitVec 3 := m.extractLsb' 0 3

/-- The displacement of MOD = 00, 01 or 10 (rules R140, R152). -/
def decodeDisp (md : BitVec 2) (bs : List Byte) : Read (Disp × List Byte) :=
  if md = 0 then .ok (.none, bs)
  else if md = 1 then do
    let (d, bs) ← take8 bs
    return (.d8 d, bs)
  else do
    let (d, bs) ← take32 bs
    return (.d32 d, bs)

/-- The S-I-B byte and the displacement after it (rules R133, R147 to R150). -/
def decodeSib (md : BitVec 2) (bs : List Byte) : Read (MemRef × List Byte) := do
  let (s, bs) ← take8 bs
  let scale := Scale.ofCode (s.extractLsb' 6 2)
  let index := indexOf (s.extractLsb' 3 3)
  let b := s.extractLsb' 0 3
  if md = 0 ∧ b = 5 then
    let (d, bs) ← take32 bs
    return (.sibAbs scale index d, bs)
  else
    let (d, bs) ← decodeDisp md bs
    return (.sib (Reg.ofCode b) scale index d, bs)

/-- Operand 2 after the MOD R/M byte `m` (rule R140); `ofCode` names the register of MOD = 11. -/
def decodeOperand {ρ : Type} (ofCode : BitVec 3 → ρ) (m : Byte) (bs : List Byte) : Read (RM ρ × List Byte) :=
  if modField m = 3 then .ok (.reg (ofCode (rmField m)), bs)
  else if rmField m = 4 then do
    let (r, bs) ← decodeSib (modField m) bs
    return (.mem r, bs)
  else if modField m = 0 ∧ rmField m = 5 then do
    let (d, bs) ← take32 bs
    return (.mem (.abs d), bs)
  else do
    let (d, bs) ← decodeDisp (modField m) bs
    return (.mem (.base (Reg.ofCode (rmField m)) d), bs)

/-- A row with a 32-bit (or 16-bit) register operand in REG and operand 2 of the same size. -/
def decodeRegRm (mk : Reg → RM Reg → Instr) (bs : List Byte) : Read (Instr × List Byte) := do
  let (m, bs) ← take8 bs
  let (op, bs) ← decodeOperand Reg.ofCode m bs
  return (mk (Reg.ofCode (regField m)) op, bs)

/-- A row with an 8-bit register operand in REG and an 8-bit operand 2. -/
def decodeReg8Rm8 (mk : Reg8 → RM Reg8 → Instr) (bs : List Byte) : Read (Instr × List Byte) := do
  let (m, bs) ← take8 bs
  let (op, bs) ← decodeOperand Reg8.ofCode m bs
  return (mk (Reg8.ofCode (regField m)) op, bs)

/-- A row with a register operand in REG and a memory operand: MOD = 11 is refused (rule R167). -/
def decodeRegMem (opc : Byte) (mk : Reg → MemRef → Instr) (bs : List Byte) : Read (Instr × List Byte) := do
  let (m, bs) ← take8 bs
  let (op, bs) ← decodeOperand Reg.ofCode m bs
  match op with
  | .reg _ => .error (.bad (.memoryFormOnly opc))
  | .mem r => return (mk (Reg.ofCode (regField m)) r, bs)

/-- The operand of a row that admits memory only, after its MOD R/M byte. -/
def decodeMem (opc m : Byte) (mk : MemRef → Instr) (bs : List Byte) : Read (Instr × List Byte) := do
  let (op, bs) ← decodeOperand Reg.ofCode m bs
  match op with
  | .reg _ => .error (.bad (.memoryFormOnly opc))
  | .mem r => return (mk r, bs)

/-- The operand of a row with operand 2 alone, after its MOD R/M byte. -/
def decodeRm (m : Byte) (mk : RM Reg → Instr) (bs : List Byte) : Read (Instr × List Byte) := do
  let (op, bs) ← decodeOperand Reg.ofCode m bs
  return (mk op, bs)

/-- MOV to a segment register, 8E /r: SREG = 001, 110 and 111 are refused (rules R167, R270). -/
def decodeToSreg (ov : Option SReg) (bs : List Byte) : Read (Instr × List Byte) := do
  let (m, bs) ← take8 bs
  match SReg.ofCode (regField m) with
  | none => .error (.bad (.badSreg (regField m)))
  | some .cs => .error (.bad (.badSreg (regField m)))
  | some sr => decodeRm m (.movSregRm16 ov sr ·) bs

/-- MOV from a segment register, 8C /r: SREG = 110 and 111 are refused (rules R167, R271). -/
def decodeFromSreg (ov : Option SReg) (bs : List Byte) : Read (Instr × List Byte) := do
  let (m, bs) ← take8 bs
  match SReg.ofCode (regField m) with
  | none => .error (.bad (.badSreg (regField m)))
  | some sr => decodeRm m (.movRm16Sreg ov · sr) bs

/-- FF /2 to FF /6 (rule R165). -/
def decodeGroupFF (ov : Option SReg) (bs : List Byte) : Read (Instr × List Byte) := do
  let (m, bs) ← take8 bs
  if regField m = 2 then decodeRm m (.callRm32 ov ·) bs
  else if regField m = 3 then decodeMem 0xFF m (.callM1632 ov ·) bs
  else if regField m = 4 then decodeRm m (.jmpRm32 ov ·) bs
  else if regField m = 5 then decodeMem 0xFF m (.jmpM1632 ov ·) bs
  else if regField m = 6 then decodeRm m (.pushRm32 ov ·) bs
  else .error (.bad (.unlistedExtension 0xFF (regField m)))

/-- 8F /0, POP r/m32 (rule R226). -/
def decodeGroup8F (ov : Option SReg) (bs : List Byte) : Read (Instr × List Byte) := do
  let (m, bs) ← take8 bs
  if regField m = 0 then decodeRm m (.popRm32 ov ·) bs
  else .error (.bad (.unlistedExtension 0x8F (regField m)))

/-- C6 /0 ib, MOV r/m8, imm8 (rule R316). -/
def decodeGroupC6 (ov : Option SReg) (bs : List Byte) : Read (Instr × List Byte) := do
  let (m, bs) ← take8 bs
  if regField m = 0 then
    let (op, bs) ← decodeOperand Reg8.ofCode m bs
    let (v, bs) ← take8 bs
    return (.movRm8Imm8 ov op v, bs)
  else .error (.bad (.unlistedExtension 0xC6 (regField m)))

/-- C7 /0 id and 81 /0 id (rules R317, R325). -/
def decodeGroupImm32 (opc : Byte) (mk : RM Reg → BitVec 32 → Instr) (bs : List Byte) : Read (Instr × List Byte) := do
  let (m, bs) ← take8 bs
  if regField m = 0 then
    let (op, bs) ← decodeOperand Reg.ofCode m bs
    let (v, bs) ← take32 bs
    return (mk op v, bs)
  else .error (.bad (.unlistedExtension opc (regField m)))

/-- 83 /0 ib, ADD r/m32, imm8 (rule R326). -/
def decodeGroup83 (ov : Option SReg) (bs : List Byte) : Read (Instr × List Byte) := do
  let (m, bs) ← take8 bs
  if regField m = 0 then
    let (op, bs) ← decodeOperand Reg.ofCode m bs
    let (v, bs) ← take8 bs
    return (.addRm32Imm8 ov op v, bs)
  else .error (.bad (.unlistedExtension 0x83 (regField m)))

/-- 0F 00 /3, LTR (rule R278). -/
def decodeGroup0F00 (ov : Option SReg) (bs : List Byte) : Read (Instr × List Byte) := do
  let (m, bs) ← take8 bs
  if regField m = 3 then decodeRm m (.ltr ov ·) bs
  else .error (.bad (.unlistedExtension 0x00 (regField m)))

/-- 0F 01 /2 and /3, LGDT and LIDT (rules R276, R277). -/
def decodeGroup0F01 (ov : Option SReg) (bs : List Byte) : Read (Instr × List Byte) := do
  let (m, bs) ← take8 bs
  if regField m = 2 then decodeMem 0x01 m (.lgdt ov ·) bs
  else if regField m = 3 then decodeMem 0x01 m (.lidt ov ·) bs
  else .error (.bad (.unlistedExtension 0x01 (regField m)))

/-- The two-byte opcodes (rule R165). -/
def decode0F (ov : Option SReg) (bs : List Byte) : Read (Instr × List Byte) := do
  let (op, bs) ← take8 bs
  if op = 0x00 then decodeGroup0F00 ov bs
  else if op = 0x01 then decodeGroup0F01 ov bs
  else if op = 0xA0 then return (.pushFs ov, bs)
  else if op = 0xA1 then return (.popFs ov, bs)
  else if op = 0xA8 then return (.pushGs ov, bs)
  else if op = 0xA9 then return (.popGs ov, bs)
  else .error (.bad (.unlistedOpcode0F op))

/-- A direct far pointer: the offset, then the selector (rule R156). -/
def decodeFarPtr (mk : BitVec 32 → BitVec 16 → Instr) (bs : List Byte) : Read (Instr × List Byte) := do
  let (off, bs) ← take32 bs
  let (sel, bs) ← take16 bs
  return (mk off sel, bs)

/-- An 8-bit immediate or relative displacement. -/
def decodeImm8 (mk : BitVec 8 → Instr) (bs : List Byte) : Read (Instr × List Byte) := do
  let (v, bs) ← take8 bs
  return (mk v, bs)

/-- A 16-bit immediate. -/
def decodeImm16 (mk : BitVec 16 → Instr) (bs : List Byte) : Read (Instr × List Byte) := do
  let (v, bs) ← take16 bs
  return (mk v, bs)

/-- A 32-bit immediate or relative displacement. -/
def decodeImm32 (mk : BitVec 32 → Instr) (bs : List Byte) : Read (Instr × List Byte) := do
  let (v, bs) ← take32 bs
  return (mk v, bs)

/-- The opcode map of rule R165, after the prefix: `op` is the first opcode byte. -/
def decodeOpcode (ov : Option SReg) (op : Byte) (bs : List Byte) : Read (Instr × List Byte) :=
  if op.extractLsb' 3 5 = 0x0A then .ok (.pushR32 ov (Reg.ofCode (op.extractLsb' 0 3)), bs)
  else if op.extractLsb' 3 5 = 0x0B then .ok (.popR32 ov (Reg.ofCode (op.extractLsb' 0 3)), bs)
  else if op.extractLsb' 3 5 = 0x16 then decodeImm8 (.movR8Imm8 ov (Reg8.ofCode (op.extractLsb' 0 3)) ·) bs
  else if op.extractLsb' 3 5 = 0x17 then decodeImm32 (.movR32Imm32 ov (Reg.ofCode (op.extractLsb' 0 3)) ·) bs
  else if op = 0x01 then decodeRegRm (fun r m => .addRm32R32 ov m r) bs
  else if op = 0x03 then decodeRegRm (fun r m => .addR32Rm32 ov r m) bs
  else if op = 0x06 then .ok (.pushEs ov, bs)
  else if op = 0x07 then .ok (.popEs ov, bs)
  else if op = 0x0E then .ok (.pushCs ov, bs)
  else if op = 0x0F then decode0F ov bs
  else if op = 0x16 then .ok (.pushSs ov, bs)
  else if op = 0x17 then .ok (.popSs ov, bs)
  else if op = 0x1E then .ok (.pushDs ov, bs)
  else if op = 0x1F then .ok (.popDs ov, bs)
  else if op = 0x60 then .ok (.pusha ov, bs)
  else if op = 0x61 then .ok (.popa ov, bs)
  else if op = 0x62 then decodeRegMem 0x62 (.bound ov · ·) bs
  else if op = 0x68 then decodeImm32 (.pushImm32 ov ·) bs
  else if op = 0x6A then decodeImm8 (.pushImm8 ov ·) bs
  else if op = 0x81 then decodeGroupImm32 0x81 (.addRm32Imm32 ov · ·) bs
  else if op = 0x83 then decodeGroup83 ov bs
  else if op = 0x88 then decodeReg8Rm8 (fun r m => .movRm8R8 ov m r) bs
  else if op = 0x89 then decodeRegRm (fun r m => .movRm32R32 ov m r) bs
  else if op = 0x8A then decodeReg8Rm8 (fun r m => .movR8Rm8 ov r m) bs
  else if op = 0x8B then decodeRegRm (fun r m => .movR32Rm32 ov r m) bs
  else if op = 0x8C then decodeFromSreg ov bs
  else if op = 0x8D then decodeRegMem 0x8D (.lea ov · ·) bs
  else if op = 0x8E then decodeToSreg ov bs
  else if op = 0x8F then decodeGroup8F ov bs
  else if op = 0x90 then .ok (.nop ov, bs)
  else if op = 0x9A then decodeFarPtr (.callPtr1632 ov · ·) bs
  else if op = 0xC2 then decodeImm16 (.retImm16 ov ·) bs
  else if op = 0xC3 then .ok (.ret ov, bs)
  else if op = 0xC6 then decodeGroupC6 ov bs
  else if op = 0xC7 then decodeGroupImm32 0xC7 (.movRm32Imm32 ov · ·) bs
  else if op = 0xCA then decodeImm16 (.retFarImm16 ov ·) bs
  else if op = 0xCB then .ok (.retFar ov, bs)
  else if op = 0xCC then .ok (.int3 ov, bs)
  else if op = 0xCD then decodeImm8 (.intN ov ·) bs
  else if op = 0xCE then .ok (.into ov, bs)
  else if op = 0xCF then .ok (.iret ov, bs)
  else if op = 0xE8 then decodeImm32 (.callRel32 ov ·) bs
  else if op = 0xE9 then decodeImm32 (.jmpRel32 ov ·) bs
  else if op = 0xEA then decodeFarPtr (.jmpPtr1632 ov · ·) bs
  else if op = 0xEB then decodeImm8 (.jmpRel8 ov ·) bs
  else if op = 0xFA then .ok (.cli ov, bs)
  else if op = 0xFB then .ok (.sti ov, bs)
  else if op = 0xFF then decodeGroupFF ov bs
  else .error (.bad (.unlistedOpcode op))

/-- The decoder: an optional segment override, then the opcode map (rules R130, R160, R161). It answers the instruction and
the bytes after it. -/
def decode : List Byte → Read (Instr × List Byte)
  | [] => .error .truncated
  | b :: bs =>
    if isExcludedPrefix b then .error (.bad (.excludedPrefix b))
    else match overrideOf b with
      | none => decodeOpcode none b bs
      | some sr =>
        match bs with
        | [] => .error .truncated
        | op :: bs =>
          if isExcludedPrefix op then .error (.bad (.excludedPrefix op))
          else if (overrideOf op).isSome then .error (.bad (.secondPrefix op))
          else decodeOpcode (some sr) op bs

/-! ### The encoder -/

/-- The MOD R/M byte of three fields (rule R132). -/
def modRmByte (md : BitVec 2) (reg rm : BitVec 3) : Byte := md ++ reg ++ rm

/-- The S-I-B byte of three fields (rule R133). -/
def sibByte (scale : Scale) (index base : BitVec 3) : Byte := scale.code ++ index ++ base

/-- The MOD field of a displacement (rules R141, R144, R145). -/
def Disp.mod : Disp → BitVec 2
  | .none => 0 | .d8 _ => 1 | .d32 _ => 2

/-- The bytes of a displacement (rule R152). -/
def Disp.bytes : Disp → List Byte
  | .none => [] | .d8 v => [v] | .d32 v => bytes32 v

/-- MOD R/M byte, S-I-B byte and displacement of a memory operand, with `reg` in the REG field. -/
def MemRef.encode (reg : BitVec 3) : MemRef → List Byte
  | .base b d => modRmByte d.mod reg b.code :: d.bytes
  | .abs v => modRmByte 0 reg 5 :: bytes32 v
  | .sib b sc ix d => modRmByte d.mod reg 4 :: sibByte sc (indexCode ix) b.code :: d.bytes
  | .sibAbs sc ix v => modRmByte 0 reg 4 :: sibByte sc (indexCode ix) 5 :: bytes32 v

/-- The bytes of operand 2, with `reg` in the REG field (rules R140, R146). -/
def RM.encode {ρ : Type} (code : ρ → BitVec 3) (reg : BitVec 3) : RM ρ → List Byte
  | .reg r => [modRmByte 3 reg (code r)]
  | .mem m => m.encode reg

/-- The prefix bytes (rule R160). -/
def overrideBytes : Option SReg → List Byte
  | none => []
  | some sr => [overrideByte sr]

/-- The bytes of an instruction, in memory order (rules R130, R165). -/
def encode : Instr → List Byte
  | .pushR32 ov r => overrideBytes ov ++ [(0x0A : BitVec 5) ++ r.code]
  | .pushRm32 ov op => overrideBytes ov ++ 0xFF :: op.encode Reg.code 6
  | .pushImm32 ov v => overrideBytes ov ++ 0x68 :: bytes32 v
  | .pushImm8 ov v => overrideBytes ov ++ [0x6A, v]
  | .pushEs ov => overrideBytes ov ++ [0x06]
  | .pushCs ov => overrideBytes ov ++ [0x0E]
  | .pushSs ov => overrideBytes ov ++ [0x16]
  | .pushDs ov => overrideBytes ov ++ [0x1E]
  | .pushFs ov => overrideBytes ov ++ [0x0F, 0xA0]
  | .pushGs ov => overrideBytes ov ++ [0x0F, 0xA8]
  | .popR32 ov r => overrideBytes ov ++ [(0x0B : BitVec 5) ++ r.code]
  | .popRm32 ov op => overrideBytes ov ++ 0x8F :: op.encode Reg.code 0
  | .popEs ov => overrideBytes ov ++ [0x07]
  | .popSs ov => overrideBytes ov ++ [0x17]
  | .popDs ov => overrideBytes ov ++ [0x1F]
  | .popFs ov => overrideBytes ov ++ [0x0F, 0xA1]
  | .popGs ov => overrideBytes ov ++ [0x0F, 0xA9]
  | .pusha ov => overrideBytes ov ++ [0x60]
  | .popa ov => overrideBytes ov ++ [0x61]
  | .jmpRel8 ov v => overrideBytes ov ++ [0xEB, v]
  | .jmpRel32 ov v => overrideBytes ov ++ 0xE9 :: bytes32 v
  | .jmpRm32 ov op => overrideBytes ov ++ 0xFF :: op.encode Reg.code 4
  | .jmpM1632 ov m => overrideBytes ov ++ 0xFF :: m.encode 5
  | .jmpPtr1632 ov off sel => overrideBytes ov ++ 0xEA :: (bytes32 off ++ bytes16 sel)
  | .callRel32 ov v => overrideBytes ov ++ 0xE8 :: bytes32 v
  | .callRm32 ov op => overrideBytes ov ++ 0xFF :: op.encode Reg.code 2
  | .callM1632 ov m => overrideBytes ov ++ 0xFF :: m.encode 3
  | .callPtr1632 ov off sel => overrideBytes ov ++ 0x9A :: (bytes32 off ++ bytes16 sel)
  | .ret ov => overrideBytes ov ++ [0xC3]
  | .retImm16 ov v => overrideBytes ov ++ 0xC2 :: bytes16 v
  | .retFar ov => overrideBytes ov ++ [0xCB]
  | .retFarImm16 ov v => overrideBytes ov ++ 0xCA :: bytes16 v
  | .movSregRm16 ov sr op => overrideBytes ov ++ 0x8E :: op.encode Reg.code sr.code
  | .movRm16Sreg ov op sr => overrideBytes ov ++ 0x8C :: op.encode Reg.code sr.code
  | .lgdt ov m => overrideBytes ov ++ 0x0F :: 0x01 :: m.encode 2
  | .lidt ov m => overrideBytes ov ++ 0x0F :: 0x01 :: m.encode 3
  | .ltr ov op => overrideBytes ov ++ 0x0F :: 0x00 :: op.encode Reg.code 3
  | .cli ov => overrideBytes ov ++ [0xFA]
  | .sti ov => overrideBytes ov ++ [0xFB]
  | .intN ov n => overrideBytes ov ++ [0xCD, n]
  | .int3 ov => overrideBytes ov ++ [0xCC]
  | .into ov => overrideBytes ov ++ [0xCE]
  | .bound ov r m => overrideBytes ov ++ 0x62 :: m.encode r.code
  | .iret ov => overrideBytes ov ++ [0xCF]
  | .movRm8R8 ov op r => overrideBytes ov ++ 0x88 :: op.encode Reg8.code r.code
  | .movRm32R32 ov op r => overrideBytes ov ++ 0x89 :: op.encode Reg.code r.code
  | .movR8Rm8 ov r op => overrideBytes ov ++ 0x8A :: op.encode Reg8.code r.code
  | .movR32Rm32 ov r op => overrideBytes ov ++ 0x8B :: op.encode Reg.code r.code
  | .movR8Imm8 ov r v => overrideBytes ov ++ [(0x16 : BitVec 5) ++ r.code, v]
  | .movR32Imm32 ov r v => overrideBytes ov ++ ((0x17 : BitVec 5) ++ r.code) :: bytes32 v
  | .movRm8Imm8 ov op v => overrideBytes ov ++ 0xC6 :: (op.encode Reg8.code 0 ++ [v])
  | .movRm32Imm32 ov op v => overrideBytes ov ++ 0xC7 :: (op.encode Reg.code 0 ++ bytes32 v)
  | .lea ov r m => overrideBytes ov ++ 0x8D :: m.encode r.code
  | .addRm32R32 ov op r => overrideBytes ov ++ 0x01 :: op.encode Reg.code r.code
  | .addR32Rm32 ov r op => overrideBytes ov ++ 0x03 :: op.encode Reg.code r.code
  | .addRm32Imm32 ov op v => overrideBytes ov ++ 0x81 :: (op.encode Reg.code 0 ++ bytes32 v)
  | .addRm32Imm8 ov op v => overrideBytes ov ++ 0x83 :: (op.encode Reg.code 0 ++ [v])
  | .nop ov => overrideBytes ov ++ [0x90]

/-- The length of an instruction in bytes, its prefix counted (rules R25, R131). -/
def Instr.length (i : Instr) : Nat := (encode i).length

/-! ### Opcode-table words -/

/-- The longest instruction of the subset: 12 bytes (rule R131). -/
def maxLength : Nat := 12

/-- The first `n` bytes of a number, least significant first. -/
def bytesOfNat : Nat → Nat → List Byte
  | 0, _ => []
  | n + 1, w => BitVec.ofNat 8 w :: bytesOfNat n (w / 256)

/-- DESIGN CHOICE, log entry 25. The bytes, in memory order, of a table word of `nbits` bits. spec/opcode_table.json numbers
a row's bits with the FIRST byte most significant (its row PUSH_FS is 0FA0h in bits 15..0, its row MOV_r8__imm8 has the
opcode byte in bits 15..8), so that reading comes first; where the decoder refuses it, the word is read with the first
byte least significant. The bytes beyond the word are zeros, up to the longest instruction. -/
def tableBytes (nbits w : Nat) : List Byte :=
  let n := nbits / 8
  let pad := List.replicate (maxLength - n) (0 : Byte)
  let first := (bytesOfNat n w).reverse ++ pad
  match decode first with
  | .ok _ => first
  | .error _ => bytesOfNat n w ++ pad

/-- The instruction the decoder reads from an opcode-table word. -/
def decodeTableWord (nbits w : Nat) : Option Instr :=
  match decode (tableBytes nbits w) with
  | .ok (i, _) => some i
  | .error _ => none

end Sys2Proof
end

