-- ==== Sys2Proof/Machine/State.lean ====
section
/-! DEFINITION. The state of the machine (rules R20 to R46), its faults and refusals, and the state a run starts from. -/

namespace Sys2Proof.Machine

open Sys2Proof

/-! ### Registers -/

/-- The eight general registers (rule R20). -/
structure Regs where
  eax : Word
  ecx : Word
  edx : Word
  ebx : Word
  esp : Word
  ebp : Word
  esi : Word
  edi : Word
deriving DecidableEq, Repr

/-- The `kind` tag of a cached descriptor: bit 11 of its dword at offset 4 (rule R31). -/
inductive SegKind where
  | code
  | data
deriving DecidableEq, Repr

/-- The hidden descriptor cache of a segment register (rule R31, Fig. 8.6). -/
structure Cache where
  base : Word
  limit : BitVec 20
  /-- G, granularity. -/
  g : Bool
  /-- D of a code segment, B of a data segment. -/
  db : Bool
  /-- P, present. -/
  p : Bool
  /-- The privilege field: CPL in the caches of CS and SS, DPL in the others. -/
  priv : Level
  /-- C of a code segment, E of a data segment. -/
  ce : Bool
  /-- R of a code segment, W of a data segment. -/
  rw : Bool
  /-- A, accessed. -/
  a : Bool
  kind : SegKind
  /-- False after a null selector has been loaded (decision D26). -/
  valid : Bool
deriving DecidableEq, Repr

/-- A segment register: its visible selector and its hidden cache (rules R30, R31). -/
structure SegReg where
  sel : Half
  cache : Cache
deriving DecidableEq, Repr

/-- The six segment registers (rule R30). -/
structure SegRegs where
  es : SegReg
  cs : SegReg
  ss : SegReg
  ds : SegReg
  fs : SegReg
  gs : SegReg
deriving DecidableEq, Repr

/-- GDTR or IDTR: a 32-bit linear base and a 16-bit limit (rules R35, R36). -/
structure TableReg where
  base : Word
  limit : Half
deriving DecidableEq, Repr

/-- TR: its visible selector and the cache of a TSS descriptor (rule R37). `valid` is false until LTR has run. -/
structure TaskReg where
  sel : Half
  base : Word
  limit : BitVec 20
  g : Bool
  p : Bool
  dpl : Level
  /-- B, busy. -/
  b : Bool
  valid : Bool
deriving DecidableEq, Repr

/-! ### Memory and inputs -/

/-- Memory: the bytes that are not 00h, as (physical address, byte) pairs in order of address (`Memory.wf`). -/
abbrev Memory := List Host.Cell

/-- A hardware interrupt request (rules R350, R351). -/
inductive Request where
  | nmi
  | intr (vector : Byte)
deriving DecidableEq, Repr

/-! ### The state -/

/-- The whole state of the machine. -/
structure State where
  regs : Regs
  /-- EIP (rule R24). -/
  eip : Word
  /-- EFLAGS (rules R26, R27). -/
  eflags : Word
  segs : SegRegs
  gdtr : TableReg
  idtr : TableReg
  tr : TaskReg
  mem : Memory
  /-- The model's own: the physical addresses written since launch, strictly rising (rule R123). -/
  written : List Nat
  /-- The interrupt oracle of rule R351: the requests that arrive at each coming instruction boundary, the next one first;
  an exhausted list is `none`. -/
  oracle : List (List Request)
  /-- The boundary after a load of SS by MOV or POP, or after STI, presents no interrupt (rules R273, R281, R351). -/
  shadow : Bool
  /-- After an NMI, until an IRET has executed, no further NMI is presented (rule R351). -/
  nmiBlocked : Bool
  /-- The model's own: how many free values have been used. -/
  freeCount : Nat
  /-- The parameters of rule R7, fixed for the run. -/
  cfg : Config
deriving DecidableEq, Repr

/-! ### How a step can stop -/

/-- The `stop_fault` reasons of rule R11: the hardware does something that no source describes. All are safe. -/
inductive Fault where
  /-- A check of a delivery failed while an exception or a hardware interrupt was being delivered through this vector
  (rule R379), or, whatever the event, its frame does not fit the stack of the more privileged level (rule R370, U34).
  Raised by `deliverOrStop` and `innerFrame`. Safe: the run stops. -/
  | duringDelivery (vector : Byte)
  /-- An inter-level delivery found no TSS loaded (rule R374). Raised by `newStack`. Safe. -/
  | noTss
  /-- The stack pair of the target level lies beyond the TSS limit (rule R374). Raised by `newStack`. Safe. -/
  | tssTooSmall
  /-- The TSS holds a null SS for the target level (rule R374). Raised by `newStack`. Safe. -/
  | nullInnerStack
  /-- The SS the TSS holds for the target level lies beyond the GDT limit or fails a check (rule R374). Raised by `newStack`.
  Safe. -/
  | badInnerStack
deriving DecidableEq, Repr

/-- The refusals of rule R11: the spec gives the input no meaning. All are safe: nothing is claimed of such a run. -/
inductive Refusal where
  /-- An instruction that has no meaning yet; no arm of `exec` answers it. Safe. -/
  | notModelled (mnemonic : String)
  /-- The bytes at EIP are outside the admitted subset (rules R5, R161, R167). Raised by the fetch. Safe. -/
  | undecodable (why : BadEncoding)
  /-- The bytes at EIP run past offset FFFFFFFFh (rule R25, decision D30). Raised by the fetch. Safe. -/
  | fetchPastEnd
  /-- A byte to be fetched has been written during the run (rules R123, R438, decision D6). Raised by the fetch. Safe. -/
  | fetchOfWrittenByte
  /-- A fetch access through another register than CS (rule R90). Raised by `segCheck`. Safe. -/
  | fetchNotThroughCs
  /-- CS holds a 16-bit code segment, or a transfer would load one (rules R83, R104, R162). Safe. -/
  | codeSegment16
  /-- A stack segment with B = 0 (rules R83, R100, R256). Safe. -/
  | stackSegment16
  /-- No memory behind a physical address (rule R70, U36). Raised by every access. Safe. -/
  | unpopulated
  /-- Paging is on and its map does not cover the page (rule R69). Raised by every access. Safe. -/
  | pageUnmapped
  /-- A selector with TI = 1 (rules R38, R85). Raised by `readDesc`. Safe. -/
  | ldtSelector
  /-- A far JMP or CALL to a gate or a system descriptor (rule R252). Safe. -/
  | systemDescriptor
  /-- A transfer to a conforming code segment (rules R252, R256, R370). Safe. -/
  | conformingCode
  /-- A delivery through a task gate (rule R367). Safe. -/
  | taskGate
  /-- IRET with NT = 1 (rule R300). Safe. -/
  | taskReturn
  /-- IRET at level 0 with VM = 1 in the popped image, or a run with VM = 1 (rules R301, R27). Safe. -/
  | virtual8086
  /-- A run that has set TF (rule R403, decision D31). Raised by the step. Safe. -/
  | singleStep
  /-- A MOV that would load CS: no instruction of the subset has this form (rule R167). Raised by `loadSeg`. Safe. -/
  | loadOfCs
  /-- A launch state that breaks a premise of rule R421. Raised by `launch`. Safe. -/
  | launchPremise
deriving DecidableEq, Repr

/-- One step's outcome. -/
abbrev Out := Host.Outcome State Fault Refusal

/-! ### Exceptions inside an instruction -/

/-- What an instruction rule can `raise` (rules R342, R360): general protection, stack, not present, each with its error
code, and BOUND's exception, which has none. -/
inductive Exc where
  | gp (code : Half)
  | ss (code : Half)
  | np (code : Half)
  | br
deriving DecidableEq, Repr

/-- Why an operation abandons its instruction (rule R11): `raise`, `refuse`, `stop_fault`. -/
inductive Abort where
  | raise (x : Exc)
  | refuse (r : Refusal)
  | stop (f : Fault)
deriving DecidableEq, Repr

/-- The result of an operation that can be abandoned. -/
abbrev Res := Except Abort

/-! ### The state after reset -/

/-- The cache of the flat supervisor code segment of rule R421: base 0, limit FFFFFh in pages, D = 1, R = 1, DPL 0. -/
def flatCode : Cache where
  base := 0
  limit := 0xFFFFF
  g := true
  db := true
  p := true
  priv := 0
  ce := false
  rw := true
  a := true
  kind := .code
  valid := true

/-- The cache of the flat supervisor data segment of rule R421: base 0, limit FFFFFh in pages, B = 1, W = 1, DPL 0. -/
def flatData : Cache := { flatCode with kind := .data }

/-- A segment register that holds the null selector (rule R77). -/
def nullSeg : SegReg where
  sel := 0
  cache :=
    { base := 0, limit := 0, g := false, db := false, p := false, priv := 0, ce := false, rw := false, a := false,
      kind := .data, valid := false }

/-- DESIGN CHOICE, log entries 1 to 8. The spec gives no reset state (rules R45, R420) and replaces it by a launch state
(rule R421). This is the simplest launch that R421 names, "supervisor, flat", with the selectors of
spec/95_test_vectors.md, every general register, EIP, GDTR, IDTR and TR zero, no interrupt requests, and memory that
lists nothing. -/
def State.reset : State where
  regs := { eax := 0, ecx := 0, edx := 0, ebx := 0, esp := 0, ebp := 0, esi := 0, edi := 0 }
  eip := 0
  eflags := 0x00000002
  segs :=
    { es := { sel := 0x0010, cache := flatData }
      cs := { sel := 0x0008, cache := flatCode }
      ss := { sel := 0x0010, cache := flatData }
      ds := { sel := 0x0010, cache := flatData }
      fs := nullSeg
      gs := nullSeg }
  gdtr := { base := 0, limit := 0 }
  idtr := { base := 0, limit := 0 }
  tr := { sel := 0, base := 0, limit := 0, g := false, p := false, dpl := 0, b := false, valid := false }
  mem := []
  written := []
  oracle := []
  shadow := false
  nmiBlocked := false
  freeCount := 0
  cfg := Config.standard

end Sys2Proof.Machine
end

