-- ==== Sys2Proof/Machine/Flags.lean ====
section
/-! DEFINITION. EFLAGS: its bits (rule R27), what ADD writes (rule R322), what delivery clears (rule R376), what CLI and STI
write (rules R280, R281) and what IRET restores (rule R301). -/

namespace Sys2Proof.Machine

open Sys2Proof

/-- One bit of EFLAGS. -/
def flag (f : Word) (i : Nat) : Bool := f.getLsbD i

/-- EFLAGS with one bit set to a value. -/
def setFlag (f : Word) (i : Nat) (b : Bool) : Word :=
  if b then f ||| BitVec.twoPow 32 i else f &&& ~~~(BitVec.twoPow 32 i)

/-- Bit positions of rule R27. -/
def bitCF : Nat := 0
def bitPF : Nat := 2
def bitAF : Nat := 4
def bitZF : Nat := 6
def bitSF : Nat := 7
def bitTF : Nat := 8
def bitIF : Nat := 9
def bitOF : Nat := 11
def bitNT : Nat := 14
def bitVM : Nat := 17

/-- IOPL, bits 13:12 (rule R27). -/
def iopl (f : Word) : Level := f.extractLsb' 12 2

/-- True when a byte has an even number of 1 bits (PF, rule R322). -/
def evenParity (b : Byte) : Bool :=
  !(b.getLsbD 0 ^^ b.getLsbD 1 ^^ b.getLsbD 2 ^^ b.getLsbD 3 ^^ b.getLsbD 4 ^^ b.getLsbD 5 ^^ b.getLsbD 6 ^^ b.getLsbD 7)

/-- CF of `AddFlags(a, b)` (rule R322). -/
def addCF (a b : Word) : Bool := decide (2 ^ 32 ≤ a.toNat + b.toNat)

/-- OF of `AddFlags(a, b)` (rule R322). -/
def addOF (a b : Word) : Bool := (a.msb == b.msb) && ((a + b).msb != a.msb)

/-- AF of `AddFlags(a, b)` (rule R322). -/
def addAF (a b : Word) : Bool := a.getLsbD 4 ^^ b.getLsbD 4 ^^ (a + b).getLsbD 4

/-- EFLAGS after `AddFlags(a, b)`: CF, PF, AF, ZF, SF and OF are written and no other bit (rule R322). -/
def addFlags (f a b : Word) : Word :=
  let r := a + b
  let f := setFlag f bitCF (addCF a b)
  let f := setFlag f bitPF (evenParity (r.extractLsb' 0 8))
  let f := setFlag f bitAF (addAF a b)
  let f := setFlag f bitZF (decide (r = 0))
  let f := setFlag f bitSF r.msb
  setFlag f bitOF (addOF a b)

/-- EFLAGS after entry through a gate: IF cleared by an interrupt gate and kept by a trap gate, TF and NT cleared
(rules R370, R376). -/
def entryFlags (f : Word) (interruptGate : Bool) : Word :=
  let f := if interruptGate then setFlag f bitIF false else f
  setFlag (setFlag f bitTF false) bitNT false

/-- The bits of EFLAGS that IRET restores at level `old` (rule R301): CF PF AF ZF SF TF DF OF NT RF always, IF where
`old` is at least as privileged as IOPL, IOPL at level 0 only. -/
def restoreMask (f : Word) (old : Level) : Word :=
  let m : Word := 0x00014DD5
  let m := if old ≤ iopl f then m ||| 0x00000200 else m
  if old = 0 then m ||| 0x00003000 else m

/-- EFLAGS `f` after IRET at level `old` has popped the image `n` (rule R301). -/
def restoredFlags (f n : Word) (old : Level) : Word :=
  (f &&& ~~~(restoreMask f old)) ||| (n &&& restoreMask f old)

end Sys2Proof.Machine
end

