-- ==== Sys2Proof/Machine/Ops.lean ====
section
/-! DEFINITION. The named operations over registers, memory, segments and the stack that the rules use (rule R10): register
views, physical and linear memory, the limit and rights check, descriptors and the loading of segment registers, pushes
and pops, taking an exception or an interrupt (`deliver`) and the return from one (`farReturn`). -/

namespace Sys2Proof.Machine

open Sys2Proof

/-! ### Conditions of the pseudocode -/

/-- `if c then raise x` (rule R360). -/
def raiseIf (c : Bool) (x : Exc) : Res Unit := if c then .error (.raise x) else .ok ()

/-- `if c then refuse r` (rule R11). -/
def refuseIf (c : Bool) (r : Refusal) : Res Unit := if c then .error (.refuse r) else .ok ()

/-- `if c then stop_fault f` (rule R11). -/
def stopIf (c : Bool) (f : Fault) : Res Unit := if c then .error (.stop f) else .ok ()

/-! ### General registers (rules R20 to R22) -/

/-- `x[r]` (rule R20). -/
def Regs.get (g : Regs) : Reg → Word
  | .eax => g.eax | .ecx => g.ecx | .edx => g.edx | .ebx => g.ebx
  | .esp => g.esp | .ebp => g.ebp | .esi => g.esi | .edi => g.edi

/-- `x[r] <- v` (rule R20). -/
def Regs.set (g : Regs) (r : Reg) (v : Word) : Regs :=
  match r with
  | .eax => { g with eax := v }
  | .ecx => { g with ecx := v }
  | .edx => { g with edx := v }
  | .ebx => { g with ebx := v }
  | .esp => { g with esp := v }
  | .ebp => { g with ebp := v }
  | .esi => { g with esi := v }
  | .edi => { g with edi := v }

/-- A general register of the machine. -/
def State.reg (s : State) (r : Reg) : Word := s.regs.get r

/-- Write a general register. -/
def State.setReg (s : State) (r : Reg) (v : Word) : State := { s with regs := s.regs.set r v }

/-- ESP. -/
def State.esp (s : State) : Word := s.regs.esp

/-- Write ESP. -/
def State.setEsp (s : State) (v : Word) : State := { s with regs := { s.regs with esp := v } }

/-- `x16[r]` (rule R21). -/
def State.reg16 (s : State) (r : Reg) : Half := (s.reg r).extractLsb' 0 16

/-- `x16[r] <- v`: bits 31:16 are unchanged (rule R21). -/
def State.setReg16 (s : State) (r : Reg) (v : Half) : State := s.setReg r ((s.reg r).extractLsb' 16 16 ++ v)

/-- The general register that holds an 8-bit register (rule R22). -/
def Reg8.whole : Reg8 → Reg
  | .al | .ah => .eax
  | .cl | .ch => .ecx
  | .dl | .dh => .edx
  | .bl | .bh => .ebx

/-- True of AH, CH, DH and BH, which are bits 15:8 (rule R22). -/
def Reg8.high : Reg8 → Bool
  | .al | .cl | .dl | .bl => false
  | .ah | .ch | .dh | .bh => true

/-- `x8[r]` (rule R22). -/
def State.reg8 (s : State) (r : Reg8) : Byte :=
  let w := s.reg (Reg8.whole r)
  if Reg8.high r then w.extractLsb' 8 8 else w.extractLsb' 0 8

/-- A doubleword with its low byte, or its second byte, replaced (rules R22, R190). -/
def putByte (w : Word) (high : Bool) (v : Byte) : Word :=
  if high then w.extractLsb' 16 16 ++ v ++ w.extractLsb' 0 8 else w.extractLsb' 8 24 ++ v

/-- `x8[r] <- v`: only those eight bits change (rule R22). -/
def State.setReg8 (s : State) (r : Reg8) (v : Byte) : State :=
  s.setReg (Reg8.whole r) (putByte (s.reg (Reg8.whole r)) (Reg8.high r) v)

/-! ### Segment registers -/

/-- `sreg[r]` (rule R30). -/
def SegRegs.get (g : SegRegs) : SReg → SegReg
  | .es => g.es | .cs => g.cs | .ss => g.ss | .ds => g.ds | .fs => g.fs | .gs => g.gs

/-- `sreg[r] <- v`. -/
def SegRegs.set (g : SegRegs) (r : SReg) (v : SegReg) : SegRegs :=
  match r with
  | .es => { g with es := v }
  | .cs => { g with cs := v }
  | .ss => { g with ss := v }
  | .ds => { g with ds := v }
  | .fs => { g with fs := v }
  | .gs => { g with gs := v }

/-- A segment register of the machine. -/
def State.seg (s : State) (r : SReg) : SegReg := s.segs.get r

/-- Write a segment register. -/
def State.setSeg (s : State) (r : SReg) (v : SegReg) : State := { s with segs := s.segs.set r v }

/-- CPL, the privilege field of the CS cache (rule R33). -/
def State.cpl (s : State) : Level := s.segs.cs.cache.priv

/-! ### EIP -/

/-- `pc_next`: the offset of the instruction after `i` (rule R25). -/
def State.nextEip (s : State) (i : Instr) : Word := s.eip + BitVec.ofNat 32 i.length

/-- `pc <- target`. -/
def State.jump (s : State) (target : Word) : State := { s with eip := target }

/-- EFLAGS written. -/
def State.setFlags (s : State) (f : Word) : State := { s with eflags := f }

/-- The boundary after this instruction presents no interrupt (rules R273, R281, R351). -/
def State.inShadow (s : State) : State := { s with shadow := true }

/-! ### Physical memory (rule R62) -/

/-- DESIGN CHOICE, log entry 8. What an address that memory does not list reads as. -/
def unlistedByte : Byte := 0

/-- The byte at a physical address. -/
def Memory.read : Memory → Nat → Byte
  | [], _ => unlistedByte
  | (a, b) :: t, x => if a = x then b else Memory.read t x

/-- Write a byte: the list stays sorted, and a byte equal to what an unlisted address reads as is not listed. -/
def Memory.write : Memory → Nat → Byte → Memory
  | [], x, v => if v = unlistedByte then [] else [(x, v)]
  | (a, b) :: t, x, v =>
    if x < a then (if v = unlistedByte then (a, b) :: t else (x, v) :: (a, b) :: t)
    else if x = a then (if v = unlistedByte then t else (a, v) :: t)
    else (a, b) :: Memory.write t x v

/-- The canonical form: addresses of the 32-bit space, strictly rising, and no byte that an unlisted address reads as. -/
def Memory.wf : Memory → Bool
  | [] => true
  | (a, b) :: t => decide (a < 2 ^ 32) && decide (b ≠ unlistedByte) && t.all (fun c => decide (a < c.1)) && Memory.wf t

/-- Add an address to a strictly rising list. -/
def insertAddr (x : Nat) : List Nat → List Nat
  | [] => [x]
  | a :: t => if x < a then x :: a :: t else if x = a then a :: t else a :: insertAddr x t

/-- The byte at a physical address of the machine. -/
def State.byteAt (s : State) (a : Nat) : Byte := Memory.read s.mem a

/-- Store a byte at a physical address and record that the run has written it (rules R62, R123). -/
def State.putByteAt (s : State) (a : Nat) (v : Byte) : State :=
  { s with mem := Memory.write s.mem a v, written := insertAddr a s.written }

/-! ### Linear memory (rules R68, R69) -/

/-- The frame of a page (rule R69). -/
def lookupPage : List (BitVec 20 × BitVec 20) → BitVec 20 → Option (BitVec 20)
  | [], _ => none
  | (p, f) :: t, x => if p = x then some f else lookupPage t x

/-- The physical address of a linear address: itself with paging off; with paging on the upper 20 bits are replaced and the
low 12 pass unchanged (rule R69). -/
def translate (c : Config) (lin : Word) : Option Word :=
  match c.paging with
  | .off => some lin
  | .on pages => (lookupPage pages (lin.extractLsb' 12 20)).map (· ++ lin.extractLsb' 0 12)

/-- True when there is memory behind a physical address (rule R70). -/
def populatedAt (c : Config) (a : Nat) : Bool := c.populated.any (fun r => decide (r.1 ≤ a) && decide (a ≤ r.2))

/-- The physical address an access at a linear address goes to. -/
def physAddr (c : Config) (lin : Word) : Res Nat :=
  match translate c lin with
  | none => .error (.refuse .pageUnmapped)
  | some p => if populatedAt c p.toNat then .ok p.toNat else .error (.refuse .unpopulated)

/-- One byte at a linear address. -/
def readByte (s : State) (lin : Word) : Res Byte := do
  let a ← physAddr s.cfg lin
  return s.byteAt a

/-- Store one byte at a linear address. -/
def writeByte (s : State) (lin : Word) (v : Byte) : Res State := do
  let a ← physAddr s.cfg lin
  return s.putByteAt a v

/-- `LinRead(lin, n)`: the `n` bytes from `lin` up, modulo 2^32, the first one least significant (rules R62, R68). -/
def linRead (s : State) (lin : Word) : (n : Nat) → Res (BitVec (8 * n))
  | 0 => .ok 0
  | n + 1 => do
    let b ← readByte s lin
    let hi ← linRead s (lin + 1) n
    return (hi ++ b)

/-- `LinWrite(lin, n, v)` (rules R62, R68). -/
def linWrite (s : State) (lin : Word) : (n : Nat) → BitVec (8 * n) → Res State
  | 0, _ => .ok s
  | n + 1, v => do
    let s ← writeByte s lin (v.extractLsb' 0 8)
    linWrite s (lin + 1) n (v.extractLsb' 8 (8 * n))

/-! ### The limit and rights check (rules R82, R90, R91) -/

/-- `EffLimit` (rule R82). -/
def effLimit (limit : BitVec 20) (g : Bool) : Word :=
  if g then (limit.setWidth 32 <<< 12) ||| 0x00000FFF else limit.setWidth 32

/-- The `kind` of an access (rule R90). -/
inductive Access where
  | read
  | write
  | fetch
deriving DecidableEq, Repr

/-- The access-rights part of `SegCheck`: a code segment is not written and is read only if R = 1; a data segment is
written only if W = 1 (rule R90). -/
def rightsOk (c : Cache) : Access → Bool
  | .read => decide (c.kind = .data) || c.rw
  | .write => decide (c.kind = .data) && c.rw
  | .fetch => true

/-- The limit part of `SegCheck` for the `n` bytes from offset `off` up: no wrap past FFFFFFFFh, and inside the segment,
which an expand-down data segment (E = 1) lies above its limit (rule R90). -/
def limitOk (c : Cache) (off : Word) (n : Nat) : Bool :=
  let last := off.toNat + n - 1
  let lim := (effLimit c.limit c.g).toNat
  decide (last ≤ 0xFFFFFFFF) &&
    (if decide (c.kind = .code) || !c.ce then decide (last ≤ lim)
     else decide (lim < off.toNat) && decide (last ≤ if c.db then 0xFFFFFFFF else 0x0000FFFF))

/-- The exception of a violation through a segment register: 12 through SS, else 13, with code 0 (rule R91). -/
def accessFault : SReg → Exc
  | .ss => .ss 0
  | _ => .gp 0

/-- `SegCheck(r, off, n, kind)` (rule R90). -/
def segCheck (s : State) (r : SReg) (off : Word) (n : Nat) (k : Access) : Res Unit := do
  let c := (s.seg r).cache
  raiseIf (!c.valid) (.gp 0)
  raiseIf (!rightsOk c k) (accessFault r)
  refuseIf (decide (k = .fetch) && decide (r ≠ .cs)) .fetchNotThroughCs
  raiseIf (!limitOk c off n) (accessFault r)

/-- The linear address of an offset in a segment (rule R68). -/
def State.linear (s : State) (r : SReg) (off : Word) : Word := (s.seg r).cache.base + off

/-- `SegRead(r, off, n)` (rule R95). -/
def segRead (s : State) (r : SReg) (off : Word) (n : Nat) : Res (BitVec (8 * n)) := do
  segCheck s r off n .read
  linRead s (s.linear r off) n

/-- `SegWrite(r, off, n, v)`: the check precedes the write (rule R96). -/
def segWrite (s : State) (r : SReg) (off : Word) (n : Nat) (v : BitVec (8 * n)) : Res State := do
  segCheck s r off n .write
  linWrite s (s.linear r off) n v

/-! ### Free values -/

/-- The free 16 bits that this use of `any value` stores (U6), and the state with the counter advanced. -/
def State.freeHalf (s : State) : BitVec 16 × State :=
  (Config.freeHalf s.freeCount, { s with freeCount := s.freeCount + 1 })

/-! ### Selectors and descriptors (rules R75 to R86) -/

/-- The RPL of a selector as the checks see it: bits 1:0, or 0 under `rpl_rule = source`, which ignores RPL
(rules R7, R75). DEDUCED, log entry 14. -/
def rplOf (c : Config) (sel : Half) : Level :=
  match c.rplRule with
  | .hardware => sel.extractLsb' 0 2
  | .source => 0

/-- `rpl_rule = hardware`. -/
def hardwareRpl (c : Config) : Bool := decide (c.rplRule = .hardware)

/-- Bits 15:2 are 0: a null selector (rules R77, R100). -/
def isNull (sel : Half) : Bool := decide (sel.extractLsb' 2 14 = 0)

/-- `sel & FFFCh`: the error code of a selector (rule R361). -/
def selCode (sel : Half) : Half := sel &&& 0xFFFC

/-- The address of the descriptor a selector names: `GDTR.base + (sel & FFF8h)` (rule R76). -/
def descAddr (s : State) (sel : Half) : Word := s.gdtr.base + (sel &&& 0xFFF8).setWidth 32

/-- `ReadDesc(sel)` (rule R85). -/
def readDesc (s : State) (sel : Half) : Res (BitVec 64) := do
  refuseIf (sel.getLsbD 2) .ldtSelector
  raiseIf (decide (s.gdtr.limit.toNat < (sel &&& 0xFFF8).toNat + 7)) (.gp (selCode sel))
  linRead s (descAddr s sel) 8

/-- The kinds of rule R86. -/
inductive DescKind where
  | code
  | data
  | tss
  | other
deriving DecidableEq, Repr

/-- Classification on bits 44:40 (rule R86). -/
def descKind (d : BitVec 64) : DescKind :=
  if d.getLsbD 44 then (if d.getLsbD 43 then .code else .data)
  else if d.getLsbD 43 && !d.getLsbD 42 && d.getLsbD 40 then .tss
  else .other

/-- The base field (rules R80, R86). -/
def descBase (d : BitVec 64) : Word := d.extractLsb' 56 8 ++ d.extractLsb' 32 8 ++ d.extractLsb' 16 16

/-- The limit field (rules R80, R86). -/
def descLimit (d : BitVec 64) : BitVec 20 := d.extractLsb' 48 4 ++ d.extractLsb' 0 16

/-- G (rule R86). -/
def descG (d : BitVec 64) : Bool := d.getLsbD 55

/-- D or B (rule R86). -/
def descDB (d : BitVec 64) : Bool := d.getLsbD 54

/-- P (rule R86). -/
def descP (d : BitVec 64) : Bool := d.getLsbD 47

/-- DPL (rule R86). -/
def descDpl (d : BitVec 64) : Level := d.extractLsb' 45 2

/-- C of a code segment, E of a data segment: bit 10 of the dword at offset 4 (rules R80, R81). -/
def descCE (d : BitVec 64) : Bool := d.getLsbD 42

/-- R of a code segment, W of a data segment, B of a TSS: bit 9 of the dword at offset 4 (rules R80, R81, R392). -/
def descRW (d : BitVec 64) : Bool := d.getLsbD 41

/-- A: bit 8 of the dword at offset 4 (rules R80, R81). -/
def descA (d : BitVec 64) : Bool := d.getLsbD 40

/-- The cache of a code or data segment descriptor, with the privilege field given (rules R100, R104). -/
def cacheOf (d : BitVec 64) (priv : Level) : Cache where
  base := descBase d
  limit := descLimit d
  g := descG d
  db := descDB d
  p := descP d
  priv := priv
  ce := descCE d
  rw := descRW d
  a := true
  kind := if d.getLsbD 43 then .code else .data
  valid := true

/-- Or a mask into byte 5 of the descriptor a selector names (rules R103, R278). -/
def orAccessByte (s : State) (sel : Half) (mask : Byte) : Res State := do
  let b ← readByte s (descAddr s sel + 5)
  writeByte s (descAddr s sel + 5) (b ||| mask)

/-- `SetAccessed(sel, d)` (rule R103). -/
def setAccessed (s : State) (sel : Half) (d : BitVec 64) : Res State :=
  if descA d then .ok s else orAccessByte s sel 0x01

/-! ### Loading segment registers (rules R100, R104) -/

/-- The checks of `LoadSeg` on a descriptor for SS (rule R100). -/
def checkStackDesc (s : State) (sel : Half) (d : BitVec 64) : Res Unit := do
  raiseIf (hardwareRpl s.cfg && decide (rplOf s.cfg sel ≠ s.cpl)) (.gp (selCode sel))
  raiseIf (decide (descKind d ≠ .data) || !descRW d) (.gp (selCode sel))
  raiseIf (decide (descDpl d ≠ s.cpl)) (.gp (selCode sel))
  raiseIf (!descP d) (.ss (selCode sel))
  refuseIf (!descDB d) .stackSegment16

/-- The checks of `LoadSeg` on a descriptor for DS, ES, FS or GS (rule R100). -/
def checkDataDesc (s : State) (sel : Half) (d : BitVec 64) : Res Unit := do
  raiseIf (!(decide (descKind d = .data) || decide (descKind d = .code) && descRW d)) (.gp (selCode sel))
  raiseIf ((decide (descKind d = .data) || !descCE d) &&
    (decide (descDpl d < s.cpl) || decide (descDpl d < rplOf s.cfg sel))) (.gp (selCode sel))
  raiseIf (!descP d) (.np (selCode sel))

/-- `LoadSeg(r, sel)` for SS, DS, ES, FS and GS (rule R100). -/
def loadSeg (s : State) (r : SReg) (sel : Half) : Res State :=
  match r with
  | .cs => .error (.refuse .loadOfCs)
  | .ss => do
    raiseIf (isNull sel) (.gp 0)
    let d ← readDesc s sel
    checkStackDesc s sel d
    let s ← setAccessed s sel d
    return s.setSeg .ss { sel := sel, cache := cacheOf d (descDpl d) }
  | r =>
    if isNull sel then .ok (s.setSeg r { sel := sel, cache := { (s.seg r).cache with valid := false } })
    else do
      let d ← readDesc s sel
      checkDataDesc s sel d
      let s ← setAccessed s sel d
      return s.setSeg r { sel := sel, cache := cacheOf d (descDpl d) }

/-- `LoadCS(sel, d, newCPL)` (rule R104). -/
def loadCS (s : State) (sel : Half) (d : BitVec 64) (newCpl : Level) : Res State := do
  refuseIf (!descDB d) .codeSegment16
  let s ← setAccessed s sel d
  return s.setSeg .cs
    { sel := if hardwareRpl s.cfg then sel.extractLsb' 2 14 ++ newCpl else sel, cache := cacheOf d newCpl }

/-! ### The stack (rules R202, R203, R224) -/

/-- `Push32(v)` (rule R202). -/
def push32 (s : State) (v : Word) : Res State := do
  let t := s.esp - 4
  let s ← segWrite s .ss t 4 v
  return s.setEsp t

/-- `Pop32()` (rule R203). -/
def pop32 (s : State) : Res (Word × State) := do
  let v ← segRead s .ss s.esp 4
  return (v, s.setEsp (s.esp + 4))

/-- Store doublewords downward from offset `t` of the stack segment, the first one highest (rules R228, R370). -/
def storeDown (s : State) (t : Word) : List Word → Res State
  | [] => .ok s
  | v :: vs => do
    let s ← segWrite s .ss (t - 4) 4 v
    storeDown s (t - 4) vs

/-- Store a selector in the low word of the doubleword slot at SS:`off`, its upper word `any value` (rules R224, R247, R370,
R375). The whole slot must be accessible. -/
def storeSelSlot (s : State) (off : Word) (sel : Half) : Res State := do
  let s ← segWrite s .ss off 2 sel
  segCheck s .ss off 4 .write
  let (hi, s) := s.freeHalf
  segWrite s .ss (off + 2) 2 hi

/-! ### Near targets (rule R240) -/

/-- The target check of a near transfer (rule R240). -/
def checkTarget (s : State) (target : Word) : Res Unit :=
  raiseIf (decide (effLimit s.segs.cs.cache.limit s.segs.cs.cache.g < target)) (.gp 0)

/-! ### Taking an exception or an interrupt (rules R360 to R379) -/

/-- INT n, INT 3 and INTO: `kind = software` (rule R370). -/
def isSoftware : EventKind → Bool
  | .intN | .int3 | .into => true
  | .bound | .exception | .external => false

/-- True when the gate's DPL is checked for an event: `gate_dpl_checked_for`, and never for a hardware interrupt
(rules R350, R368). DEDUCED, log entry 28: INT 3 is checked as INT n is (rule R291), although the source's set of rule R7
does not name it. -/
def checksGateDpl (c : Config) (k : EventKind) : Bool :=
  match k with
  | .external => false
  | .int3 => c.gateDplCheckedFor.contains .int3 || c.gateDplCheckedFor.contains .intN
  | k => c.gateDplCheckedFor.contains k

/-- The gates of rule R367. -/
inductive GateKind where
  | interrupt
  | trap
  | task
  | none
deriving DecidableEq, Repr

/-- Gate type decode on bits 44:40 (rule R367). -/
def gateKind (c : Config) (g : BitVec 64) : GateKind :=
  let t := g.extractLsb' 40 5
  if t = 0b01111 then .trap
  else match c.intGateType with
    | .hardware => if t = 0b01110 then .interrupt else if t = 0b00101 then .task else .none
    | .source => if t = 0b00101 then .interrupt else .none

/-- The vector of an exception (rule R360). -/
def excVector (c : Config) : Exc → Byte
  | .gp _ => 13
  | .ss _ => 12
  | .np _ => match c.npVector with
    | .v11 => 11
    | .v13 => 13
  | .br => 5

/-- The error code of an exception (rules R360, R361). -/
def excCode : Exc → Option Half
  | .gp e | .ss e | .np e => some e
  | .br => none

/-- The event kind of an exception. -/
def excKind : Exc → EventKind
  | .br => .bound
  | _ => .exception

/-- `8v`: the offset of gate `v` in the IDT (rule R364). -/
def gateOffset (v : Byte) : Word := v.setWidth 32 <<< 3

/-- `8v + 2`: the error code of gate `v` (rule R361). -/
def gateCode (v : Byte) : Half := (v.setWidth 16 <<< 3) + 2

/-- A selector of the TSS whose descriptor cannot be read is a bad SS: what `ReadDesc` raises stops the run, whatever the
event (rule R374, decision D40; log entry 20). -/
def orBadStack : Res (BitVec 64) → Res (BitVec 64)
  | .error (.raise _) => .error (.stop .badInnerStack)
  | r => r

/-- `NewStack(lvl)`: SS, ESP and the stack segment's descriptor for a more privileged level, from the TSS (rule R374). -/
def newStack (s : State) (lvl : Level) : Res (Half × Word × BitVec 64) := do
  stopIf (!s.tr.valid) .noTss
  stopIf (decide ((effLimit s.tr.limit s.tr.g).toNat < 8 * lvl.toNat + 11)) .tssTooSmall
  let nEsp ← linRead s (s.tr.base + 4 + (lvl.setWidth 32 <<< 3)) 4
  let nSS ← linRead s (s.tr.base + 8 + (lvl.setWidth 32 <<< 3)) 2
  stopIf (isNull nSS) .nullInnerStack
  let ds ← orBadStack (readDesc s nSS)
  stopIf (hardwareRpl s.cfg && decide (rplOf s.cfg nSS ≠ lvl) || decide (descKind ds ≠ .data) || !descRW ds
    || decide (descDpl ds ≠ lvl) || !descP ds || !descDB ds) .badInnerStack
  return (nSS, nEsp, ds)

/-- The checks of `Deliver` on the gate (rule R370, step 1); it answers the gate. -/
def checkGate (s : State) (k : EventKind) (v : Byte) (ext : Half) : Res (BitVec 64) := do
  raiseIf (decide (s.idtr.limit.toNat < (gateOffset v).toNat + 7)) (.gp (gateCode v + ext))
  let g ← linRead s (s.idtr.base + gateOffset v) 8
  refuseIf (decide (gateKind s.cfg g = .task)) .taskGate
  raiseIf (decide (gateKind s.cfg g = .none)) (.gp (gateCode v + ext))
  raiseIf (checksGateDpl s.cfg k && decide (descDpl g < s.cpl)) (.gp (gateCode v))
  raiseIf (!descP g) (.np (gateCode v + ext))
  return g

/-- The selector of a gate (rule R365). -/
def gateSel (g : BitVec 64) : Half := g.extractLsb' 16 16

/-- The entry offset of a gate (rule R365). -/
def gateOff (g : BitVec 64) : Word := g.extractLsb' 48 16 ++ g.extractLsb' 0 16

/-- The checks of `Deliver` on the target code segment (rule R370, step 2); it answers the descriptor. -/
def checkGateTarget (s : State) (g : BitVec 64) (ext : Half) : Res (BitVec 64) := do
  raiseIf (isNull (gateSel g)) (.gp ext)
  let d ← readDesc s (gateSel g)
  let e := selCode (gateSel g) + ext
  raiseIf (decide (descKind d ≠ .code)) (.gp e)
  refuseIf (descCE d) .conformingCode
  raiseIf (decide (s.cpl < descDpl d)) (.gp e)
  raiseIf (!descP d) (.np e)
  raiseIf (decide (effLimit (descLimit d) (descG d) < gateOff g)) (.gp 0)
  return d

/-- The doublewords of a frame from the highest down: EFLAGS, CS with 0000h above it, EIP, and the error code if there is
one (rules R370, R373, R377, R378). -/
def frameWords (image : Word) (cs : Half) (savedEip : Word) (code : Option Half) : List Word :=
  [image, cs.setWidth 32, savedEip] ++ (code.map (·.setWidth 32)).toList

/-- `failing with fail(SS(0))`: whatever a check raises is reported as SS(0) (rule R370, step 3a). -/
def orStackFault : Res Unit → Res Unit
  | .error (.raise _) => .error (.raise (.ss 0))
  | r => r

/-- Step 3a of `Deliver`: the frame on the current stack (rules R370, R373). -/
def sameLevelFrame (s : State) (savedEip : Word) (code : Option Half) : Res State := do
  let n : Nat := if code.isSome then 16 else 12
  let t := s.esp - BitVec.ofNat 32 n
  orStackFault (segCheck s .ss t n .write)
  let s' ← storeDown s s.esp (frameWords s.eflags s.segs.cs.sel savedEip code)
  return s'.setEsp t

/-- Step 3b of `Deliver`: the frame on the stack of the more privileged level `lvl` (rules R370, R374, R375). DEDUCED, log
entry 20: a frame that does not fit there stops the run, whatever the event (U34, decision D40), with the reason that rule
R370 gives. -/
def innerFrame (s : State) (lvl : Level) (v : Byte) (savedEip : Word) (code : Option Half) : Res State := do
  let (nSS, nEsp, ds) ← newStack s lvl
  let n : Nat := if code.isSome then 24 else 20
  let t := nEsp - BitVec.ofNat 32 n
  stopIf (!limitOk (cacheOf ds lvl) t n) (.duringDelivery v)
  let s1 ← setAccessed s nSS ds
  let s1 := s1.setSeg .ss { sel := nSS, cache := cacheOf ds lvl }
  let s1 ← storeSelSlot s1 (nEsp - 4) s.segs.ss.sel
  let s1 ← storeDown s1 (nEsp - 4) (s.esp :: frameWords s.eflags s.segs.cs.sel savedEip code)
  return s1.setEsp t

/-- Step 3 of `Deliver`: the frame, on the current stack or on that of the more privileged level `lvl` (rule R370). -/
def entryFrame (s : State) (lvl : Level) (v : Byte) (savedEip : Word) (code : Option Half) : Res State :=
  if lvl = s.cpl then sameLevelFrame s savedEip code else innerFrame s lvl v savedEip code

/-- `Deliver(v, kind, errcode, saved_eip)` (rule R370). Its `raise` is the rule's `fail`: `settle` takes it as a fault of a
software interrupt's own instruction, `deliverOrStop` as `stop_fault` for every other event (rule R379). -/
def deliver (s : State) (k : EventKind) (v : Byte) (errcode : Option Half) (savedEip : Word) : Res State := do
  let ext : Half := if isSoftware k then 0 else 1
  let g ← checkGate s k v ext
  let d ← checkGateTarget s g ext
  let code := if s.cfg.errcodeVectors.contains v.toNat then errcode else none
  let s1 ← entryFrame s (descDpl d) v savedEip code
  let s2 := s1.setFlags (entryFlags s1.eflags (decide (gateKind s.cfg g = .interrupt)))
  let s3 ← loadCS s2 (gateSel g) d (descDpl d)
  return s3.jump (gateOff g)

/-- A delivery that is no software interrupt: a failing check stops the run (rule R379). -/
def deliverOrStop (s : State) (k : EventKind) (v : Byte) (errcode : Option Half) (savedEip : Word) : Out :=
  match deliver s k v errcode savedEip with
  | .ok s' => .next s'
  | .error (.raise _) => .fault (.duringDelivery v)
  | .error (.refuse r) => .refused r
  | .error (.stop f) => .fault f

/-- TAKING AN EXCEPTION: the exception `x` of the instruction at EIP is delivered from the state before that instruction,
with the saved EIP at it (rules R360, R372). -/
def takeException (s : State) (x : Exc) : Out :=
  deliverOrStop s (excKind x) (excVector s.cfg x) (excCode x) s.eip

/-- The outcome of an instruction whose work on `s` came to `r`: what it raises is taken as an exception of `s`, so that an
abandoned instruction changes nothing (rules R11, R360). -/
def settle (s : State) (r : Res State) : Out :=
  match r with
  | .ok s' => .next s'
  | .error (.raise x) => takeException s x
  | .error (.refuse q) => .refused q
  | .error (.stop f) => .fault f

/-! ### Far transfers and the return from an exception (rules R252, R256, R301) -/

/-- `FarTarget(sel, off)` (rule R252). -/
def farTarget (s : State) (sel : Half) (off : Word) : Res (BitVec 64) := do
  raiseIf (isNull sel) (.gp 0)
  let d ← readDesc s sel
  raiseIf (decide (descKind d = .data)) (.gp (selCode sel))
  refuseIf (decide (descKind d ≠ .code)) .systemDescriptor
  refuseIf (descCE d) .conformingCode
  raiseIf (decide (descDpl d ≠ s.cpl)) (.gp (selCode sel))
  raiseIf (hardwareRpl s.cfg && decide (s.cpl < rplOf s.cfg sel)) (.gp (selCode sel))
  raiseIf (!descP d) (.np (selCode sel))
  raiseIf (decide (effLimit (descLimit d) (descG d) < off)) (.gp 0)
  return d

/-- The level that a return through the CS image `sel` and its descriptor goes to (rule R256). -/
def returnLevel (c : Config) (sel : Half) (d : BitVec 64) : Level :=
  if hardwareRpl c then sel.extractLsb' 0 2 else descDpl d

/-- The checks of `FarReturn` on the CS image and its descriptor (rule R256). -/
def checkReturnCS (s : State) (sel : Half) (d : BitVec 64) (eip : Word) : Res Unit := do
  raiseIf (decide (descKind d ≠ .code)) (.gp (selCode sel))
  refuseIf (descCE d) .conformingCode
  raiseIf (decide (returnLevel s.cfg sel d < s.cpl)) (.gp (selCode sel))
  raiseIf (decide (descDpl d ≠ returnLevel s.cfg sel d)) (.gp (selCode sel))
  raiseIf (!descP d) (.np (selCode sel))
  raiseIf (decide (effLimit (descLimit d) (descG d) < eip)) (.gp 0)

/-- The checks of `FarReturn` on the SS image of a return to the outer level `lvl` (rule R256). -/
def checkReturnSS (s : State) (lvl : Level) (sel : Half) (ds : BitVec 64) : Res Unit := do
  raiseIf (hardwareRpl s.cfg && decide (rplOf s.cfg sel ≠ lvl)) (.gp (selCode sel))
  raiseIf (decide (descKind ds ≠ .data) || !descRW ds || decide (descDpl ds ≠ lvl)) (.gp (selCode sel))
  raiseIf (!descP ds) (.ss (selCode sel))
  refuseIf (!descDB ds) .stackSegment16

/-- A data-segment register after a return to level `lvl`: emptied if it holds a segment more privileged than that
(rule R256, decision D38). -/
def emptyIfInner (lvl : Level) (r : SegReg) : SegReg :=
  if r.cache.valid && (decide (r.cache.kind = .data) || !r.cache.ce) && decide (r.cache.priv < lvl)
  then { sel := 0, cache := { r.cache with valid := false } }
  else r

/-- The four data-segment registers after a return to level `lvl` (rule R256). -/
def emptyInner (lvl : Level) (g : SegRegs) : SegRegs :=
  { g with ds := emptyIfInner lvl g.ds, es := emptyIfInner lvl g.es, fs := emptyIfInner lvl g.fs, gs := emptyIfInner lvl g.gs }

/-- The return to the same level: CS:EIP only (rule R256). -/
def returnSame (s : State) (nEip : Word) (nCS : Half) (d : BitVec 64) (esp : Word) : Res State := do
  let s1 ← loadCS s nCS d s.cpl
  return (s1.jump nEip).setEsp esp

/-- The return to the outer level `lvl`: CS:EIP and SS:ESP, the latter from SS:`u` (rule R256). -/
def returnOuter (s : State) (nEip : Word) (nCS : Half) (d : BitVec 64) (lvl : Level) (u extra : Word) : Res State := do
  segCheck s .ss u 8 .read
  let nEsp ← segRead s .ss u 4
  let ssSlot ← segRead s .ss (u + 4) 4
  let nSS := ssSlot.extractLsb' 0 16
  raiseIf (isNull nSS) (.gp 0)
  let ds ← readDesc s nSS
  checkReturnSS s lvl nSS ds
  let s1 ← loadCS s nCS d lvl
  let s1 := s1.jump nEip
  let s1 ← setAccessed s1 nSS ds
  let s1 := (s1.setSeg .ss { sel := nSS, cache := cacheOf ds (descDpl ds) }).setEsp (nEsp + extra)
  return { s1 with segs := emptyInner lvl s1.segs }

/-- The return to the level `lvl`: the same, or an outer one (rule R256). `above` is the offset above what has been read. -/
def returnTo (s : State) (nEip : Word) (nCS : Half) (d : BitVec 64) (lvl : Level) (above extra : Word) : Res State :=
  if lvl = s.cpl then returnSame s nEip nCS d above else returnOuter s nEip nCS d lvl above extra

/-- `RestoreFlags(nFL, old)` (rule R301). -/
def restoreFlags (s : State) (nFl : Word) (old : Level) : Res State := do
  refuseIf (flag nFl bitVM && decide (old = 0)) .virtual8086
  return s.setFlags (restoredFlags s.eflags nFl old)

/-- `FarReturn(is_iret, extra)`: the return from an exception or interrupt, and far RET (rule R256). -/
def farReturn (s : State) (isIret : Bool) (extra : Word) : Res State := do
  let t := s.esp
  let k : Nat := if isIret then 12 else 8
  segCheck s .ss t k .read
  let nEip ← segRead s .ss t 4
  let csSlot ← segRead s .ss (t + 4) 4
  let nCS := csSlot.extractLsb' 0 16
  let nFl ← if isIret then segRead s .ss (t + 8) 4 else .ok 0
  raiseIf (isNull nCS) (.gp 0)
  let d ← readDesc s nCS
  checkReturnCS s nCS d nEip
  let lvl := returnLevel s.cfg nCS d
  let above := t + BitVec.ofNat 32 k + extra
  let s1 ← returnTo s nEip nCS d lvl above extra
  if isIret then restoreFlags s1 nFl s.cpl else return s1

end Sys2Proof.Machine
end

