-- ==== Sys2Proof/Machine/Operands.lean ====
section
/-! DEFINITION. Operands: the effective address and default segment of every memory form of Table 7.1 (rules R140 to R151,
R191 to R201), and the accessors of operand 2 at each width (rule R190). -/

namespace Sys2Proof.Machine

open Sys2Proof

/-- The value of a displacement: 8 bits are sign-extended (rule R152). -/
def dispValue : Disp → Word
  | .none => 0
  | .d8 v => v.signExtend 32
  | .d32 v => v

/-- The left shift of a scale (rule R148). -/
def scaleShift : Scale → Nat
  | .x1 => 0 | .x2 => 1 | .x4 => 2 | .x8 => 3

/-- The index component: 0 without an index register, whatever the scale (rules R148, R149). -/
def indexValue (g : Regs) (sc : Scale) : Option Reg → Word
  | none => 0
  | some r => g.get r <<< scaleShift sc

/-- The effective address of a memory operand: base + index * scale + displacement modulo 2^32 (rules R140, R191). -/
def effAddr (g : Regs) : MemRef → Word
  | .base b d => g.get b + dispValue d
  | .abs d => d
  | .sib b sc ix d => g.get b + indexValue g sc ix + dispValue d
  | .sibAbs sc ix d => d + indexValue g sc ix

/-- The default segment of a base register: SS for ESP, `ebp_default_seg` for EBP, DS for the others (rule R151). -/
def baseSeg (c : Config) : Reg → SReg
  | .esp => .ss
  | .ebp => match c.ebpDefaultSeg with
    | .ss => .ss
    | .ds => .ds
  | _ => .ds

/-- The default segment of a memory operand (rules R98, R151). -/
def defaultSeg (c : Config) : MemRef → SReg
  | .base b _ => baseSeg c b
  | .abs _ => .ds
  | .sib b _ _ _ => baseSeg c b
  | .sibAbs _ _ _ => .ds

/-- The segment of a memory operand: the override prefix if there is one, else the default (rules R140, R160). -/
def operandSeg (c : Config) (ov : Option SReg) (m : MemRef) : SReg := ov.getD (defaultSeg c m)

/-- The effective address of a memory operand in a state. -/
def State.ea (s : State) (m : MemRef) : Word := effAddr s.regs m

/-- The `n` bytes at displacement `d` from the start of a memory operand (rules R190, R205, R207). -/
def readMem (s : State) (ov : Option SReg) (m : MemRef) (d : Word) (n : Nat) : Res (BitVec (8 * n)) :=
  segRead s (operandSeg s.cfg ov m) (s.ea m + d) n

/-- `ReadRM(op, 4)` (rule R190). -/
def readRM32 (s : State) (ov : Option SReg) : RM Reg → Res Word
  | .reg r => .ok (s.reg r)
  | .mem m => segRead s (operandSeg s.cfg ov m) (s.ea m) 4

/-- `ReadRM(op, 2)` (rule R190). -/
def readRM16 (s : State) (ov : Option SReg) : RM Reg → Res Half
  | .reg r => .ok (s.reg16 r)
  | .mem m => segRead s (operandSeg s.cfg ov m) (s.ea m) 2

/-- `ReadRM(op, 1)` (rule R190). -/
def readRM8 (s : State) (ov : Option SReg) : RM Reg8 → Res Byte
  | .reg r => .ok (s.reg8 r)
  | .mem m => segRead s (operandSeg s.cfg ov m) (s.ea m) 1

/-- `WriteRM(op, 4, v)` (rule R190). -/
def writeRM32 (s : State) (ov : Option SReg) (op : RM Reg) (v : Word) : Res State :=
  match op with
  | .reg r => .ok (s.setReg r v)
  | .mem m => segWrite s (operandSeg s.cfg ov m) (s.ea m) 4 v

/-- `WriteRM(op, 2, v)` (rule R190). -/
def writeRM16 (s : State) (ov : Option SReg) (op : RM Reg) (v : Half) : Res State :=
  match op with
  | .reg r => .ok (s.setReg16 r v)
  | .mem m => segWrite s (operandSeg s.cfg ov m) (s.ea m) 2 v

/-- `WriteRM(op, 1, v)` (rule R190). -/
def writeRM8 (s : State) (ov : Option SReg) (op : RM Reg8) (v : Byte) : Res State :=
  match op with
  | .reg r => .ok (s.setReg8 r v)
  | .mem m => segWrite s (operandSeg s.cfg ov m) (s.ea m) 1 v

/-- The far pointer that a memory operand holds: offset at +0, selector at +4 (rules R156, R207). -/
def readFarPtr (s : State) (ov : Option SReg) (m : MemRef) : Res (Word × Half) := do
  let off ← readMem s ov m 0 4
  let sel ← readMem s ov m 4 2
  return (off, sel)

/-- The 48-bit operand of LGDT and LIDT: limit at +0, base at +2 (rules R156, R276). -/
def readTableOperand (s : State) (ov : Option SReg) (m : MemRef) : Res TableReg := do
  let lim ← readMem s ov m 0 2
  let base ← readMem s ov m 2 4
  return { base := base, limit := lim }

end Sys2Proof.Machine
end

