-- ==== Sys2Proof/Machine/Carrier.lean ====
section
/-! DEFINITION. The carrier instructions MOV, LEA, ADD and NOP (spec/45_carrier.md, rules R310 to R330). -/

namespace Sys2Proof.Machine

open Sys2Proof

/-- MOV r/m8, r8 (rule R310). -/
def execMovRm8R8 (ov : Option SReg) (op : RM Reg8) (r : Reg8) (s : State) : Out :=
  settle s do
    let s' ← writeRM8 s ov op (s.reg8 r)
    return s'.jump (s.nextEip (.movRm8R8 ov op r))

/-- MOV r/m32, r32 (rule R311). -/
def execMovRm32R32 (ov : Option SReg) (op : RM Reg) (r : Reg) (s : State) : Out :=
  settle s do
    let s' ← writeRM32 s ov op (s.reg r)
    return s'.jump (s.nextEip (.movRm32R32 ov op r))

/-- MOV r8, r/m8 (rule R312). -/
def execMovR8Rm8 (ov : Option SReg) (r : Reg8) (op : RM Reg8) (s : State) : Out :=
  settle s do
    let v ← readRM8 s ov op
    return (s.setReg8 r v).jump (s.nextEip (.movR8Rm8 ov r op))

/-- MOV r32, r/m32 (rule R313). -/
def execMovR32Rm32 (ov : Option SReg) (r : Reg) (op : RM Reg) (s : State) : Out :=
  settle s do
    let v ← readRM32 s ov op
    return (s.setReg r v).jump (s.nextEip (.movR32Rm32 ov r op))

/-- MOV r8, imm8 (rule R314). -/
def execMovR8Imm8 (ov : Option SReg) (r : Reg8) (imm : BitVec 8) (s : State) : Out :=
  .next ((s.setReg8 r imm).jump (s.nextEip (.movR8Imm8 ov r imm)))

/-- MOV r32, imm32 (rule R315). -/
def execMovR32Imm32 (ov : Option SReg) (r : Reg) (imm : BitVec 32) (s : State) : Out :=
  .next ((s.setReg r imm).jump (s.nextEip (.movR32Imm32 ov r imm)))

/-- MOV r/m8, imm8 (rule R316). -/
def execMovRm8Imm8 (ov : Option SReg) (op : RM Reg8) (imm : BitVec 8) (s : State) : Out :=
  settle s do
    let s' ← writeRM8 s ov op imm
    return s'.jump (s.nextEip (.movRm8Imm8 ov op imm))

/-- MOV r/m32, imm32 (rule R317). -/
def execMovRm32Imm32 (ov : Option SReg) (op : RM Reg) (imm : BitVec 32) (s : State) : Out :=
  settle s do
    let s' ← writeRM32 s ov op imm
    return s'.jump (s.nextEip (.movRm32Imm32 ov op imm))

/-- LEA (rule R320): the effective address, with no check and no access; an override changes nothing. -/
def execLea (ov : Option SReg) (r : Reg) (m : MemRef) (s : State) : Out :=
  .next ((s.setReg r (s.ea m)).jump (s.nextEip (.lea ov r m)))

/-- `AddFlags(a, b)` with its result written to operand 2 (rules R322, R323): the write check comes before the flags. -/
def addToRM (s : State) (ov : Option SReg) (op : RM Reg) (b next : Word) : Res State := do
  let a ← readRM32 s ov op
  let s' ← writeRM32 s ov op (a + b)
  return (s'.setFlags (addFlags s.eflags a b)).jump next

/-- ADD r/m32, r32 (rule R323). -/
def execAddRm32R32 (ov : Option SReg) (op : RM Reg) (r : Reg) (s : State) : Out :=
  settle s (addToRM s ov op (s.reg r) (s.nextEip (.addRm32R32 ov op r)))

/-- ADD r32, r/m32 (rule R324). -/
def execAddR32Rm32 (ov : Option SReg) (r : Reg) (op : RM Reg) (s : State) : Out :=
  settle s do
    let b ← readRM32 s ov op
    let s' := (s.setReg r (s.reg r + b)).setFlags (addFlags s.eflags (s.reg r) b)
    return s'.jump (s.nextEip (.addR32Rm32 ov r op))

/-- ADD r/m32, imm32 (rule R325). -/
def execAddRm32Imm32 (ov : Option SReg) (op : RM Reg) (imm : BitVec 32) (s : State) : Out :=
  settle s (addToRM s ov op imm (s.nextEip (.addRm32Imm32 ov op imm)))

/-- ADD r/m32, imm8, sign-extended (rule R326). -/
def execAddRm32Imm8 (ov : Option SReg) (op : RM Reg) (imm : BitVec 8) (s : State) : Out :=
  settle s (addToRM s ov op (imm.signExtend 32) (s.nextEip (.addRm32Imm8 ov op imm)))

/-- NOP (rule R330). -/
def execNop (ov : Option SReg) (s : State) : Out := .next (s.jump (s.nextEip (.nop ov)))

end Sys2Proof.Machine
end

