-- ==== Sys2Proof/Machine/Control.lean ====
section
/-! DEFINITION. The control transfers JMP, CALL and RET (spec/42_control_transfer.md, rules R240 to R258). -/

namespace Sys2Proof.Machine

open Sys2Proof

/-- `pc <- target` after the target check (rule R240). -/
def nearJump (s : State) (target : Word) : Res State := do
  checkTarget s target
  return s.jump target

/-- A near CALL: the target check, then the push of the return address (rules R245, R246). -/
def nearCall (s : State) (target ret : Word) : Res State := do
  checkTarget s target
  let s' ← push32 s ret
  return s'.jump target

/-- A near RET that releases `extra` bytes more (rules R249, R250). -/
def nearRet (s : State) (extra : Word) : Res State := do
  let target ← segRead s .ss s.esp 4
  checkTarget s target
  return (s.setEsp (s.esp + 4 + extra)).jump target

/-- A far JMP (rules R243, R244). -/
def farJump (s : State) (off : Word) (sel : Half) : Res State := do
  let d ← farTarget s sel off
  let s' ← loadCS s sel d s.cpl
  return s'.jump off

/-- A far CALL: CS in a doubleword slot whose upper word is `any value`, then the return address (rules R247, R248). -/
def farCall (s : State) (off : Word) (sel : Half) (ret : Word) : Res State := do
  let d ← farTarget s sel off
  segCheck s .ss (s.esp - 8) 8 .write
  let s1 ← storeSelSlot s (s.esp - 4) s.segs.cs.sel
  let s2 ← segWrite s1 .ss (s.esp - 8) 4 ret
  let s3 ← loadCS (s2.setEsp (s.esp - 8)) sel d s.cpl
  return s3.jump off

/-- JMP rel8 (rules R154, R241). -/
def execJmpRel8 (ov : Option SReg) (rel : BitVec 8) (s : State) : Out :=
  settle s (nearJump s (s.nextEip (.jmpRel8 ov rel) + rel.signExtend 32))

/-- JMP rel32 (rules R154, R241). -/
def execJmpRel32 (ov : Option SReg) (rel : BitVec 32) (s : State) : Out :=
  settle s (nearJump s (s.nextEip (.jmpRel32 ov rel) + rel))

/-- JMP r/m32 (rules R206, R242). -/
def execJmpRm32 (ov : Option SReg) (op : RM Reg) (s : State) : Out :=
  settle s do
    let target ← readRM32 s ov op
    nearJump s target

/-- JMP m16:32 (rules R207, R243). -/
def execJmpM1632 (ov : Option SReg) (m : MemRef) (s : State) : Out :=
  settle s do
    let (off, sel) ← readFarPtr s ov m
    farJump s off sel

/-- JMP ptr16:32 (rule R244). -/
def execJmpPtr1632 (_ov : Option SReg) (off : BitVec 32) (sel : BitVec 16) (s : State) : Out :=
  settle s (farJump s off sel)

/-- CALL rel32 (rule R245). -/
def execCallRel32 (ov : Option SReg) (rel : BitVec 32) (s : State) : Out :=
  settle s (nearCall s (s.nextEip (.callRel32 ov rel) + rel) (s.nextEip (.callRel32 ov rel)))

/-- CALL r/m32 (rule R246): the operand is read with ESP as it was before the decrement. -/
def execCallRm32 (ov : Option SReg) (op : RM Reg) (s : State) : Out :=
  settle s do
    let target ← readRM32 s ov op
    nearCall s target (s.nextEip (.callRm32 ov op))

/-- CALL m16:32 (rule R247). -/
def execCallM1632 (ov : Option SReg) (m : MemRef) (s : State) : Out :=
  settle s do
    let (off, sel) ← readFarPtr s ov m
    farCall s off sel (s.nextEip (.callM1632 ov m))

/-- CALL ptr16:32 (rule R248). -/
def execCallPtr1632 (ov : Option SReg) (off : BitVec 32) (sel : BitVec 16) (s : State) : Out :=
  settle s (farCall s off sel (s.nextEip (.callPtr1632 ov off sel)))

/-- RET, near (rule R249). -/
def execRet (_ov : Option SReg) (s : State) : Out := settle s (nearRet s 0)

/-- RET imm16, near (rule R250). -/
def execRetImm16 (_ov : Option SReg) (imm : BitVec 16) (s : State) : Out := settle s (nearRet s (imm.setWidth 32))

/-- RET, far (rule R253). -/
def execRetFar (_ov : Option SReg) (s : State) : Out := settle s (farReturn s false 0)

/-- RET imm16, far (rule R254). -/
def execRetFarImm16 (_ov : Option SReg) (imm : BitVec 16) (s : State) : Out :=
  settle s (farReturn s false (imm.setWidth 32))

end Sys2Proof.Machine
end

