-- ==== Sys2Proof/Machine/Interrupt.lean ====
section
/-! DEFINITION. The interrupt instructions (spec/44_interrupt_instructions.md, rules R290 to R301). -/

namespace Sys2Proof.Machine

open Sys2Proof

/-- INT n (rule R290): any `n`; the saved EIP is the next instruction's (rule R372). -/
def execIntN (ov : Option SReg) (n : BitVec 8) (s : State) : Out :=
  settle s (deliver s .intN n none (s.nextEip (.intN ov n)))

/-- INT 3 (rule R291). -/
def execInt3 (ov : Option SReg) (s : State) : Out :=
  settle s (deliver s .int3 3 none (s.nextEip (.int3 ov)))

/-- INTO (rule R292): vector 4 if OF = 1. -/
def execInto (ov : Option SReg) (s : State) : Out :=
  settle s (if flag s.eflags bitOF then deliver s .into 4 none (s.nextEip (.into ov))
    else .ok (s.jump (s.nextEip (.into ov))))

/-- BOUND (rule R293): a signed comparison with both bounds inclusive; outside them vector 5. -/
def execBound (ov : Option SReg) (r : Reg) (m : MemRef) (s : State) : Out :=
  settle s do
    let lo ← readMem s ov m 0 4
    let hi ← readMem s ov m 4 4
    raiseIf (decide ((s.reg r).toInt < lo.toInt) || decide (hi.toInt < (s.reg r).toInt)) .br
    return s.jump (s.nextEip (.bound ov r m))

/-- IRET (rules R300, R301, R351): NT = 1 is a task return, which is refused; after it an NMI may be presented again. -/
def execIret (_ov : Option SReg) (s : State) : Out :=
  settle s do
    refuseIf (flag s.eflags bitNT) .taskReturn
    let s' ← farReturn s true 0
    return { s' with nmiBlocked := false }

end Sys2Proof.Machine
end

