-- ==== Sys2Proof/Machine/Stack.lean ====
section
/-! DEFINITION. The stack instructions (spec/41_stack.md, rules R219 to R229). -/

namespace Sys2Proof.Machine

open Sys2Proof

/-- PUSH r32 (rule R220): PUSH ESP pushes ESP as it was before the decrement (rule R204). -/
def execPushR32 (ov : Option SReg) (r : Reg) (s : State) : Out :=
  settle s do
    let s' ← push32 s (s.reg r)
    return s'.jump (s.nextEip (.pushR32 ov r))

/-- PUSH r/m32 (rule R221): the operand is read with ESP as it was before the decrement (rule R204). -/
def execPushRm32 (ov : Option SReg) (op : RM Reg) (s : State) : Out :=
  settle s do
    let v ← readRM32 s ov op
    let s' ← push32 s v
    return s'.jump (s.nextEip (.pushRm32 ov op))

/-- PUSH imm32 (rule R222). -/
def execPushImm32 (ov : Option SReg) (imm : BitVec 32) (s : State) : Out :=
  settle s do
    let s' ← push32 s imm
    return s'.jump (s.nextEip (.pushImm32 ov imm))

/-- PUSH imm8, sign-extended (rule R223). -/
def execPushImm8 (ov : Option SReg) (imm : BitVec 8) (s : State) : Out :=
  settle s do
    let s' ← push32 s (imm.signExtend 32)
    return s'.jump (s.nextEip (.pushImm8 ov imm))

/-- PUSH Sreg (rule R224): the selector in the low word of a doubleword slot, the upper word `any value`. -/
def pushSeg (s : State) (r : SReg) (next : Word) : Res State := do
  let t := s.esp - 4
  let s' ← storeSelSlot s t (s.seg r).sel
  return (s'.setEsp t).jump next

/-- PUSH ES (rule R224). -/
def execPushEs (ov : Option SReg) (s : State) : Out := settle s (pushSeg s .es (s.nextEip (.pushEs ov)))

/-- PUSH CS (rule R224). -/
def execPushCs (ov : Option SReg) (s : State) : Out := settle s (pushSeg s .cs (s.nextEip (.pushCs ov)))

/-- PUSH SS (rule R224). -/
def execPushSs (ov : Option SReg) (s : State) : Out := settle s (pushSeg s .ss (s.nextEip (.pushSs ov)))

/-- PUSH DS (rule R224). -/
def execPushDs (ov : Option SReg) (s : State) : Out := settle s (pushSeg s .ds (s.nextEip (.pushDs ov)))

/-- PUSH FS (rule R224). -/
def execPushFs (ov : Option SReg) (s : State) : Out := settle s (pushSeg s .fs (s.nextEip (.pushFs ov)))

/-- PUSH GS (rule R224). -/
def execPushGs (ov : Option SReg) (s : State) : Out := settle s (pushSeg s .gs (s.nextEip (.pushGs ov)))

/-- POP r32 (rule R225): POP ESP leaves ESP holding the popped value (rule R204). -/
def execPopR32 (ov : Option SReg) (r : Reg) (s : State) : Out :=
  settle s do
    let (v, s') ← pop32 s
    return (s'.setReg r v).jump (s.nextEip (.popR32 ov r))

/-- POP r/m32 (rule R226): the destination is found with ESP as it is after the increment and written, and ESP is written
last, so that a memory destination based on ESP uses the new ESP. DEDUCED, log entry 15: the register form of ESP (8F C4)
leaves ESP + 4, as the pseudocode says; rule R204 is read of POP r32. -/
def execPopRm32 (ov : Option SReg) (op : RM Reg) (s : State) : Out :=
  settle s do
    let (v, s1) ← pop32 s
    let s2 ← writeRM32 s1 ov op v
    return (s2.setEsp s1.esp).jump (s.nextEip (.popRm32 ov op))

/-- POP Sreg (rule R227): the upper word of the slot is discarded. -/
def popSeg (s : State) (r : SReg) (next : Word) : Res State := do
  let v ← segRead s .ss s.esp 4
  let s' ← loadSeg s r (v.extractLsb' 0 16)
  return (s'.setEsp (s.esp + 4)).jump next

/-- POP ES (rule R227). -/
def execPopEs (ov : Option SReg) (s : State) : Out := settle s (popSeg s .es (s.nextEip (.popEs ov)))

/-- POP SS (rules R227, R273): no interrupt is presented at the boundary after it. -/
def execPopSs (ov : Option SReg) (s : State) : Out :=
  settle s do
    let s' ← popSeg s .ss (s.nextEip (.popSs ov))
    return s'.inShadow

/-- POP DS (rule R227). -/
def execPopDs (ov : Option SReg) (s : State) : Out := settle s (popSeg s .ds (s.nextEip (.popDs ov)))

/-- POP FS (rule R227). -/
def execPopFs (ov : Option SReg) (s : State) : Out := settle s (popSeg s .fs (s.nextEip (.popFs ov)))

/-- POP GS (rule R227). -/
def execPopGs (ov : Option SReg) (s : State) : Out := settle s (popSeg s .gs (s.nextEip (.popGs ov)))

/-- The check of PUSHA's 32 bytes below `t`; a range that wraps below zero is checked as two pieces (rule R228). -/
def checkPushaRange (s : State) (t : Word) : Res Unit :=
  if t.toNat < 32 ∧ t ≠ 0 then do
    segCheck s .ss (t - 32) (32 - t.toNat) .write
    segCheck s .ss 0 t.toNat .write
  else segCheck s .ss (t - 32) 32 .write

/-- PUSHA (rule R228): EAX, ECX, EDX, EBX, the old ESP, EBP, ESI, EDI. -/
def execPusha (ov : Option SReg) (s : State) : Out :=
  settle s do
    let t := s.esp
    let g := s.regs
    checkPushaRange s t
    let s' ← storeDown s t [g.eax, g.ecx, g.edx, g.ebx, t, g.ebp, g.esi, g.edi]
    return (s'.setEsp (t - 32)).jump (s.nextEip (.pusha ov))

/-- POPA (rule R229): EDI, ESI, EBP, (the saved ESP is skipped), EBX, EDX, ECX, EAX. -/
def execPopa (ov : Option SReg) (s : State) : Out :=
  settle s do
    let t := s.esp
    segCheck s .ss t 32 .read
    let edi ← segRead s .ss t 4
    let esi ← segRead s .ss (t + 4) 4
    let ebp ← segRead s .ss (t + 8) 4
    let ebx ← segRead s .ss (t + 16) 4
    let edx ← segRead s .ss (t + 20) 4
    let ecx ← segRead s .ss (t + 24) 4
    let eax ← segRead s .ss (t + 28) 4
    let g : Regs :=
      { eax := eax, ecx := ecx, edx := edx, ebx := ebx, esp := t + 32, ebp := ebp, esi := esi, edi := edi }
    return { s with regs := g, eip := s.nextEip (.popa ov) }

end Sys2Proof.Machine
end

