-- ==== Sys2Proof/Machine/System.lean ====
section
/-! DEFINITION. Segment-register and system-register instructions (spec/43_segment_system.md, rules R270 to R281). -/

namespace Sys2Proof.Machine

open Sys2Proof

/-- MOV Sreg, r/m16 (rules R270, R273): no interrupt is presented at the boundary after a load of SS. -/
def execMovSregRm16 (ov : Option SReg) (sr : SReg) (op : RM Reg) (s : State) : Out :=
  settle s do
    let v ← readRM16 s ov op
    let s' ← loadSeg s sr v
    let s' := s'.jump (s.nextEip (.movSregRm16 ov sr op))
    return if sr = .ss then s'.inShadow else s'

/-- A selector stored in operand 2: two bytes of memory, or a register whose upper 16 bits become `any value` (rule R271). -/
def storeSelector (s : State) (ov : Option SReg) (op : RM Reg) (sel : Half) : Res State :=
  match op with
  | .reg r => .ok (s.freeHalf.2.setReg r (s.freeHalf.1 ++ sel))
  | .mem m => writeRM16 s ov (.mem m) sel

/-- MOV r/m16, Sreg (rule R271). -/
def execMovRm16Sreg (ov : Option SReg) (op : RM Reg) (sr : SReg) (s : State) : Out :=
  settle s do
    let s' ← storeSelector s ov op (s.seg sr).sel
    return s'.jump (s.nextEip (.movRm16Sreg ov op sr))

/-- LGDT (rules R275, R276). -/
def execLgdt (ov : Option SReg) (m : MemRef) (s : State) : Out :=
  settle s do
    raiseIf (decide (s.cpl ≠ 0)) (.gp 0)
    let t ← readTableOperand s ov m
    return { s with gdtr := t, eip := s.nextEip (.lgdt ov m) }

/-- LIDT (rules R275, R277). -/
def execLidt (ov : Option SReg) (m : MemRef) (s : State) : Out :=
  settle s do
    raiseIf (decide (s.cpl ≠ 0)) (.gp 0)
    let t ← readTableOperand s ov m
    return { s with idtr := t, eip := s.nextEip (.lidt ov m) }

/-- `ltr_busy_rule = hardware` (rule R278). -/
def hardwareBusy (c : Config) : Bool := decide (c.ltrBusyRule = .hardware)

/-- TR after LTR has loaded `sel` from the TSS descriptor `d` (rule R278). -/
def taskRegOf (sel : Half) (d : BitVec 64) : TaskReg where
  sel := sel
  base := descBase d
  limit := descLimit d
  g := descG d
  p := descP d
  dpl := descDpl d
  b := true
  valid := true

/-- The TSS descriptor marked busy in memory, under `ltr_busy_rule = hardware` (rule R278). -/
def markBusy (s : State) (sel : Half) : Res State :=
  if hardwareBusy s.cfg then orAccessByte s sel 0x02 else .ok s

/-- LTR's load of TR (rule R278). -/
def loadTask (s : State) (sel : Half) : Res State := do
  raiseIf (isNull sel) (.gp 0)
  let d ← readDesc s sel
  raiseIf (decide (descKind d ≠ .tss)) (.gp (selCode sel))
  raiseIf (hardwareBusy s.cfg && descRW d) (.gp (selCode sel))
  raiseIf (!descP d) (.np (selCode sel))
  let s' ← markBusy s sel
  return { s' with tr := taskRegOf sel d }

/-- LTR (rules R275, R278). -/
def execLtr (ov : Option SReg) (op : RM Reg) (s : State) : Out :=
  settle s do
    raiseIf (decide (s.cpl ≠ 0)) (.gp 0)
    let sel ← readRM16 s ov op
    let s' ← loadTask s sel
    return s'.jump (s.nextEip (.ltr ov op))

/-- CLI (rule R280). -/
def execCli (ov : Option SReg) (s : State) : Out :=
  settle s do
    raiseIf (decide (iopl s.eflags < s.cpl)) (.gp 0)
    return (s.setFlags (setFlag s.eflags bitIF false)).jump (s.nextEip (.cli ov))

/-- STI (rule R281): no interrupt is presented at the boundary after it. -/
def execSti (ov : Option SReg) (s : State) : Out :=
  settle s do
    raiseIf (decide (iopl s.eflags < s.cpl)) (.gp 0)
    return ((s.setFlags (setFlag s.eflags bitIF true)).jump (s.nextEip (.sti ov))).inShadow

end Sys2Proof.Machine
end

