-- ==== Sys2Proof/Machine/Dispatch.lean ====
section
/-! DEFINITION. One arm per instruction of spec/opcode_table.json, each one call of its meaning. -/

namespace Sys2Proof.Machine

/-- What an instruction does to a state. -/
def exec (i : Instr) (s : State) : Host.Outcome State Fault Refusal :=
  match i with
  | .pushR32 ov r => Sys2Proof.Machine.execPushR32 ov r s
  | .pushRm32 ov op => Sys2Proof.Machine.execPushRm32 ov op s
  | .pushImm32 ov imm => Sys2Proof.Machine.execPushImm32 ov imm s
  | .pushImm8 ov imm => Sys2Proof.Machine.execPushImm8 ov imm s
  | .pushEs ov => Sys2Proof.Machine.execPushEs ov s
  | .pushCs ov => Sys2Proof.Machine.execPushCs ov s
  | .pushSs ov => Sys2Proof.Machine.execPushSs ov s
  | .pushDs ov => Sys2Proof.Machine.execPushDs ov s
  | .pushFs ov => Sys2Proof.Machine.execPushFs ov s
  | .pushGs ov => Sys2Proof.Machine.execPushGs ov s
  | .popR32 ov r => Sys2Proof.Machine.execPopR32 ov r s
  | .popRm32 ov op => Sys2Proof.Machine.execPopRm32 ov op s
  | .popEs ov => Sys2Proof.Machine.execPopEs ov s
  | .popSs ov => Sys2Proof.Machine.execPopSs ov s
  | .popDs ov => Sys2Proof.Machine.execPopDs ov s
  | .popFs ov => Sys2Proof.Machine.execPopFs ov s
  | .popGs ov => Sys2Proof.Machine.execPopGs ov s
  | .pusha ov => Sys2Proof.Machine.execPusha ov s
  | .popa ov => Sys2Proof.Machine.execPopa ov s
  | .jmpRel8 ov rel => Sys2Proof.Machine.execJmpRel8 ov rel s
  | .jmpRel32 ov rel => Sys2Proof.Machine.execJmpRel32 ov rel s
  | .jmpRm32 ov op => Sys2Proof.Machine.execJmpRm32 ov op s
  | .jmpM1632 ov m => Sys2Proof.Machine.execJmpM1632 ov m s
  | .jmpPtr1632 ov off sel => Sys2Proof.Machine.execJmpPtr1632 ov off sel s
  | .callRel32 ov rel => Sys2Proof.Machine.execCallRel32 ov rel s
  | .callRm32 ov op => Sys2Proof.Machine.execCallRm32 ov op s
  | .callM1632 ov m => Sys2Proof.Machine.execCallM1632 ov m s
  | .callPtr1632 ov off sel => Sys2Proof.Machine.execCallPtr1632 ov off sel s
  | .ret ov => Sys2Proof.Machine.execRet ov s
  | .retImm16 ov imm => Sys2Proof.Machine.execRetImm16 ov imm s
  | .retFar ov => Sys2Proof.Machine.execRetFar ov s
  | .retFarImm16 ov imm => Sys2Proof.Machine.execRetFarImm16 ov imm s
  | .movSregRm16 ov sr op => Sys2Proof.Machine.execMovSregRm16 ov sr op s
  | .movRm16Sreg ov op sr => Sys2Proof.Machine.execMovRm16Sreg ov op sr s
  | .lgdt ov m => Sys2Proof.Machine.execLgdt ov m s
  | .lidt ov m => Sys2Proof.Machine.execLidt ov m s
  | .ltr ov op => Sys2Proof.Machine.execLtr ov op s
  | .cli ov => Sys2Proof.Machine.execCli ov s
  | .sti ov => Sys2Proof.Machine.execSti ov s
  | .intN ov n => Sys2Proof.Machine.execIntN ov n s
  | .int3 ov => Sys2Proof.Machine.execInt3 ov s
  | .into ov => Sys2Proof.Machine.execInto ov s
  | .bound ov r m => Sys2Proof.Machine.execBound ov r m s
  | .iret ov => Sys2Proof.Machine.execIret ov s
  | .movRm8R8 ov op r => Sys2Proof.Machine.execMovRm8R8 ov op r s
  | .movRm32R32 ov op r => Sys2Proof.Machine.execMovRm32R32 ov op r s
  | .movR8Rm8 ov r op => Sys2Proof.Machine.execMovR8Rm8 ov r op s
  | .movR32Rm32 ov r op => Sys2Proof.Machine.execMovR32Rm32 ov r op s
  | .movR8Imm8 ov r imm => Sys2Proof.Machine.execMovR8Imm8 ov r imm s
  | .movR32Imm32 ov r imm => Sys2Proof.Machine.execMovR32Imm32 ov r imm s
  | .movRm8Imm8 ov op imm => Sys2Proof.Machine.execMovRm8Imm8 ov op imm s
  | .movRm32Imm32 ov op imm => Sys2Proof.Machine.execMovRm32Imm32 ov op imm s
  | .lea ov r m => Sys2Proof.Machine.execLea ov r m s
  | .addRm32R32 ov op r => Sys2Proof.Machine.execAddRm32R32 ov op r s
  | .addR32Rm32 ov r op => Sys2Proof.Machine.execAddR32Rm32 ov r op s
  | .addRm32Imm32 ov op imm => Sys2Proof.Machine.execAddRm32Imm32 ov op imm s
  | .addRm32Imm8 ov op imm => Sys2Proof.Machine.execAddRm32Imm8 ov op imm s
  | .nop ov => Sys2Proof.Machine.execNop ov s

end Sys2Proof.Machine
end

