-- ==== Sys2Proof/Machine/External.lean ====
section
/-! DEFINITION. Hardware interrupts at an instruction boundary (rules R350 to R353, R362), and the launch of a run
(rule R421). -/

namespace Sys2Proof.Machine

open Sys2Proof

/-- True of an INTR request. -/
def isIntr : Request → Bool
  | .intr _ => true
  | .nmi => false

/-- The request that a boundary accepts out of those waiting there, and the ones left: an NMI first (rules R353, R362), else
an INTR if IF = 1 (rule R352). -/
def selectRequest (nmiOk ifOn : Bool) (waiting : List Request) : Option (Request × List Request) :=
  if nmiOk && waiting.contains .nmi then some (.nmi, waiting.erase .nmi)
  else if ifOn then (waiting.find? isIntr).map (fun r => (r, waiting.erase r))
  else none

/-- Requests that were not accepted wait for the next boundary (rule R351: an INTR is presented again, not lost). -/
def carryOver (waiting : List Request) (coming : List (List Request)) : List (List Request) :=
  if waiting = [] then coming
  else match coming with
    | [] => [waiting]
    | g :: t => (waiting ++ g) :: t

/-- DESIGN CHOICE, log entry 12. The instruction boundary: what the oracle presents there, and the state with that request
consumed. Nothing is presented after a load of SS or after STI; no NMI is presented between an NMI and the next IRET; what
is not accepted waits (rule R351). -/
def boundary (s : State) : Option Request × State :=
  match s.oracle with
  | [] => (none, { s with shadow := false })
  | waiting :: coming =>
    match if s.shadow then none else selectRequest (!s.nmiBlocked) (flag s.eflags bitIF) waiting with
    | some (r, rest) => (some r, { s with shadow := false, oracle := carryOver rest coming })
    | none => (none, { s with shadow := false, oracle := carryOver waiting coming })

/-- Acceptance of INTR and NMI: the saved EIP is that of the instruction that would have executed next
(rules R352, R353, R372). -/
def acceptRequest (s : State) (r : Request) : Out :=
  match r with
  | .intr v => deliverOrStop s .external v none s.eip
  | .nmi => deliverOrStop { s with nmiBlocked := true } .external 2 none s.eip

/-! ### Launch (rule R421) -/

/-- TI = 0 (premise L5). -/
def tiClear (sel : Half) : Bool := !sel.getLsbD 2

/-- Premises L1 and L2: CS holds a present 32-bit non-conforming code segment, and its selector carries CPL. -/
def launchCS (s : State) : Bool :=
  let c := s.segs.cs.cache
  c.valid && decide (c.kind = .code) && c.p && c.db && !c.ce
    && (!hardwareRpl s.cfg || decide (s.segs.cs.sel.extractLsb' 0 2 = s.cpl)) && tiClear s.segs.cs.sel

/-- Premise L3: SS holds a present writable data segment with B = 1 and DPL = CPL, through a selector that is not null. -/
def launchSS (s : State) : Bool :=
  let c := s.segs.ss.cache
  c.valid && decide (c.kind = .data) && c.p && c.rw && c.db && decide (c.priv = s.cpl) && !isNull s.segs.ss.sel
    && tiClear s.segs.ss.sel

/-- Premise L4 for one of DS, ES, FS, GS. -/
def launchData (cpl : Level) (r : SegReg) : Bool :=
  (isNull r.sel && !r.cache.valid ||
    r.cache.valid && r.cache.p && (decide (r.cache.kind = .data) || r.cache.rw) && decide (cpl ≤ r.cache.priv))
    && tiClear r.sel

/-- Premise L6: the fixed bits of EFLAGS, and VM, NT, TF and RF clear. -/
def launchFlags (f : Word) : Bool := decide (f &&& 0xFFFFC12A#32 = 0x00000002)

/-- Premise L8 and TR's part of L5: TR holds no TSS, or a present one. -/
def launchTask (t : TaskReg) : Bool := (!t.valid || t.p) && tiClear t.sel

/-- The launch premises of rule R421 that are about the state. -/
def launchOk (s : State) : Bool :=
  launchCS s && launchSS s && launchData s.cpl s.segs.es && launchData s.cpl s.segs.ds
    && launchData s.cpl s.segs.fs && launchData s.cpl s.segs.gs && launchFlags s.eflags && launchTask s.tr

/-- A launch: a state that breaks a premise is refused, not run (rule R421). -/
def launch (s : State) : Out := if launchOk s then .next s else .refused .launchPremise

end Sys2Proof.Machine
end

