-- ==== Sys2Proof/Machine/Fetch.lean ====
section
/-! DEFINITION. Instruction fetch (rules R24, R25, R97, R123) and the placing of an instruction where it is fetched. -/

namespace Sys2Proof.Machine

open Sys2Proof

/-- Byte `k` of the instruction at EIP (rule R97): offsets past FFFFFFFFh are refused (rule R25), each byte is checked
against the limit of CS (rule R90), and a byte the run has written is refused (rule R123). -/
def fetchByte (s : State) (k : Nat) : Res Byte := do
  refuseIf (decide (2 ^ 32 ≤ s.eip.toNat + k)) .fetchPastEnd
  let off := s.eip + BitVec.ofNat 32 k
  segCheck s .cs off 1 .fetch
  let a ← physAddr s.cfg (s.linear .cs off)
  refuseIf (s.written.contains a) .fetchOfWrittenByte
  return s.byteAt a

/-- Up to `n` bytes from byte `k` on: those before the first byte that cannot be fetched, and why that one cannot. -/
def fetchWindow (s : State) : (n k : Nat) → List Byte × Option Abort
  | 0, _ => ([], none)
  | n + 1, k =>
    match fetchByte s k with
    | .error a => ([], some a)
    | .ok b => (b :: (fetchWindow s n (k + 1)).1, (fetchWindow s n (k + 1)).2)

/-- The instruction at EIP. Only the bytes that belong to it can make its fetch fail: a byte that cannot be fetched matters
where decoding needs it (rules R97, R131, R362). CS must be a 32-bit code segment (rules R83, R162). -/
def fetchInstr (s : State) : Res Instr := do
  refuseIf (!s.segs.cs.cache.db) .codeSegment16
  let w := fetchWindow s maxLength 0
  match decode w.1 with
  | .ok (i, _) => return i
  | .error (.bad why) => .error (.refuse (.undecodable why))
  | .error .truncated => .error (w.2.getD (.refuse .fetchPastEnd))

/-- Bytes put at a linear address from outside the run: memory holds them, and they do not count as written by the run. -/
def placeBytes (s : State) (lin : Word) : List Byte → State
  | [] => s
  | b :: bs =>
    let s' := match physAddr s.cfg lin with
      | .ok a => { s with mem := Memory.write s.mem a b, written := s.written.filter (fun x => decide (x ≠ a)) }
      | .error _ => s
    placeBytes s' (lin + 1) bs

end Sys2Proof.Machine
end

