-- ==== Sys2Proof/Machine/Step.lean ====
section
/-! DEFINITION. One step of the machine. -/

namespace Sys2Proof.Machine

open Sys2Proof

/-- One step, from one instruction boundary to the next. A run with TF or VM set is refused (rules R403, R27); at `stop_eip`
the run has ended and the state stays (rule R425, log entry 13); a hardware interrupt that the boundary accepts is delivered
(rules R352, R353); otherwise the instruction at EIP is fetched and executed, and a fault of the fetch is taken as an
exception at that instruction (rules R360, R362). DEDUCED, log entry 16: the flags are tested before `stop_eip`, so a run
whose IRET sets TF and lands on `stop_eip` is refused there and does not end normally. -/
def step (s : State) : Host.Outcome State Fault Refusal :=
  if flag s.eflags bitTF then .refused .singleStep
  else if flag s.eflags bitVM then .refused .virtual8086
  else if s.cfg.stopEip = some s.eip then .next s
  else match boundary s with
    | (some r, s') => acceptRequest s' r
    | (none, s') =>
      match fetchInstr s' with
      | .ok i => exec i s'
      | .error a => settle s' (.error a)

/-- The state with the instruction of an opcode-table word where the next step fetches: at CS:EIP. -/
def State.withFetchWord (s : State) (nbits w : Nat) : State :=
  placeBytes s (s.linear .cs s.eip) (tableBytes nbits w)

end Sys2Proof.Machine
end

