-- ==== Sys2Proof/Safety.lean ====
section
/-! DEFINITION. What counts as a sound state, and the terms that claims are stated in: which accesses are possible, what a
store leaves unchanged, and the invariants of the machine. -/

namespace Sys2Proof.Machine

open Sys2Proof

/-! ### Accesses -/

/-- Every one of the `n` bytes from a linear address up has a translation and memory behind it (rules R69, R70). -/
def backed (s : State) (lin : Word) : Nat → Bool
  | 0 => true
  | n + 1 => (match physAddr s.cfg lin with
    | .ok _ => true
    | .error _ => false) && backed s (lin + 1) n

/-- The physical address `a` is one of those of the `n` bytes from a linear address up. -/
def storedAt (s : State) (lin : Word) : Nat → Nat → Bool
  | 0, _ => false
  | n + 1, a => (match physAddr s.cfg lin with
    | .ok p => decide (p = a)
    | .error _ => false) || storedAt s (lin + 1) n a

/-- The program may write the `n` bytes at an offset of a segment: the limit and rights check passes (rule R90) and there
is memory behind them. -/
def Writable (s : State) (r : SReg) (off : Word) (n : Nat) : Prop :=
  segCheck s r off n .write = .ok () ∧ backed s (s.linear r off) n = true

/-- The program may read the `n` bytes at an offset of a segment. -/
def Readable (s : State) (r : SReg) (off : Word) (n : Nat) : Prop :=
  segCheck s r off n .read = .ok () ∧ backed s (s.linear r off) n = true

/-- Memory reads the same everywhere. -/
def SameMemory (s t : State) : Prop := ∀ a, t.byteAt a = s.byteAt a

/-- Memory reads the same at every address but those of the `n` bytes from the linear address `lin` up. -/
def SameMemoryBut (s t : State) (lin : Word) (n : Nat) : Prop :=
  ∀ a, storedAt s lin n a = false → t.byteAt a = s.byteAt a

/-- The record of written addresses has gained exactly those of the `n` bytes from `lin` up (rule R123). -/
def Recorded (s t : State) (lin : Word) (n : Nat) : Prop :=
  ∀ a, a ∈ t.written ↔ a ∈ s.written ∨ storedAt s lin n a = true

/-- After: the `n` bytes at `lin` hold `v`, every other byte reads as before, and those bytes count as written. -/
def Stored (s t : State) (lin : Word) (n : Nat) (v : BitVec (8 * n)) : Prop :=
  linRead t lin n = .ok v ∧ SameMemoryBut s t lin n ∧ Recorded s t lin n

/-- The doublewords from a linear address up, the first one lowest. -/
def HoldsDwords (s : State) (lin : Word) : List Word → Prop
  | [] => True
  | v :: vs => linRead s lin 4 = .ok v ∧ HoldsDwords s (lin + 4) vs

/-- After: these doublewords stand from `lin` up, every byte outside them reads as before, and they count as written. -/
def StoredDwords (s t : State) (lin : Word) (vs : List Word) : Prop :=
  HoldsDwords t lin vs ∧ SameMemoryBut s t lin (4 * vs.length) ∧ Recorded s t lin (4 * vs.length)

/-- Nothing but memory (and the record of which addresses the run has written) differs. -/
def OnlyMem (s t : State) : Prop := t = { s with mem := t.mem, written := t.written }

/-- After: the byte at a linear address has gained the bits of a mask, and nothing else differs. -/
def ByteOred (s t : State) (lin : Word) (mask : Byte) : Prop :=
  ∃ b : Byte, linRead s lin 1 = .ok b ∧ Stored s t lin 1 (b ||| mask) ∧ OnlyMem s t

/-- After `SetAccessed(sel, d)`: bit 0 of byte 5 of the descriptor in memory is set, if `d` had it clear (rule R103). -/
def Accessed (s t : State) (sel : Half) (d : BitVec 64) : Prop :=
  if descA d then t = s else ByteOred s t (descAddr s sel + 5) 1

/-! ### What the rules ask of descriptors -/

/-- `LoadSeg` brings `d` for the selector `sel` into DS, ES, FS or GS (rule R100). -/
def DataLoadable (s : State) (sel : Half) (d : BitVec 64) : Prop :=
  isNull sel = false ∧ readDesc s sel = .ok d ∧ (descKind d = .data ∨ descKind d = .code ∧ descRW d = true)
    ∧ (descKind d = .data ∨ descCE d = false → s.cpl ≤ descDpl d ∧ rplOf s.cfg sel ≤ descDpl d) ∧ descP d = true

/-- `LoadSeg` brings `d` for the selector `sel` into SS (rule R100). -/
def StackLoadable (s : State) (sel : Half) (d : BitVec 64) : Prop :=
  isNull sel = false ∧ readDesc s sel = .ok d ∧ (hardwareRpl s.cfg = true → rplOf s.cfg sel = s.cpl)
    ∧ descKind d = .data ∧ descRW d = true ∧ descDpl d = s.cpl ∧ descP d = true ∧ descDB d = true

/-- A far JMP or CALL may go to `sel`:`off`, a 32-bit code segment of the current level (rules R252, R104). -/
def FarTargetOk (s : State) (sel : Half) (off : Word) (d : BitVec 64) : Prop :=
  isNull sel = false ∧ readDesc s sel = .ok d ∧ descKind d = .code ∧ descCE d = false ∧ descDpl d = s.cpl
    ∧ (hardwareRpl s.cfg = true → rplOf s.cfg sel ≤ s.cpl) ∧ descP d = true
    ∧ off ≤ effLimit (descLimit d) (descG d) ∧ descDB d = true

/-- A far RET or IRET may return to level `lvl` at `sel`:`off` (rules R256, R104). -/
def ReturnTargetOk (s : State) (sel : Half) (off : Word) (d : BitVec 64) (lvl : Level) : Prop :=
  isNull sel = false ∧ readDesc s sel = .ok d ∧ descKind d = .code ∧ descCE d = false
    ∧ (if hardwareRpl s.cfg then lvl = sel.extractLsb' 0 2 else lvl = descDpl d) ∧ s.cpl ≤ lvl ∧ descDpl d = lvl
    ∧ descP d = true ∧ off ≤ effLimit (descLimit d) (descG d) ∧ descDB d = true

/-- The segment `sel` with the descriptor `d` may be the stack of level `lvl`, after a return outward or an entry inward
(rules R256, R374). -/
def ReturnStackOk (s : State) (lvl : Level) (sel : Half) (d : BitVec 64) : Prop :=
  isNull sel = false ∧ readDesc s sel = .ok d ∧ (hardwareRpl s.cfg = true → rplOf s.cfg sel = lvl)
    ∧ descKind d = .data ∧ descRW d = true ∧ descDpl d = lvl ∧ descP d = true ∧ descDB d = true

/-- The selector that CS shows after `LoadCS` (rule R104). -/
def csSelector (c : Config) (sel : Half) (lvl : Level) : Half :=
  if hardwareRpl c then sel.extractLsb' 2 14 ++ lvl else sel

/-- CS after `LoadCS` (rule R104). -/
def loadedCS (c : Config) (sel : Half) (d : BitVec 64) (lvl : Level) : SegReg :=
  { sel := csSelector c sel lvl, cache := cacheOf d lvl }

/-- LTR may load TR from the descriptor `d` of `sel` (rule R278). -/
def TaskLoadable (s : State) (sel : Half) (d : BitVec 64) : Prop :=
  isNull sel = false ∧ readDesc s sel = .ok d ∧ descKind d = .tss ∧ (s.cfg.ltrBusyRule = .hardware → descRW d = false)
    ∧ descP d = true

/-! ### What the rules raise on descriptors -/

/-- The descriptor of a selector with TI = 0 does not end inside the GDT limit (rule R85). -/
def BeyondGdt (s : State) (sel : Half) : Prop :=
  sel.getLsbD 2 = false ∧ s.gdtr.limit.toNat < (sel &&& 0xFFF8).toNat + 7

/-- The selector is not null, and either its descriptor lies beyond the GDT limit, which raises GP(selector), or it reads as
`d` and `P d x` says what is raised (rules R85, R100). -/
def DescRaises (s : State) (sel : Half) (x : Exc) (P : BitVec 64 → Prop) : Prop :=
  isNull sel = false ∧ (BeyondGdt s sel ∧ x = .gp (selCode sel) ∨ ∃ d, readDesc s sel = .ok d ∧ P d)

/-- `LoadSeg` of SS raises `x` (rule R100): a null selector, one whose RPL is not CPL, a descriptor that is not a writable
data segment of DPL CPL, or an absent one. -/
def StackLoadRaises (s : State) (sel : Half) (x : Exc) : Prop :=
  isNull sel = true ∧ x = .gp 0 ∨ DescRaises s sel x fun d =>
    let good := (hardwareRpl s.cfg = true → rplOf s.cfg sel = s.cpl) ∧ descKind d = .data ∧ descRW d = true
      ∧ descDpl d = s.cpl
    ¬good ∧ x = .gp (selCode sel) ∨ good ∧ descP d = false ∧ x = .ss (selCode sel)

/-- `LoadSeg` of DS, ES, FS or GS raises `x` (rule R100): a descriptor that is neither data nor readable code, one (but for
conforming code) whose DPL is below CPL or RPL, or an absent one. -/
def DataLoadRaises (s : State) (sel : Half) (x : Exc) : Prop :=
  DescRaises s sel x fun d =>
    let good := (descKind d = .data ∨ descKind d = .code ∧ descRW d = true)
      ∧ (descKind d = .data ∨ descCE d = false → s.cpl ≤ descDpl d ∧ rplOf s.cfg sel ≤ descDpl d)
    ¬good ∧ x = .gp (selCode sel) ∨ good ∧ descP d = false ∧ x = .np (selCode sel)

/-- `FarTarget` raises `x` (rule R252): a null selector, a data segment, a code segment of another level or one that the RPL
may not name, an absent one, or an offset beyond the limit. -/
def FarTargetRaises (s : State) (sel : Half) (off : Word) (x : Exc) : Prop :=
  isNull sel = true ∧ x = .gp 0 ∨ DescRaises s sel x fun d =>
    let good := descDpl d = s.cpl ∧ (hardwareRpl s.cfg = true → rplOf s.cfg sel ≤ s.cpl)
    descKind d = .data ∧ x = .gp (selCode sel)
      ∨ descKind d = .code ∧ descCE d = false ∧ (¬good ∧ x = .gp (selCode sel)
        ∨ good ∧ (descP d = false ∧ x = .np (selCode sel)
          ∨ descP d = true ∧ effLimit (descLimit d) (descG d) < off ∧ x = .gp 0))

/-- `FarReturn` raises `x` on its CS image (rule R256): a null selector, no code segment, a level more privileged than CPL or
other than the segment's, an absent segment, or an offset beyond the limit. -/
def ReturnTargetRaises (s : State) (sel : Half) (off : Word) (x : Exc) : Prop :=
  isNull sel = true ∧ x = .gp 0 ∨ DescRaises s sel x fun d =>
    let lvl := if hardwareRpl s.cfg then sel.extractLsb' 0 2 else descDpl d
    let good := s.cpl ≤ lvl ∧ descDpl d = lvl
    descKind d ≠ .code ∧ x = .gp (selCode sel)
      ∨ descKind d = .code ∧ descCE d = false ∧ (¬good ∧ x = .gp (selCode sel)
        ∨ good ∧ (descP d = false ∧ x = .np (selCode sel)
          ∨ descP d = true ∧ effLimit (descLimit d) (descG d) < off ∧ x = .gp 0))

/-- `FarReturn` raises `x` on the SS image of a return to the outer level `lvl` (rule R256). -/
def ReturnStackRaises (s : State) (lvl : Level) (sel : Half) (x : Exc) : Prop :=
  isNull sel = true ∧ x = .gp 0 ∨ DescRaises s sel x fun d =>
    let good := (hardwareRpl s.cfg = true → rplOf s.cfg sel = lvl) ∧ descKind d = .data ∧ descRW d = true ∧ descDpl d = lvl
    ¬good ∧ x = .gp (selCode sel) ∨ good ∧ descP d = false ∧ x = .ss (selCode sel)

/-- LTR raises `x` (rule R278): a null selector, no 32-bit TSS, a busy one where the hardware's rule holds, or an absent
one. -/
def TaskLoadRaises (s : State) (sel : Half) (x : Exc) : Prop :=
  isNull sel = true ∧ x = .gp 0 ∨ DescRaises s sel x fun d =>
    let good := descKind d = .tss ∧ (s.cfg.ltrBusyRule = .hardware → descRW d = false)
    ¬good ∧ x = .gp (selCode sel) ∨ good ∧ descP d = false ∧ x = .np (selCode sel)

/-! ### What instructions read and write -/

/-- What the instruction reads of its memory operand `m` before anything else: displacements and sizes, in order (rules
R190, R207, R270 to R278, R293, R312 to R326). -/
def OperandReads (i : Instr) (ov : Option SReg) (m : MemRef) (reads : List (Word × Nat)) : Prop :=
  (reads = [(0, 4)] ∧ (i = .pushRm32 ov (.mem m) ∨ i = .jmpRm32 ov (.mem m) ∨ i = .callRm32 ov (.mem m)
    ∨ (∃ r, i = .movR32Rm32 ov r (.mem m) ∨ i = .addR32Rm32 ov r (.mem m) ∨ i = .addRm32R32 ov (.mem m) r)
    ∨ (∃ v, i = .addRm32Imm32 ov (.mem m) v) ∨ ∃ v, i = .addRm32Imm8 ov (.mem m) v))
  ∨ (reads = [(0, 2)] ∧ (i = .ltr ov (.mem m) ∨ ∃ r, i = .movSregRm16 ov r (.mem m)))
  ∨ (reads = [(0, 1)] ∧ ∃ r, i = .movR8Rm8 ov r (.mem m))
  ∨ (reads = [(0, 4), (4, 2)] ∧ (i = .jmpM1632 ov m ∨ i = .callM1632 ov m))
  ∨ (reads = [(0, 4), (4, 4)] ∧ ∃ r, i = .bound ov r m)
  ∨ (reads = [(0, 2), (2, 4)] ∧ (i = .lgdt ov m ∨ i = .lidt ov m))

/-- LGDT, LIDT and LTR, which only level 0 may execute (rule R275). -/
def Privileged (i : Instr) : Prop :=
  (∃ ov m, i = .lgdt ov m ∨ i = .lidt ov m) ∨ ∃ ov op, i = .ltr ov op

/-- The instruction writes `n` bytes of its memory operand `m`, which (but for ADD) it has not read (rules R271, R310, R311,
R316, R317, R323). -/
def OperandWrite (s : State) (i : Instr) (ov : Option SReg) (m : MemRef) (n : Nat) : Prop :=
  (n = 1 ∧ ((∃ r, i = .movRm8R8 ov (.mem m) r) ∨ ∃ v, i = .movRm8Imm8 ov (.mem m) v))
  ∨ (n = 2 ∧ ∃ r, i = .movRm16Sreg ov (.mem m) r)
  ∨ (n = 4 ∧ ((∃ r, i = .movRm32R32 ov (.mem m) r) ∨ (∃ v, i = .movRm32Imm32 ov (.mem m) v)
    ∨ (∃ a, readMem s ov m 0 4 = .ok a) ∧ ((∃ r, i = .addRm32R32 ov (.mem m) r) ∨ (∃ v, i = .addRm32Imm32 ov (.mem m) v)
      ∨ ∃ v, i = .addRm32Imm8 ov (.mem m) v)))

/-- The instruction pops a segment register (rule R227). -/
def PopsSegment (i : Instr) (r : SReg) : Prop :=
  ∃ ov, i = .popEs ov ∧ r = .es ∨ i = .popSs ov ∧ r = .ss ∨ i = .popDs ov ∧ r = .ds ∨ i = .popFs ov ∧ r = .fs
    ∨ i = .popGs ov ∧ r = .gs

/-- The instruction pushes a segment register (rule R224). -/
def PushesSegment (i : Instr) (r : SReg) : Prop :=
  ∃ ov, i = .pushEs ov ∧ r = .es ∨ i = .pushCs ov ∧ r = .cs ∨ i = .pushSs ov ∧ r = .ss ∨ i = .pushDs ov ∧ r = .ds
    ∨ i = .pushFs ov ∧ r = .fs ∨ i = .pushGs ov ∧ r = .gs

/-- The instruction first of all reads `n` bytes at SS:ESP (rules R225 to R229, R249 to R256, R300). -/
def StackRead (s : State) (i : Instr) (n : Nat) : Prop :=
  (n = 4 ∧ ((∃ ov r, i = .popR32 ov r) ∨ (∃ ov op, i = .popRm32 ov op) ∨ (∃ r, PopsSegment i r)
    ∨ ∃ ov, i = .ret ov ∨ ∃ v, i = .retImm16 ov v))
  ∨ (n = 8 ∧ ∃ ov, i = .retFar ov ∨ ∃ v, i = .retFarImm16 ov v)
  ∨ (n = 12 ∧ flag s.eflags bitNT = false ∧ ∃ ov, i = .iret ov)
  ∨ (n = 32 ∧ ∃ ov, i = .popa ov)

/-- The instruction is a far JMP or CALL to `sel`:`off` (rules R243, R244, R247, R248). -/
def FarPointer (s : State) (i : Instr) (call : Bool) (off : Word) (sel : Half) : Prop :=
  ∃ ov, (call = false ∧ i = .jmpPtr1632 ov off sel) ∨ (call = true ∧ i = .callPtr1632 ov off sel)
    ∨ ∃ m, (call = false ∧ i = .jmpM1632 ov m ∨ call = true ∧ i = .callM1632 ov m)
      ∧ readMem s ov m 0 4 = .ok off ∧ readMem s ov m 4 2 = .ok sel

/-- The instruction is a near CALL to `target` (rules R245, R246). -/
def NearCall (s : State) (i : Instr) (target : Word) : Prop :=
  ∃ ov, (∃ rel, i = .callRel32 ov rel ∧ target = s.nextEip i + rel) ∨ ∃ op, i = .callRm32 ov op ∧ readRM32 s ov op = .ok target

/-- The instruction returns far through the frame `frame` at SS:ESP, releasing `extra` bytes more (rules R253, R254, R300). -/
def FarReturnFrame (s : State) (i : Instr) (extra : Word) (off slot : Word) (frame : List Word) : Prop :=
  (∃ ov, i = .retFar ov ∧ extra = 0 ∧ frame = [off, slot])
  ∨ (∃ ov imm, i = .retFarImm16 ov imm ∧ extra = imm.setWidth 32 ∧ frame = [off, slot])
  ∨ (∃ ov image, i = .iret ov ∧ flag s.eflags bitNT = false ∧ extra = 0 ∧ frame = [off, slot, image])

/-! ### Entry through a gate (rule R370) -/

/-- `ext`: 0 for a software interrupt, else 1. -/
def extOf (k : EventKind) : Half := if isSoftware k then 0 else 1

/-- The error code that a delivery pushes (rule R378). -/
def pushedCode (c : Config) (v : Byte) (e : Option Half) : Option Half :=
  if c.errcodeVectors.contains v.toNat then e else none

/-- The bytes of a frame without SS:ESP. -/
def frameSize (code : Option Half) : Nat := if code.isSome then 16 else 12

/-- The frame, lowest address first: the error code if there is one, EIP, CS, EFLAGS (rule R373). -/
def frameUp (s : State) (savedEip : Word) (code : Option Half) : List Word :=
  (code.map (·.setWidth 32)).toList ++ [savedEip, s.segs.cs.sel.setWidth 32, s.eflags]

/-- The DPL of the gate is checked for this kind of event: the parameter names it, or it is INT 3 and the parameter names INT n;
never for a hardware interrupt (rules R7, R291, R368). -/
def DplChecked (c : Config) (k : EventKind) : Prop :=
  k ≠ .external ∧ (k ∈ c.gateDplCheckedFor ∨ k = .int3 ∧ EventKind.intN ∈ c.gateDplCheckedFor)

/-- The gate `g` of vector `v` admits the event (rule R370, step 1): it is inside the IDT, an interrupt or trap gate, present,
and the caller is privileged enough where its DPL is checked. -/
def GateAdmits (s : State) (k : EventKind) (v : Byte) (g : BitVec 64) : Prop :=
  8 * v.toNat + 7 ≤ s.idtr.limit.toNat ∧ linRead s (s.idtr.base + BitVec.ofNat 32 (8 * v.toNat)) 8 = .ok g
    ∧ (gateKind s.cfg g = .interrupt ∨ gateKind s.cfg g = .trap) ∧ (DplChecked s.cfg k → s.cpl ≤ descDpl g)
    ∧ descP g = true

/-- The gate `g` leads to the code segment `d` of a level not less privileged (rule R370, step 2; rule R104). -/
def EntryOk (s : State) (g d : BitVec 64) : Prop :=
  isNull (gateSel g) = false ∧ readDesc s (gateSel g) = .ok d ∧ descKind d = .code ∧ descCE d = false
    ∧ descDpl d ≤ s.cpl ∧ descP d = true ∧ gateOff g ≤ effLimit (descLimit d) (descG d) ∧ descDB d = true

/-- The TSS that TR locates gives `nSS`:`nEsp` for level `lvl`, inside its limit (rule R374). -/
def TaskGives (s : State) (lvl : Level) (nSS : Half) (nEsp : Word) : Prop :=
  s.tr.valid = true ∧ 8 * lvl.toNat + 11 ≤ (effLimit s.tr.limit s.tr.g).toNat
    ∧ linRead s (s.tr.base + BitVec.ofNat 32 (4 + 8 * lvl.toNat)) 4 = .ok nEsp
    ∧ linRead s (s.tr.base + BitVec.ofNat 32 (8 + 8 * lvl.toNat)) 2 = .ok nSS

/-- The `n` bytes from offset `off` up lie inside the data segment, with B = 1, that `d` describes (rules R90, R370). -/
def DescHolds (d : BitVec 64) (off : Word) (n : Nat) : Prop :=
  off.toNat + n ≤ 2 ^ 32 ∧
    if descCE d then (effLimit (descLimit d) (descG d)).toNat < off.toNat
    else off.toNat + n ≤ (effLimit (descLimit d) (descG d)).toNat + 1

/-- The TSS gives `nSS`:`nEsp` for level `lvl`, `nSS` names a stack segment of that level with the descriptor `ds` (rule R374),
and the frame fits there and has memory behind it. -/
def InnerStackOk (s : State) (lvl : Level) (code : Option Half) (nSS : Half) (nEsp : Word) (ds : BitVec 64) : Prop :=
  TaskGives s lvl nSS nEsp ∧ ReturnStackOk s lvl nSS ds
    ∧ DescHolds ds (nEsp - BitVec.ofNat 32 (frameSize code + 8)) (frameSize code + 8)
    ∧ backed s (descBase ds + (nEsp - BitVec.ofNat 32 (frameSize code + 8))) (frameSize code + 8) = true

/-- The TSS gives no stack for level `lvl`, and `f` is the fault that says why (rule R374). -/
def InnerStackStop (s : State) (lvl : Level) (f : Fault) : Prop :=
  s.tr.valid = false ∧ f = .noTss
    ∨ s.tr.valid = true ∧ (effLimit s.tr.limit s.tr.g).toNat < 8 * lvl.toNat + 11 ∧ f = .tssTooSmall
    ∨ ∃ nSS nEsp, TaskGives s lvl nSS nEsp ∧ (isNull nSS = true ∧ f = .nullInnerStack
      ∨ isNull nSS = false ∧ (BeyondGdt s nSS ∨ ∃ ds, readDesc s nSS = .ok ds ∧ ¬ReturnStackOk s lvl nSS ds)
        ∧ f = .badInnerStack)

/-- The frame does not fit the stack that the TSS gives for level `lvl` (rule R370, step 3b). -/
def InnerFrameOutside (s : State) (lvl : Level) (code : Option Half) : Prop :=
  ∃ nSS nEsp ds, TaskGives s lvl nSS nEsp ∧ ReturnStackOk s lvl nSS ds
    ∧ ¬DescHolds ds (nEsp - BitVec.ofNat 32 (frameSize code + 8)) (frameSize code + 8)

/-- `out` is what the delivery of vector `v` from `s` comes to, for an event that is no software interrupt: an exception of
the instruction at EIP, or INTR or NMI at its boundary, with the error code `e` (rules R360, R352, R353, R372). -/
def EventDelivered (s : State) (out : Out) (k : EventKind) (v : Byte) (e : Option Half) : Prop :=
  (∃ c, out = takeException s (.gp c) ∧ v = 13 ∧ e = some c ∧ k = .exception)
  ∨ (∃ c, out = takeException s (.ss c) ∧ v = 12 ∧ e = some c ∧ k = .exception)
  ∨ (∃ c, out = takeException s (.np c) ∧ v = (if s.cfg.npVector = .v11 then 11 else 13) ∧ e = some c ∧ k = .exception)
  ∨ (out = takeException s .br ∧ v = 5 ∧ e = none ∧ k = .bound)
  ∨ (out = deliverOrStop s .external v none s.eip ∧ e = none ∧ k = .external)

/-- EFLAGS and CS:EIP after entry through `g` to `d`: IF cleared by an interrupt gate, TF and NT cleared (rules R370, R376). -/
def entered (s : State) (g d : BitVec 64) : State :=
  { s with
    eflags := entryFlags s.eflags (decide (gateKind s.cfg g = .interrupt))
    segs := { s.segs with cs := loadedCS s.cfg (gateSel g) d (descDpl d) }
    eip := gateOff g }

/-- After entry at the same level: the frame stands below ESP, and ESP at it (rule R373). -/
def EnteredSame (s t : State) (savedEip : Word) (code : Option Half) (g d : BitVec 64) : Prop :=
  let esp := s.esp - BitVec.ofNat 32 (frameSize code)
  ∃ s1 s2, StoredDwords s s1 (s.linear .ss esp) (frameUp s savedEip code) ∧ OnlyMem s s1 ∧ Accessed s1 s2 (gateSel g) d
    ∧ t = { entered s g d with regs := { s.regs with esp := esp }, mem := s2.mem, written := s2.written }

/-- After entry at a more privileged level: the frame, with the old ESP and the old SS above it in a slot whose upper word is
any value, stands on the stack of that level (rules R374, R375). -/
def EnteredInner (s t : State) (savedEip : Word) (code : Option Half) (g d : BitVec 64) (nSS : Half) (nEsp : Word)
    (ds : BitVec 64) : Prop :=
  let esp := nEsp - BitVec.ofNat 32 (frameSize code + 8)
  ∃ (hi : Half) (s1 s2 s3 : State), Accessed s s1 nSS ds
    ∧ StoredDwords s1 s2 (descBase ds + esp) (frameUp s savedEip code ++ [s.esp, hi ++ s.segs.ss.sel]) ∧ OnlyMem s1 s2
    ∧ Accessed s2 s3 (gateSel g) d
    ∧ t = { entered s g d with
        regs := { s.regs with esp := esp }
        segs := { (entered s g d).segs with ss := { sel := nSS, cache := cacheOf ds (descDpl d) } }
        mem := s3.mem
        written := s3.written
        freeCount := s.freeCount + 1 }

/-! ### Invariants -/

/-- A strictly rising list of addresses. -/
def rising : List Nat → Bool
  | [] => true
  | a :: t => t.all (fun b => decide (a < b)) && rising t

/-- Memory and the record of written addresses are in canonical form. -/
def MemInv (s : State) : Prop := Memory.wf s.mem = true ∧ rising s.written = true

/-- EFLAGS bit 1 is 1 and bits 3, 5, 15, 17 (VM) and 31:18 are 0 (rule R27). -/
def FlagsInv (f : Word) : Prop := f &&& 0xFFFE802A#32 = 0x00000002#32

/-- One of DS, ES, FS, GS: it holds a null selector and no usable cache, or a present data segment or readable code
segment whose privilege field is not below CPL unless it is conforming code (rules R77, R100, R256). -/
def dataSegOk (cpl : Level) (r : SegReg) : Bool :=
  (isNull r.sel && !r.cache.valid ||
    r.cache.valid && r.cache.p && (decide (r.cache.kind = .data) || r.cache.rw)
      && (decide (r.cache.kind = .code) && r.cache.ce || decide (cpl ≤ r.cache.priv)))
    && tiClear r.sel

/-- The segment registers are as rules R33, R34, R100 and R104 leave them: CS a present 32-bit non-conforming code segment
whose selector carries CPL, SS a present writable 32-bit data segment of privilege CPL, the others by `dataSegOk`. -/
def SegInv (s : State) : Prop :=
  launchCS s = true ∧ launchSS s = true ∧ dataSegOk s.cpl s.segs.es = true ∧ dataSegOk s.cpl s.segs.ds = true
    ∧ dataSegOk s.cpl s.segs.fs = true ∧ dataSegOk s.cpl s.segs.gs = true

/-- TR is empty or holds a present TSS through a GDT selector (rules R38, R278, R421 L8). -/
def TaskInv (s : State) : Prop := launchTask s.tr = true

/-- All the invariants. -/
def Inv (s : State) : Prop := SegInv s ∧ FlagsInv s.eflags ∧ MemInv s ∧ TaskInv s

/-! ### Safe runs -/

/-- A run of `k` steps from `s` that records no fault and is not refused (rule R11: the premise of every claim about a run),
and whose last step has not set TF either, which the next step would refuse (rule R403). -/
def SafeRun (k : Nat) (s : State) : Prop := ∃ t, Host.Core.run
  { State := State, Fault := Fault, Refusal := Refusal, step := step, reset := State.reset } k s = .next t
    ∧ flag t.eflags bitTF = false

end Sys2Proof.Machine
end

