-- ==== Sys2Proof/Certificates/Slice0/Obligations.lean ====
section
/-! DEFINITION. The statements for the provers. A statement that an instruction completes gives the whole state after it:
what is not named there is unchanged. A store is said by `Stored` or `StoredDwords`: the address, the bytes that stand there
after, and that every other byte reads as before. -/

open Sys2Proof Sys2Proof.Machine

/-- Decoding the bytes of a well-formed instruction gives it back.
Rests on: 30_encoding.md R130, 30_encoding.md R140, 30_encoding.md R165. -/
def Obligations.EncodeThenDecode : Prop :=
  ∀ (i : Instr) (rest : List Byte), i.wellFormed = true → decode (encode i ++ rest) = .ok (i, rest)

/-- What the decoder reads is well formed and its bytes are the ones read.
Rests on: 30_encoding.md R130, 30_encoding.md R140, 30_encoding.md R160, 30_encoding.md R165. -/
def Obligations.DecodeThenEncode : Prop :=
  ∀ (bytes : List Byte) (i : Instr) (rest : List Byte), decode bytes = .ok (i, rest) →
    i.wellFormed = true ∧ encode i ++ rest = bytes

/-- Words written out in the spec decode to the instructions they stand for.
Rests on: 41_stack.md R220, 42_control_transfer.md R244, 43_segment_system.md R270, 43_segment_system.md R276, 43_segment_system.md R278, 44_interrupt_instructions.md R290, 45_carrier.md R311, 45_carrier.md R313, 45_carrier.md R324. -/
def Obligations.DecodesExampleWords : Prop :=
  decode [0x50] = .ok (.pushR32 none .eax, [])
    ∧ decode [0xEA, 0x00, 0x10, 0x00, 0x00, 0x08, 0x00] = .ok (.jmpPtr1632 none 0x1000 0x0008, [])
    ∧ decode [0x8E, 0xD8] = .ok (.movSregRm16 none .ds (.reg .eax), [])
    ∧ decode [0x0F, 0x01, 0x15, 0x00, 0x05, 0x00, 0x00] = .ok (.lgdt none (.abs 0x500), [])
    ∧ decode [0x0F, 0x00, 0xD8] = .ok (.ltr none (.reg .eax), [])
    ∧ decode [0xCD, 0x30] = .ok (.intN none 0x30, [])
    ∧ decode [0x89, 0x44, 0x24, 0x04] = .ok (.movRm32R32 none (.mem (.sib .esp .x1 none (.d8 4))) .eax, [])
    ∧ decode [0x8B, 0x84, 0x8B, 0x00, 0x01, 0x00, 0x00] =
        .ok (.movR32Rm32 none .eax (.mem (.sib .ebx .x4 (some .ecx) (.d32 0x100))), [])
    ∧ decode [0x03, 0x04, 0xB5, 0x00, 0x30, 0x00, 0x00] =
        .ok (.addR32Rm32 none .eax (.mem (.sibAbs .x4 (some .esi) 0x3000)), [])

/-- What fetching byte k of an instruction answers; where all bytes of one can be fetched, the fetch answers it.
Rests on: 20_memory.md R97, 20_memory.md R123, 10_state.md R24, 10_state.md R25.
The model's own choices: log entries 17 and 23. -/
def Obligations.FetchReadsTheEncoding : Prop :=
  (∀ (s : State) (k : Nat), let off := s.eip + BitVec.ofNat 32 k
    (2 ^ 32 ≤ s.eip.toNat + k → fetchByte s k = .error (.refuse .fetchPastEnd))
    ∧ (s.eip.toNat + k < 2 ^ 32 →
      (∀ e, segCheck s .cs off 1 .fetch = .error e → fetchByte s k = .error e)
      ∧ (segCheck s .cs off 1 .fetch = .ok () →
        (∀ e, physAddr s.cfg (s.segs.cs.cache.base + off) = .error e → fetchByte s k = .error e)
        ∧ ∀ a, physAddr s.cfg (s.segs.cs.cache.base + off) = .ok a →
          fetchByte s k = if a ∈ s.written then .error (.refuse .fetchOfWrittenByte) else .ok (s.byteAt a))))
  ∧ ∀ (s : State) (i : Instr), i.wellFormed = true → s.segs.cs.cache.db = true →
    (∀ k (h : k < (encode i).length), fetchByte s k = .ok (encode i)[k]) → fetchInstr s = .ok i

/-- A step runs the instruction at EIP, and with no request waiting the boundary accepts nothing.
Rests on: 10_state.md R25, 60_exceptions.md R351, 60_exceptions.md R403, 70_reset_and_hazards.md R425.
The model's own choices: log entries 12, 13 and 16. -/
def Obligations.StepRunsTheInstruction : Prop :=
  (∀ (s s' : State) (i : Instr), s.cfg.stopEip ≠ some s.eip → flag s.eflags bitTF = false → flag s.eflags bitVM = false →
    boundary s = (none, s') → fetchInstr s' = .ok i → step s = exec i s')
  ∧ ∀ s : State, s.oracle = [] → boundary s = (none, { s with shadow := false })

/-- At stop_eip the run has ended and nothing is fetched, unless TF or VM is set: then the run is refused.
Rests on: 70_reset_and_hazards.md R425, 60_exceptions.md R403, 10_state.md R27.
The model's own choices: log entries 13 and 16. -/
def Obligations.RunEndsAtStopEip : Prop :=
  ∀ s : State,
    (flag s.eflags bitTF = false → flag s.eflags bitVM = false → s.cfg.stopEip = some s.eip → step s = .next s)
    ∧ (flag s.eflags bitTF = true → step s = .refused .singleStep)
    ∧ (flag s.eflags bitTF = false → flag s.eflags bitVM = true → step s = .refused .virtual8086)

/-- A byte that decoding needs beyond the limit of CS raises GP(0); past FFFFFFFFh, or written by the run, it is refused.
Rests on: 20_memory.md R97, 20_memory.md R123, 20_memory.md R90, 10_state.md R25, 60_exceptions.md R360, 60_exceptions.md R362, 70_reset_and_hazards.md R438.
The model's own choices: log entries 12, 16, 17 and 23. -/
def Obligations.FetchStops : Prop :=
  ∀ (s s' : State) (bytes : List Byte), s.cfg.stopEip ≠ some s.eip → flag s.eflags bitTF = false →
    flag s.eflags bitVM = false → boundary s = (none, s') → s.segs.cs.cache.db = true → bytes.length < 12 →
    (∀ k (h : k < bytes.length), fetchByte s' k = .ok bytes[k]) → decode bytes = .error .truncated →
    let k := bytes.length
    let off := s.eip + BitVec.ofNat 32 k
    (2 ^ 32 ≤ s.eip.toNat + k → step s = .refused .fetchPastEnd)
    ∧ (s.eip.toNat + k < 2 ^ 32 → s.segs.cs.cache.valid = true → s.segs.cs.cache.kind = .code →
      effLimit s.segs.cs.cache.limit s.segs.cs.cache.g < off → step s = takeException s' (.gp 0))
    ∧ (s.eip.toNat + k < 2 ^ 32 → segCheck s .cs off 1 .fetch = .ok () →
      ∀ a, physAddr s.cfg (s.segs.cs.cache.base + off) = .ok a → a ∈ s.written → step s = .refused .fetchOfWrittenByte)

/-- A write to linear memory is read back and leaves every other byte alone; where a linear address leads.
Rests on: 20_memory.md R62, 20_memory.md R68, 20_memory.md R69, 20_memory.md R70, 20_memory.md R120.
The model's own choices: log entries 8, 17 and 18. -/
def Obligations.LinearWriteReadsBack : Prop :=
  (∀ (s : State) (lin : Word) (n : Nat) (v : BitVec (8 * n)), MemInv s → n ≤ 4096 → backed s lin n = true →
    ∃ t, linWrite s lin n v = .ok t ∧ Stored s t lin n v ∧ OnlyMem s t)
  ∧ ∀ (c : Config) (page : BitVec 20) (low : BitVec 12),
    let at_ := fun p : Word => if ∃ r ∈ c.populated, r.1 ≤ p.toNat ∧ p.toNat ≤ r.2 then .ok p.toNat
      else (.error (.refuse .unpopulated) : Res Nat)
    (c.paging = .off → physAddr c (page ++ low) = at_ (page ++ low))
    ∧ ∀ map, c.paging = .on map →
      (∀ frame, lookupPage map page = some frame → physAddr c (page ++ low) = at_ (frame ++ low))
      ∧ (lookupPage map page = none → physAddr c (page ++ low) = .error (.refuse .pageUnmapped))

/-- A word or byte read inside a doubleword gives its part.
Rests on: 20_memory.md R62, 20_memory.md R64. -/
def Obligations.MixedWidthReads : Prop :=
  ∀ (s : State) (a v : Word), linRead s a 4 = .ok v →
    linRead s a 2 = .ok (v.extractLsb' 0 16) ∧ linRead s (a + 2) 2 = .ok (v.extractLsb' 16 16)
      ∧ linRead s a 1 = .ok (v.extractLsb' 0 8) ∧ linRead s (a + 1) 1 = .ok (v.extractLsb' 8 8)
      ∧ linRead s (a + 2) 1 = .ok (v.extractLsb' 16 8) ∧ linRead s (a + 3) 1 = .ok (v.extractLsb' 24 8)

/-- The effective limit of a segment in bytes or pages.
Rests on: 20_memory.md R82. -/
def Obligations.EffectiveLimit : Prop :=
  ∀ limit : BitVec 20, (effLimit limit false).toNat = limit.toNat ∧ (effLimit limit true).toNat = limit.toNat * 4096 + 4095

/-- The limit and rights check, outcome by outcome.
Rests on: 20_memory.md R90, 20_memory.md R91, 20_memory.md R83. -/
def Obligations.SegmentCheckOutcome : Prop :=
  ∀ (s : State) (r : SReg) (off : Word) (n : Nat) (k : Access), 1 ≤ n →
    let c := (s.seg r).cache
    let bad : Res Unit := .error (.raise (if r = .ss then .ss 0 else .gp 0))
    let last := off.toNat + n - 1
    let limit := (effLimit c.limit c.g).toNat
    segCheck s r off n k =
      if c.valid = false then .error (.raise (.gp 0))
      else if k = .write ∧ (c.kind = .code ∨ c.rw = false) then bad
      else if k = .read ∧ c.kind = .code ∧ c.rw = false then bad
      else if k = .fetch ∧ r ≠ .cs then .error (.refuse .fetchNotThroughCs)
      else if 0xFFFFFFFF < last then bad
      else if c.kind = .code ∨ c.ce = false then (if limit < last then bad else .ok ())
      else if off.toNat ≤ limit ∨ (if c.db then 0xFFFFFFFF else 0xFFFF) < last then bad
      else .ok ()

/-- The fields of a segment descriptor, of the cache it is loaded into, and of a gate.
Rests on: 20_memory.md R80, 20_memory.md R81, 20_memory.md R86, 10_state.md R31, 20_memory.md R100, 20_memory.md R104, 60_exceptions.md R365, 60_exceptions.md R366, 60_exceptions.md R367, 60_exceptions.md R392. -/
def Obligations.DescriptorFields : Prop :=
  let bit := fun b : Bool => BitVec.ofBool b
  (∀ (baseHi : BitVec 8) (baseLo : BitVec 24) (limHi : BitVec 4) (limLo : BitVec 16) (dpl : BitVec 2)
    (g db avl p code ce rw a : Bool) (lvl : Level),
    let d : BitVec 64 := baseHi ++ bit g ++ bit db ++ (0 : BitVec 1) ++ bit avl ++ limHi ++ bit p ++ dpl ++ (1 : BitVec 1)
      ++ bit code ++ bit ce ++ bit rw ++ bit a ++ baseLo ++ limLo
    descKind d = (if code then .code else .data) ∧ descBase d = baseHi ++ baseLo ∧ descLimit d = limHi ++ limLo
      ∧ descG d = g ∧ descDB d = db ∧ descP d = p ∧ descDpl d = dpl ∧ descCE d = ce ∧ descRW d = rw ∧ descA d = a
      ∧ cacheOf d lvl =
        { base := baseHi ++ baseLo, limit := limHi ++ limLo, g := g, db := db, p := p, priv := lvl, ce := ce, rw := rw
          a := true, kind := if code then .code else .data, valid := true })
  ∧ (∀ d : BitVec 64, d.getLsbD 44 = false →
    descKind d = if d.extractLsb' 40 4 = 9 ∨ d.extractLsb' 40 4 = 11 then .tss else .other)
  ∧ ∀ (c : Config) (offHi offLo : BitVec 16) (sel : Half) (low : BitVec 8) (type : BitVec 5) (dpl : BitVec 2) (p : Bool),
    let g : BitVec 64 := offHi ++ bit p ++ dpl ++ type ++ low ++ sel ++ offLo
    gateSel g = sel ∧ gateOff g = offHi ++ offLo ∧ descDpl g = dpl ∧ descP g = p
      ∧ gateKind c g =
        if type = 0b01111 then .trap
        else if c.intGateType = .hardware then
          if type = 0b01110 then .interrupt else if type = 0b00101 then .task else .none
        else if type = 0b00101 then .interrupt else .none

/-- ReadDesc: refused, raised or read.
Rests on: 20_memory.md R85. -/
def Obligations.ReadDescriptorOutcome : Prop :=
  ∀ (s : State) (index : BitVec 13) (ti : Bool) (rpl : BitVec 2),
    let sel : Half := index ++ BitVec.ofBool ti ++ rpl
    readDesc s sel =
      if ti then .error (.refuse .ldtSelector)
      else if s.gdtr.limit.toNat < 8 * index.toNat + 7 then .error (.raise (.gp (index ++ (0 : BitVec 3))))
      else linRead s (s.gdtr.base + BitVec.ofNat 32 (8 * index.toNat)) 8

/-- Loading a descriptor sets its accessed bit in memory.
Rests on: 20_memory.md R103. -/
def Obligations.AccessedBitOutcome : Prop :=
  ∀ (s : State) (sel : Half) (d : BitVec 64), MemInv s → readDesc s sel = .ok d →
    ∃ t, setAccessed s sel d = .ok t ∧ Accessed s t sel d

/-- The 8-bit registers are bytes of EAX, ECX, EDX and EBX.
Rests on: 10_state.md R22. -/
def Obligations.ByteRegisterViews : Prop :=
  ∀ (s : State) (v : Byte),
    (s.reg8 .al = s.regs.eax.extractLsb' 0 8 ∧ s.reg8 .cl = s.regs.ecx.extractLsb' 0 8
      ∧ s.reg8 .dl = s.regs.edx.extractLsb' 0 8 ∧ s.reg8 .bl = s.regs.ebx.extractLsb' 0 8
      ∧ s.reg8 .ah = s.regs.eax.extractLsb' 8 8 ∧ s.reg8 .ch = s.regs.ecx.extractLsb' 8 8
      ∧ s.reg8 .dh = s.regs.edx.extractLsb' 8 8 ∧ s.reg8 .bh = s.regs.ebx.extractLsb' 8 8)
    ∧ ∀ r : Reg8,
      let t := s.setReg8 r v
      t.reg8 r = v ∧ (∀ r', r' ≠ r → t.reg8 r' = s.reg8 r')
        ∧ (∀ x, (t.reg x).extractLsb' 16 16 = (s.reg x).extractLsb' 16 16)
        ∧ (∀ x, x ≠ .eax → x ≠ .ecx → x ≠ .edx → x ≠ .ebx → t.reg x = s.reg x)
        ∧ t = { s with regs := t.regs }

/-- The effective address is base + index * scale + displacement modulo 2^32.
Rests on: 40_addressing.md R191. -/
def Obligations.EffectiveAddressSum : Prop :=
  ∀ g : Regs,
    let scale := fun sc : Scale => match sc with
      | .x1 => 1
      | .x2 => 2
      | .x4 => 4
      | .x8 => (8 : Int)
    let disp := fun d : Disp => match d with
      | .none => 0
      | .d8 v => v.toInt
      | .d32 v => (v.toNat : Int)
    let index := fun (sc : Scale) (ix : Option Reg) => match ix with
      | none => 0
      | some r => ((g.get r).toNat : Int) * scale sc
    (∀ b d, ((effAddr g (.base b d)).toNat : Int) = (((g.get b).toNat : Int) + disp d) % 2 ^ 32)
      ∧ (∀ v : BitVec 32, effAddr g (.abs v) = v)
      ∧ (∀ b sc ix d, ((effAddr g (.sib b sc ix d)).toNat : Int)
          = (((g.get b).toNat : Int) + index sc ix + disp d) % 2 ^ 32)
      ∧ (∀ sc ix (v : BitVec 32), ((effAddr g (.sibAbs sc ix v)).toNat : Int) = ((v.toNat : Int) + index sc ix) % 2 ^ 32)

/-- Which segment a memory operand uses, and which bytes reading an operand answers.
Rests on: 30_encoding.md R151, 20_memory.md R98, 30_encoding.md R160, 40_addressing.md R190, 40_addressing.md R207, 20_memory.md R95, 20_memory.md R68. -/
def Obligations.DefaultSegments : Prop :=
  (∀ (c : Config) (m : MemRef),
    (∀ r, operandSeg c (some r) m = r)
      ∧ operandSeg c none m = match m with
        | .base .esp _ | .sib .esp _ _ _ => .ss
        | .base .ebp _ | .sib .ebp _ _ _ => if c.ebpDefaultSeg = .ss then .ss else .ds
        | _ => .ds)
  ∧ ∀ (s : State) (ov : Option SReg),
    (∀ (m : MemRef) (d : Word) (n : Nat) (v : BitVec (8 * n)), readMem s ov m d n = .ok v ↔
      segCheck s (operandSeg s.cfg ov m) (effAddr s.regs m + d) n .read = .ok () ∧
        ∀ k < n, ∃ a, physAddr s.cfg
            ((s.seg (operandSeg s.cfg ov m)).cache.base + (effAddr s.regs m + d) + BitVec.ofNat 32 k) = .ok a
          ∧ s.byteAt a = v.extractLsb' (8 * k) 8)
    ∧ (∀ m, readRM32 s ov (.mem m) = readMem s ov m 0 4 ∧ readRM16 s ov (.mem m) = readMem s ov m 0 2
      ∧ readRM8 s ov (.mem m) = readMem s ov m 0 1)
    ∧ (∀ r, readRM32 s ov (.reg r) = .ok (s.regs.get r) ∧ readRM16 s ov (.reg r) = .ok ((s.regs.get r).extractLsb' 0 16))
    ∧ ∀ r, readRM8 s ov (.reg r) = .ok (s.reg8 r)

/-- PUSH r32, r/m32, imm32 and imm8 complete and store below ESP, or take the exception of the check.
Rests on: 41_stack.md R220, 41_stack.md R221, 41_stack.md R222, 41_stack.md R223, 40_addressing.md R202, 40_addressing.md R204, 60_exceptions.md R360. -/
def Obligations.PushStoresDoubleword : Prop :=
  ∀ (s : State) (ov : Option SReg) (i : Instr) (v : Word),
    ((∃ r, i = .pushR32 ov r ∧ v = s.reg r) ∨ (∃ op, i = .pushRm32 ov op ∧ readRM32 s ov op = .ok v)
      ∨ i = .pushImm32 ov v ∨ ∃ imm, i = .pushImm8 ov imm ∧ v = imm.signExtend 32) →
    (MemInv s → Writable s .ss (s.esp - 4) 4 →
      ∃ t, exec i s = .next t ∧ Stored s t (s.linear .ss (s.esp - 4)) 4 v
        ∧ t = { s with regs := { s.regs with esp := s.esp - 4 }, eip := s.nextEip i, mem := t.mem, written := t.written })
    ∧ ∀ x, segCheck s .ss (s.esp - 4) 4 .write = .error (.raise x) → exec i s = takeException s x

/-- PUSH ES, CS, SS, DS, FS, GS complete and store the selector in a doubleword slot.
Rests on: 41_stack.md R224.
The model's own choices: log entry 9. -/
def Obligations.PushSegmentStoresSelector : Prop :=
  ∀ (s : State) (ov : Option SReg) (i : Instr) (r : SReg), MemInv s →
    (i = .pushEs ov ∧ r = .es ∨ i = .pushCs ov ∧ r = .cs ∨ i = .pushSs ov ∧ r = .ss ∨ i = .pushDs ov ∧ r = .ds
      ∨ i = .pushFs ov ∧ r = .fs ∨ i = .pushGs ov ∧ r = .gs) →
    Writable s .ss (s.esp - 4) 4 →
    ∃ (t : State) (hi : Half), exec i s = .next t ∧ Stored s t (s.linear .ss (s.esp - 4)) 4 (hi ++ (s.seg r).sel)
      ∧ t = { s with
          regs := { s.regs with esp := s.esp - 4 }
          eip := s.nextEip i
          mem := t.mem
          written := t.written
          freeCount := s.freeCount + 1 }

/-- POP r32 and POP r/m32 complete: a memory destination is found with ESP after the increment.
Rests on: 41_stack.md R225, 41_stack.md R226, 40_addressing.md R203, 40_addressing.md R204.
The model's own choices: log entry 15. -/
def Obligations.PopLoadsOperand : Prop :=
  ∀ (s : State) (ov : Option SReg) (v : Word), segRead s .ss s.esp 4 = .ok v →
    (∀ r, exec (.popR32 ov r) s = .next { s with
      regs := Regs.set { s.regs with esp := s.esp + 4 } r v
      eip := s.nextEip (.popR32 ov r) })
    ∧ (∀ r, exec (.popRm32 ov (.reg r)) s = .next { s with
      regs := { s.regs.set r v with esp := s.esp + 4 }
      eip := s.nextEip (.popRm32 ov (.reg r)) })
    ∧ ∀ m, let regs := { s.regs with esp := s.esp + 4 }
      let seg := operandSeg s.cfg ov m
      MemInv s → Writable s seg (effAddr regs m) 4 →
      ∃ t, exec (.popRm32 ov (.mem m)) s = .next t ∧ Stored s t (s.linear seg (effAddr regs m)) 4 v
        ∧ t = { s with regs := regs, eip := s.nextEip (.popRm32 ov (.mem m)), mem := t.mem, written := t.written }

/-- POP ES, DS, FS, GS complete: a null selector empties the register, another loads its descriptor.
Rests on: 41_stack.md R227, 20_memory.md R100, 20_memory.md R103.
The model's own choices: log entry 14. -/
def Obligations.PopDataSegment : Prop :=
  ∀ (s : State) (ov : Option SReg) (i : Instr) (r : SReg) (v : Word), MemInv s →
    (i = .popEs ov ∧ r = .es ∨ i = .popDs ov ∧ r = .ds ∨ i = .popFs ov ∧ r = .fs ∨ i = .popGs ov ∧ r = .gs) →
    segRead s .ss s.esp 4 = .ok v →
    let sel : Half := v.extractLsb' 0 16
    let after := { s with regs := { s.regs with esp := s.esp + 4 }, eip := s.nextEip i }
    (isNull sel = true → exec i s = .next { after with
      segs := s.segs.set r { sel := sel, cache := { (s.seg r).cache with valid := false } } })
    ∧ ∀ d, DataLoadable s sel d → ∃ u, Accessed s u sel d ∧ exec i s = .next { after with
      segs := s.segs.set r { sel := sel, cache := cacheOf d (descDpl d) }
      mem := u.mem
      written := u.written }

/-- POP SS completes, and no interrupt is presented at the boundary after it.
Rests on: 41_stack.md R227, 20_memory.md R100, 43_segment_system.md R273.
The model's own choices: log entry 12. -/
def Obligations.PopStackSegment : Prop :=
  ∀ (s : State) (ov : Option SReg) (v : Word) (d : BitVec 64), MemInv s → segRead s .ss s.esp 4 = .ok v →
    StackLoadable s (v.extractLsb' 0 16) d →
    ∃ u, Accessed s u (v.extractLsb' 0 16) d ∧ exec (.popSs ov) s = .next { s with
      regs := { s.regs with esp := s.esp + 4 }
      eip := s.nextEip (.popSs ov)
      segs := { s.segs with ss := { sel := v.extractLsb' 0 16, cache := cacheOf d (descDpl d) } }
      mem := u.mem
      written := u.written
      shadow := true }

/-- PUSHA completes: the eight registers stand below ESP.
Rests on: 41_stack.md R228.
The model's own choices: log entry 22. -/
def Obligations.PushaStoresAllRegisters : Prop :=
  ∀ (s : State) (ov : Option SReg), MemInv s →
    (Writable s .ss (s.esp - 32) 32 ∨
      (0 < s.esp.toNat ∧ s.esp.toNat < 32 ∧ s.esp.toNat % 4 = 0 ∧ Writable s .ss (s.esp - 32) (32 - s.esp.toNat)
        ∧ Writable s .ss 0 s.esp.toNat)) →
    ∃ t, exec (.pusha ov) s = .next t
      ∧ StoredDwords s t (s.linear .ss (s.esp - 32))
          [s.regs.edi, s.regs.esi, s.regs.ebp, s.esp, s.regs.ebx, s.regs.edx, s.regs.ecx, s.regs.eax]
      ∧ t = { s with
          regs := { s.regs with esp := s.esp - 32 }
          eip := s.nextEip (.pusha ov)
          mem := t.mem
          written := t.written }

/-- POPA completes: seven registers are loaded from the stack and the saved ESP is skipped.
Rests on: 41_stack.md R229. -/
def Obligations.PopaLoadsAllRegisters : Prop :=
  ∀ (s : State) (ov : Option SReg) (edi esi ebp skipped ebx edx ecx eax : Word), segCheck s .ss s.esp 32 .read = .ok () →
    HoldsDwords s (s.linear .ss s.esp) [edi, esi, ebp, skipped, ebx, edx, ecx, eax] →
    exec (.popa ov) s = .next { s with
      regs := { eax := eax, ecx := ecx, edx := edx, ebx := ebx, esp := s.esp + 32, ebp := ebp, esi := esi, edi := edi }
      eip := s.nextEip (.popa ov) }

/-- PUSHA followed by POPA restores all eight registers.
Rests on: 41_stack.md R228, 41_stack.md R229. -/
def Obligations.PushaThenPopaRestores : Prop :=
  ∀ (s : State) (ov ov' : Option SReg), MemInv s → Writable s .ss (s.esp - 32) 32 →
    ∃ t u, exec (.pusha ov) s = .next t ∧ exec (.popa ov') t = .next u ∧ u.regs = s.regs ∧ u.eflags = s.eflags
      ∧ u.segs = s.segs ∧ u.gdtr = s.gdtr ∧ u.idtr = s.idtr ∧ u.tr = s.tr

/-- JMP rel8, JMP rel32 and JMP r/m32 complete where the target is inside CS.
Rests on: 42_control_transfer.md R240, 42_control_transfer.md R241, 42_control_transfer.md R242. -/
def Obligations.NearJumpCompletes : Prop :=
  ∀ (s : State) (ov : Option SReg) (i : Instr) (target : Word),
    ((∃ rel, i = .jmpRel8 ov rel ∧ target = s.nextEip i + rel.signExtend 32)
      ∨ (∃ rel, i = .jmpRel32 ov rel ∧ target = s.nextEip i + rel)
      ∨ ∃ op, i = .jmpRm32 ov op ∧ readRM32 s ov op = .ok target) →
    target ≤ effLimit s.segs.cs.cache.limit s.segs.cs.cache.g → exec i s = .next { s with eip := target }

/-- CALL rel32 and CALL r/m32 complete: the return address is pushed and EIP is the target.
Rests on: 42_control_transfer.md R240, 42_control_transfer.md R245, 42_control_transfer.md R246. -/
def Obligations.NearCallCompletes : Prop :=
  ∀ (s : State) (ov : Option SReg) (i : Instr) (target : Word), MemInv s →
    ((∃ rel, i = .callRel32 ov rel ∧ target = s.nextEip i + rel)
      ∨ ∃ op, i = .callRm32 ov op ∧ readRM32 s ov op = .ok target) →
    target ≤ effLimit s.segs.cs.cache.limit s.segs.cs.cache.g → Writable s .ss (s.esp - 4) 4 →
    ∃ t, exec i s = .next t ∧ Stored s t (s.linear .ss (s.esp - 4)) 4 (s.nextEip i)
      ∧ t = { s with regs := { s.regs with esp := s.esp - 4 }, eip := target, mem := t.mem, written := t.written }

/-- RET and RET imm16 complete: EIP is the popped target and ESP is released.
Rests on: 42_control_transfer.md R240, 42_control_transfer.md R249, 42_control_transfer.md R250. -/
def Obligations.NearReturnCompletes : Prop :=
  ∀ (s : State) (ov : Option SReg) (target : Word), segRead s .ss s.esp 4 = .ok target →
    target ≤ effLimit s.segs.cs.cache.limit s.segs.cs.cache.g →
    exec (.ret ov) s = .next { s with regs := { s.regs with esp := s.esp + 4 }, eip := target }
      ∧ ∀ imm : BitVec 16, exec (.retImm16 ov imm) s =
        .next { s with regs := { s.regs with esp := s.esp + 4 + imm.setWidth 32 }, eip := target }

/-- A near transfer to a target beyond the limit of CS takes GP(0) with nothing pushed or popped.
Rests on: 42_control_transfer.md R240, 60_exceptions.md R360. -/
def Obligations.NearTargetBeyondLimitRaises : Prop :=
  ∀ (s : State) (ov : Option SReg) (i : Instr) (target : Word),
    ((∃ rel, i = .jmpRel8 ov rel ∧ target = s.nextEip i + rel.signExtend 32)
      ∨ (∃ rel, i = .jmpRel32 ov rel ∧ target = s.nextEip i + rel)
      ∨ (∃ op, i = .jmpRm32 ov op ∧ readRM32 s ov op = .ok target)
      ∨ (∃ rel, i = .callRel32 ov rel ∧ target = s.nextEip i + rel)
      ∨ (∃ op, i = .callRm32 ov op ∧ readRM32 s ov op = .ok target)
      ∨ i = .ret ov ∧ segRead s .ss s.esp 4 = .ok target
      ∨ ∃ imm, i = .retImm16 ov imm ∧ segRead s .ss s.esp 4 = .ok target) →
    effLimit s.segs.cs.cache.limit s.segs.cs.cache.g < target → exec i s = takeException s (.gp 0)

/-- JMP ptr16:32 and JMP m16:32 complete: CS and EIP are loaded.
Rests on: 42_control_transfer.md R243, 42_control_transfer.md R244, 42_control_transfer.md R252, 20_memory.md R104. -/
def Obligations.FarJumpCompletes : Prop :=
  ∀ (s : State) (ov : Option SReg) (i : Instr) (off : Word) (sel : Half) (d : BitVec 64), MemInv s →
    (i = .jmpPtr1632 ov off sel ∨ ∃ m, i = .jmpM1632 ov m ∧ readMem s ov m 0 4 = .ok off ∧ readMem s ov m 4 2 = .ok sel) →
    FarTargetOk s sel off d →
    ∃ u, Accessed s u sel d ∧ exec i s = .next { s with
      segs := { s.segs with cs := loadedCS s.cfg sel d s.cpl }
      eip := off
      mem := u.mem
      written := u.written }

/-- CALL ptr16:32 and CALL m16:32 complete: the return address is pushed, CS and EIP are loaded.
Rests on: 42_control_transfer.md R247, 42_control_transfer.md R248, 42_control_transfer.md R252, 20_memory.md R104.
The model's own choices: log entry 9. -/
def Obligations.FarCallCompletes : Prop :=
  ∀ (s : State) (ov : Option SReg) (i : Instr) (off : Word) (sel : Half) (d : BitVec 64), MemInv s →
    (i = .callPtr1632 ov off sel ∨ ∃ m, i = .callM1632 ov m ∧ readMem s ov m 0 4 = .ok off ∧ readMem s ov m 4 2 = .ok sel) →
    FarTargetOk s sel off d → Writable s .ss (s.esp - 8) 8 →
    ∃ (hi : Half) (s1 s2 : State), StoredDwords s s1 (s.linear .ss (s.esp - 8)) [s.nextEip i, hi ++ s.segs.cs.sel]
      ∧ OnlyMem s s1 ∧ Accessed s1 s2 sel d
      ∧ exec i s = .next { s with
          regs := { s.regs with esp := s.esp - 8 }
          segs := { s.segs with cs := loadedCS s.cfg sel d s.cpl }
          eip := off
          mem := s2.mem
          written := s2.written
          freeCount := s.freeCount + 1 }

/-- Far RET and far RET imm16 complete at the same level.
Rests on: 42_control_transfer.md R253, 42_control_transfer.md R254, 42_control_transfer.md R256. -/
def Obligations.FarReturnSameLevel : Prop :=
  ∀ (s : State) (ov : Option SReg) (i : Instr) (extra off slot : Word) (d : BitVec 64), MemInv s →
    (i = .retFar ov ∧ extra = 0 ∨ ∃ imm : BitVec 16, i = .retFarImm16 ov imm ∧ extra = imm.setWidth 32) →
    segCheck s .ss s.esp 8 .read = .ok () → HoldsDwords s (s.linear .ss s.esp) [off, slot] →
    ReturnTargetOk s (slot.extractLsb' 0 16) off d s.cpl →
    ∃ u, Accessed s u (slot.extractLsb' 0 16) d ∧ exec i s = .next { s with
      regs := { s.regs with esp := s.esp + 8 + extra }
      segs := { s.segs with cs := loadedCS s.cfg (slot.extractLsb' 0 16) d s.cpl }
      eip := off
      mem := u.mem
      written := u.written }

/-- Far RET and far RET imm16 complete to a less privileged level.
Rests on: 42_control_transfer.md R253, 42_control_transfer.md R254, 42_control_transfer.md R256, 20_memory.md R103.
The model's own choices: log entry 19. -/
def Obligations.FarReturnOuterLevel : Prop :=
  (∀ (lvl : Level) (r : SegReg), emptyIfInner lvl r =
    if r.cache.valid = true ∧ (r.cache.kind = .data ∨ r.cache.ce = false) ∧ r.cache.priv < lvl then
      { sel := 0, cache := { r.cache with valid := false } }
    else r)
  ∧ ∀ (s : State) (ov : Option SReg) (i : Instr) (extra off slot esp ssSlot : Word) (d ds : BitVec 64) (lvl : Level), MemInv s →
    (i = .retFar ov ∧ extra = 0 ∨ ∃ imm : BitVec 16, i = .retFarImm16 ov imm ∧ extra = imm.setWidth 32) →
    segCheck s .ss s.esp 8 .read = .ok () → HoldsDwords s (s.linear .ss s.esp) [off, slot] →
    ReturnTargetOk s (slot.extractLsb' 0 16) off d lvl → lvl ≠ s.cpl →
    segCheck s .ss (s.esp + 8 + extra) 8 .read = .ok () →
    HoldsDwords s (s.linear .ss (s.esp + 8 + extra)) [esp, ssSlot] → ReturnStackOk s lvl (ssSlot.extractLsb' 0 16) ds →
    ∃ u w, Accessed s u (slot.extractLsb' 0 16) d ∧ Accessed u w (ssSlot.extractLsb' 0 16) ds ∧ exec i s = .next { s with
      regs := { s.regs with esp := esp + extra }
      segs :=
        { cs := loadedCS s.cfg (slot.extractLsb' 0 16) d lvl
          ss := { sel := ssSlot.extractLsb' 0 16, cache := cacheOf ds lvl }
          ds := emptyIfInner lvl s.segs.ds
          es := emptyIfInner lvl s.segs.es
          fs := emptyIfInner lvl s.segs.fs
          gs := emptyIfInner lvl s.segs.gs }
      eip := off
      mem := w.mem
      written := w.written }

/-- MOV Sreg, r/m16 completes: DS, ES, FS, GS may be emptied by a null selector, SS holds off interrupts.
Rests on: 43_segment_system.md R270, 43_segment_system.md R273, 20_memory.md R100, 20_memory.md R77, 10_state.md R34.
The model's own choices: log entries 12 and 14. -/
def Obligations.MoveToSegment : Prop :=
  ∀ (s : State) (ov : Option SReg) (op : RM Reg) (sel : Half), MemInv s → readRM16 s ov op = .ok sel →
    (∀ r, r ≠ .cs → r ≠ .ss →
      (isNull sel = true → exec (.movSregRm16 ov r op) s = .next { s with
        segs := s.segs.set r { sel := sel, cache := { (s.seg r).cache with valid := false } }
        eip := s.nextEip (.movSregRm16 ov r op) })
      ∧ ∀ d, DataLoadable s sel d → ∃ u, Accessed s u sel d ∧ exec (.movSregRm16 ov r op) s = .next { s with
        segs := s.segs.set r { sel := sel, cache := cacheOf d (descDpl d) }
        eip := s.nextEip (.movSregRm16 ov r op)
        mem := u.mem
        written := u.written })
    ∧ ∀ d, StackLoadable s sel d → ∃ u, Accessed s u sel d ∧ exec (.movSregRm16 ov .ss op) s = .next { s with
      segs := { s.segs with ss := { sel := sel, cache := cacheOf d (descDpl d) } }
      eip := s.nextEip (.movSregRm16 ov .ss op)
      mem := u.mem
      written := u.written
      shadow := true }

/-- A load of a segment register or TR takes the exception that LoadSeg, FarTarget, FarReturn or LTR names.
Rests on: 20_memory.md R85, 20_memory.md R100, 43_segment_system.md R270, 41_stack.md R227, 42_control_transfer.md R252, 42_control_transfer.md R256, 43_segment_system.md R278, 60_exceptions.md R360.
The model's own choices: log entries 14 and 21. -/
def Obligations.SegmentLoadFaults : Prop :=
  ∀ (s : State) (i : Instr) (x : Exc),
    (∀ r sel, ((∃ ov op, i = .movSregRm16 ov r op ∧ readRM16 s ov op = .ok sel)
        ∨ PopsSegment i r ∧ ∃ v, segRead s .ss s.esp 4 = .ok v ∧ sel = v.extractLsb' 0 16) →
      (r = .ss ∧ StackLoadRaises s sel x ∨ r ≠ .cs ∧ r ≠ .ss ∧ DataLoadRaises s sel x) → exec i s = takeException s x)
    ∧ (∀ call off sel, FarPointer s i call off sel → FarTargetRaises s sel off x → exec i s = takeException s x)
    ∧ (∀ extra off slot frame, FarReturnFrame s i extra off slot frame →
      segCheck s .ss s.esp (4 * frame.length) .read = .ok () → HoldsDwords s (s.linear .ss s.esp) frame →
      let sel : Half := slot.extractLsb' 0 16
      let above := s.esp + BitVec.ofNat 32 (4 * frame.length) + extra
      (ReturnTargetRaises s sel off x → exec i s = takeException s x)
      ∧ ∀ d lvl, ReturnTargetOk s sel off d lvl → lvl ≠ s.cpl →
        (segCheck s .ss above 8 .read = .error (.raise x) → exec i s = takeException s x)
        ∧ ∀ esp ssSlot, segCheck s .ss above 8 .read = .ok () → HoldsDwords s (s.linear .ss above) [esp, ssSlot] →
          ReturnStackRaises s lvl (ssSlot.extractLsb' 0 16) x → exec i s = takeException s x)
    ∧ ∀ ov op sel, i = .ltr ov op → s.cpl = 0 → readRM16 s ov op = .ok sel → TaskLoadRaises s sel x →
      exec i s = takeException s x

/-- MOV r/m16, Sreg completes at every level.
Rests on: 43_segment_system.md R271.
The model's own choices: log entry 9. -/
def Obligations.MoveFromSegment : Prop :=
  ∀ (s : State) (ov : Option SReg) (sr : SReg), MemInv s →
    (∀ r, ∃ hi : Half, exec (.movRm16Sreg ov (.reg r) sr) s = .next { s with
      regs := s.regs.set r (hi ++ (s.seg sr).sel)
      eip := s.nextEip (.movRm16Sreg ov (.reg r) sr)
      freeCount := s.freeCount + 1 })
    ∧ ∀ m, let seg := operandSeg s.cfg ov m
      Writable s seg (s.ea m) 2 →
      ∃ t, exec (.movRm16Sreg ov (.mem m) sr) s = .next t ∧ Stored s t (s.linear seg (s.ea m)) 2 (s.seg sr).sel
        ∧ t = { s with eip := s.nextEip (.movRm16Sreg ov (.mem m) sr), mem := t.mem, written := t.written }

/-- LGDT and LIDT complete at level 0 and touch no descriptor cache.
Rests on: 43_segment_system.md R276, 43_segment_system.md R277, 20_memory.md R124. -/
def Obligations.TableRegistersLoad : Prop :=
  ∀ (s : State) (ov : Option SReg) (m : MemRef) (limit : Half) (base : Word), s.cpl = 0 →
    readMem s ov m 0 2 = .ok limit → readMem s ov m 2 4 = .ok base →
    exec (.lgdt ov m) s = .next { s with gdtr := { base := base, limit := limit }, eip := s.nextEip (.lgdt ov m) }
      ∧ exec (.lidt ov m) s = .next { s with idtr := { base := base, limit := limit }, eip := s.nextEip (.lidt ov m) }

/-- LTR completes at level 0: TR holds the TSS descriptor and it is marked busy.
Rests on: 43_segment_system.md R278, 60_exceptions.md R392, 60_exceptions.md R393.
The model's own choices: log entry 21. -/
def Obligations.TaskRegisterLoads : Prop :=
  ∀ (s : State) (ov : Option SReg) (op : RM Reg) (sel : Half) (d : BitVec 64), MemInv s → s.cpl = 0 →
    readRM16 s ov op = .ok sel → TaskLoadable s sel d →
    ∃ u, (if s.cfg.ltrBusyRule = .hardware then ByteOred s u (descAddr s sel + 5) 2 else u = s)
      ∧ exec (.ltr ov op) s = .next { s with
          tr :=
            { sel := sel, base := descBase d, limit := descLimit d, g := descG d, p := descP d, dpl := descDpl d, b := true
              valid := true }
          eip := s.nextEip (.ltr ov op)
          mem := u.mem
          written := u.written }

/-- LGDT, LIDT and LTR take GP(0) at any level but 0.
Rests on: 43_segment_system.md R275. -/
def Obligations.PrivilegedLoadsFault : Prop :=
  ∀ (s : State) (ov : Option SReg), s.cpl ≠ 0 →
    (∀ m, exec (.lgdt ov m) s = takeException s (.gp 0)) ∧ (∀ m, exec (.lidt ov m) s = takeException s (.gp 0))
      ∧ ∀ op, exec (.ltr ov op) s = takeException s (.gp 0)

/-- CLI and STI: IF alone is written where CPL is privileged enough, else GP(0).
Rests on: 43_segment_system.md R280, 43_segment_system.md R281, 10_state.md R28.
The model's own choices: log entry 12. -/
def Obligations.InterruptFlagInstructions : Prop :=
  ∀ (s : State) (ov : Option SReg),
    let withIF := fun (f : Word) (b : Bool) => ∀ i < 32, flag f i = if i = 9 then b else flag s.eflags i
    (s.cpl ≤ iopl s.eflags →
      (∃ f, withIF f false ∧ exec (.cli ov) s = .next { s with eflags := f, eip := s.nextEip (.cli ov) })
      ∧ ∃ f, withIF f true ∧ exec (.sti ov) s = .next { s with eflags := f, eip := s.nextEip (.sti ov), shadow := true })
    ∧ (iopl s.eflags < s.cpl → exec (.cli ov) s = takeException s (.gp 0) ∧ exec (.sti ov) s = takeException s (.gp 0))

/-- INT n, INT 3 and INTO with OF = 1 enter the handler that their gate names, or stop where no stack is given.
Rests on: 44_interrupt_instructions.md R290, 44_interrupt_instructions.md R291, 44_interrupt_instructions.md R292, 60_exceptions.md R370, 60_exceptions.md R373, 60_exceptions.md R374, 60_exceptions.md R375, 60_exceptions.md R376, 20_memory.md R103.
The model's own choices: log entries 9, 19, 20 and 28. -/
def Obligations.SoftwareInterruptEntersHandler : Prop :=
  ∀ (s : State) (ov : Option SReg) (i : Instr) (k : EventKind) (v : Byte) (g d : BitVec 64), MemInv s →
    ((∃ n, i = .intN ov n ∧ k = .intN ∧ v = n) ∨ (i = .int3 ov ∧ k = .int3 ∧ v = 3)
      ∨ i = .into ov ∧ flag s.eflags bitOF = true ∧ k = .into ∧ v = 4) →
    GateAdmits s k v g → EntryOk s g d →
    (descDpl d = s.cpl →
      (Writable s .ss (s.esp - 12) 12 → ∃ t, exec i s = .next t ∧ EnteredSame s t (s.nextEip i) none g d)
      ∧ ∀ x, segCheck s .ss (s.esp - 12) 12 .write = .error (.raise x) → exec i s = takeException s (.ss 0))
    ∧ (descDpl d < s.cpl →
      (∀ nSS nEsp ds, InnerStackOk s (descDpl d) none nSS nEsp ds →
        ∃ t, exec i s = .next t ∧ EnteredInner s t (s.nextEip i) none g d nSS nEsp ds)
      ∧ (∀ f, InnerStackStop s (descDpl d) f → exec i s = .fault f)
      ∧ (InnerFrameOutside s (descDpl d) none → exec i s = .fault (.duringDelivery v)))

/-- INT n, INT 3 and INTO through a gate whose DPL is more privileged than CPL take GP(8n + 2).
Rests on: 60_exceptions.md R368, 60_exceptions.md R371, 44_interrupt_instructions.md R290, 44_interrupt_instructions.md R291, 44_interrupt_instructions.md R292.
The model's own choices: log entry 28. -/
def Obligations.GatePrivilegeFault : Prop :=
  ∀ (s : State) (ov : Option SReg) (i : Instr) (n : Byte) (g : BitVec 64), 8 * n.toNat + 7 ≤ s.idtr.limit.toNat →
    linRead s (s.idtr.base + BitVec.ofNat 32 (8 * n.toNat)) 8 = .ok g →
    (gateKind s.cfg g = .interrupt ∨ gateKind s.cfg g = .trap) → descDpl g < s.cpl →
    (i = .intN ov n ∧ EventKind.intN ∈ s.cfg.gateDplCheckedFor
      ∨ i = .int3 ov ∧ n = 3 ∧ (EventKind.int3 ∈ s.cfg.gateDplCheckedFor ∨ EventKind.intN ∈ s.cfg.gateDplCheckedFor)
      ∨ i = .into ov ∧ n = 4 ∧ flag s.eflags bitOF = true ∧ EventKind.into ∈ s.cfg.gateDplCheckedFor) →
    exec i s = takeException s (.gp (BitVec.ofNat 16 (8 * n.toNat + 2)))

/-- INTO with OF = 0 and BOUND within its bounds only advance EIP; BOUND outside them takes exception 5.
Rests on: 44_interrupt_instructions.md R292, 44_interrupt_instructions.md R293, 60_exceptions.md R360. -/
def Obligations.IntoAndBoundOutcomes : Prop :=
  ∀ (s : State) (ov : Option SReg),
    (flag s.eflags bitOF = false → exec (.into ov) s = .next { s with eip := s.nextEip (.into ov) })
    ∧ ∀ (r : Reg) (m : MemRef) (lo hi : Word), readMem s ov m 0 4 = .ok lo → readMem s ov m 4 4 = .ok hi →
      exec (.bound ov r m) s =
        if lo.toInt ≤ (s.reg r).toInt ∧ (s.reg r).toInt ≤ hi.toInt then .next { s with eip := s.nextEip (.bound ov r m) }
        else takeException s .br

/-- Taking an exception, INTR or NMI: the frame holds the EIP of the instruction, and the error code where the vector has one.
Rests on: 60_exceptions.md R360, 60_exceptions.md R352, 60_exceptions.md R353, 60_exceptions.md R370, 60_exceptions.md R372, 60_exceptions.md R373, 60_exceptions.md R374, 60_exceptions.md R375, 60_exceptions.md R378, 60_exceptions.md R379, 20_memory.md R103.
The model's own choices: log entries 9, 19 and 20. -/
def Obligations.ExceptionEntersHandler : Prop :=
  ∀ (s : State) (out : Out) (k : EventKind) (v : Byte) (e : Option Half), MemInv s → EventDelivered s out k v e →
    (s.idtr.limit.toNat < 8 * v.toNat + 7 → out = .fault (.duringDelivery v))
    ∧ ∀ g d : BitVec 64, GateAdmits s k v g → EntryOk s g d →
      let code := pushedCode s.cfg v e
      let size := frameSize code
      (descDpl d = s.cpl →
        (Writable s .ss (s.esp - BitVec.ofNat 32 size) size → ∃ t, out = .next t ∧ EnteredSame s t s.eip code g d)
        ∧ ∀ x, segCheck s .ss (s.esp - BitVec.ofNat 32 size) size .write = .error (.raise x) →
          out = .fault (.duringDelivery v))
      ∧ (descDpl d < s.cpl →
        (∀ nSS nEsp ds, InnerStackOk s (descDpl d) code nSS nEsp ds →
          ∃ t, out = .next t ∧ EnteredInner s t s.eip code g d nSS nEsp ds)
        ∧ (∀ f, InnerStackStop s (descDpl d) f → out = .fault f)
        ∧ (InnerFrameOutside s (descDpl d) code → out = .fault (.duringDelivery v)))

/-- INTR with IF = 1, and NMI whatever IF is, are delivered between instructions; INTR with IF = 0 waits.
Rests on: 60_exceptions.md R350, 60_exceptions.md R351, 60_exceptions.md R352, 60_exceptions.md R353, 60_exceptions.md R372.
The model's own choices: log entry 12. -/
def Obligations.HardwareInterrupts : Prop :=
  ∀ (s : State) (coming : List (List Request)), s.cfg.stopEip ≠ some s.eip → flag s.eflags bitTF = false →
    flag s.eflags bitVM = false →
    (∀ v, s.shadow = false → s.oracle = [.intr v] :: coming → flag s.eflags bitIF = true →
      step s = deliverOrStop { s with oracle := coming } .external v none s.eip)
    ∧ (s.shadow = false → s.oracle = [.nmi] :: coming → s.nmiBlocked = false →
      step s = deliverOrStop { s with oracle := coming, nmiBlocked := true } .external 2 none s.eip)
    ∧ ∀ waiting next, waiting ≠ [] → s.oracle = waiting :: next :: coming →
      (s.shadow = true ∨ flag s.eflags bitIF = false ∧ ∀ r ∈ waiting, r ≠ .nmi) →
      boundary s = (none, { s with shadow := false, oracle := (waiting ++ next) :: coming })

/-- IRET completes at the same level.
Rests on: 44_interrupt_instructions.md R300, 44_interrupt_instructions.md R301, 42_control_transfer.md R256.
The model's own choices: log entry 12. -/
def Obligations.ReturnFromInterruptSameLevel : Prop :=
  ∀ (s : State) (ov : Option SReg) (off slot image : Word) (d : BitVec 64), MemInv s → flag s.eflags bitNT = false →
    (s.cpl = 0 → flag image bitVM = false) → segCheck s .ss s.esp 12 .read = .ok () →
    HoldsDwords s (s.linear .ss s.esp) [off, slot, image] → ReturnTargetOk s (slot.extractLsb' 0 16) off d s.cpl →
    ∃ u, Accessed s u (slot.extractLsb' 0 16) d ∧ exec (.iret ov) s = .next { s with
      regs := { s.regs with esp := s.esp + 12 }
      segs := { s.segs with cs := loadedCS s.cfg (slot.extractLsb' 0 16) d s.cpl }
      eip := off
      eflags := restoredFlags s.eflags image s.cpl
      mem := u.mem
      written := u.written
      nmiBlocked := false }

/-- IRET completes to a less privileged level.
Rests on: 44_interrupt_instructions.md R300, 44_interrupt_instructions.md R301, 42_control_transfer.md R256, 20_memory.md R103.
The model's own choices: log entries 12 and 19. -/
def Obligations.ReturnFromInterruptOuterLevel : Prop :=
  ∀ (s : State) (ov : Option SReg) (off slot image esp ssSlot : Word) (d ds : BitVec 64) (lvl : Level), MemInv s →
    flag s.eflags bitNT = false → (s.cpl = 0 → flag image bitVM = false) → segCheck s .ss s.esp 12 .read = .ok () →
    HoldsDwords s (s.linear .ss s.esp) [off, slot, image] → ReturnTargetOk s (slot.extractLsb' 0 16) off d lvl →
    lvl ≠ s.cpl → segCheck s .ss (s.esp + 12) 8 .read = .ok () →
    HoldsDwords s (s.linear .ss (s.esp + 12)) [esp, ssSlot] → ReturnStackOk s lvl (ssSlot.extractLsb' 0 16) ds →
    ∃ u w, Accessed s u (slot.extractLsb' 0 16) d ∧ Accessed u w (ssSlot.extractLsb' 0 16) ds
      ∧ exec (.iret ov) s = .next { s with
        regs := { s.regs with esp := esp }
        segs :=
          { cs := loadedCS s.cfg (slot.extractLsb' 0 16) d lvl
            ss := { sel := ssSlot.extractLsb' 0 16, cache := cacheOf ds lvl }
            ds := emptyIfInner lvl s.segs.ds
            es := emptyIfInner lvl s.segs.es
            fs := emptyIfInner lvl s.segs.fs
            gs := emptyIfInner lvl s.segs.gs }
        eip := off
        eflags := restoredFlags s.eflags image s.cpl
        mem := w.mem
        written := w.written
        nmiBlocked := false }

/-- Which flags entry through a gate clears and which IRET restores, bit by bit.
Rests on: 60_exceptions.md R376, 60_exceptions.md R370, 44_interrupt_instructions.md R301. -/
def Obligations.FlagsOfEntryAndReturn : Prop :=
  (∀ (f : Word) (interruptGate : Bool) (i : Nat), i < 32 →
    flag (entryFlags f interruptGate) i =
      if i = 8 ∨ i = 14 ∨ i = 9 ∧ interruptGate = true then false else flag f i)
  ∧ ∀ (f n : Word) (old : Level) (i : Nat), i < 32 →
    flag (restoredFlags f n old) i =
      if i ∈ [0, 2, 4, 6, 7, 8, 10, 11, 14, 16] ∨ i = 9 ∧ old ≤ iopl f ∨ (i = 12 ∨ i = 13) ∧ old = 0 then flag n i
      else flag f i

/-- MOV r32,r/m32, MOV r8,r/m8, MOV r32,imm32 and MOV r8,imm8 complete.
Rests on: 45_carrier.md R312, 45_carrier.md R313, 45_carrier.md R314, 45_carrier.md R315, 10_state.md R22. -/
def Obligations.MoveToRegister : Prop :=
  ∀ (s : State) (ov : Option SReg) (i : Instr),
    (∀ r v, ((∃ op, i = .movR32Rm32 ov r op ∧ readRM32 s ov op = .ok v) ∨ i = .movR32Imm32 ov r v) →
      exec i s = .next { s with regs := s.regs.set r v, eip := s.nextEip i })
    ∧ ∀ (r : Reg8) (v : Byte), ((∃ op, i = .movR8Rm8 ov r op ∧ readRM8 s ov op = .ok v) ∨ i = .movR8Imm8 ov r v) →
      exec i s = .next { s with
        regs := s.regs.set (Reg8.whole r) (putByte (s.reg (Reg8.whole r)) (Reg8.high r) v)
        eip := s.nextEip i }

/-- MOV r/m32,r32; r/m32,imm32; r/m8,r8 and r/m8,imm8 complete.
Rests on: 45_carrier.md R310, 45_carrier.md R311, 45_carrier.md R316, 45_carrier.md R317, 40_addressing.md R190, 10_state.md R22. -/
def Obligations.MoveToOperand : Prop :=
  ∀ (s : State) (ov : Option SReg) (i : Instr),
    (∀ op v, ((∃ r, i = .movRm32R32 ov op r ∧ v = s.reg r) ∨ i = .movRm32Imm32 ov op v) →
      (∀ r, op = .reg r → exec i s = .next { s with regs := s.regs.set r v, eip := s.nextEip i })
      ∧ ∀ m, op = .mem m → MemInv s → Writable s (operandSeg s.cfg ov m) (s.ea m) 4 →
        ∃ t, exec i s = .next t ∧ Stored s t (s.linear (operandSeg s.cfg ov m) (s.ea m)) 4 v
          ∧ t = { s with eip := s.nextEip i, mem := t.mem, written := t.written })
    ∧ ∀ op v, ((∃ r, i = .movRm8R8 ov op r ∧ v = s.reg8 r) ∨ i = .movRm8Imm8 ov op v) →
      (∀ r, op = .reg r → exec i s = .next { s with
        regs := s.regs.set (Reg8.whole r) (putByte (s.reg (Reg8.whole r)) (Reg8.high r) v)
        eip := s.nextEip i })
      ∧ ∀ m, op = .mem m → MemInv s → Writable s (operandSeg s.cfg ov m) (s.ea m) 1 →
        ∃ t, exec i s = .next t ∧ Stored s t (s.linear (operandSeg s.cfg ov m) (s.ea m)) 1 v
          ∧ t = { s with eip := s.nextEip i, mem := t.mem, written := t.written }

/-- LEA and NOP complete in every state.
Rests on: 45_carrier.md R320, 45_carrier.md R330. -/
def Obligations.LeaAndNopComplete : Prop :=
  ∀ (s : State) (ov : Option SReg),
    (∀ r m, exec (.lea ov r m) s = .next { s with regs := s.regs.set r (s.ea m), eip := s.nextEip (.lea ov r m) })
      ∧ exec (.nop ov) s = .next { s with eip := s.nextEip (.nop ov) }

/-- ADD completes in its four forms.
Rests on: 45_carrier.md R322, 45_carrier.md R323, 45_carrier.md R324, 45_carrier.md R325, 45_carrier.md R326. -/
def Obligations.AddCompletes : Prop :=
  ∀ (s : State) (ov : Option SReg),
    (∀ i op a b, ((∃ r, i = .addRm32R32 ov op r ∧ b = s.reg r) ∨ i = .addRm32Imm32 ov op b
        ∨ ∃ imm, i = .addRm32Imm8 ov op imm ∧ b = imm.signExtend 32) →
      readRM32 s ov op = .ok a →
      (∀ r, op = .reg r → exec i s = .next { s with
        regs := s.regs.set r (a + b)
        eflags := addFlags s.eflags a b
        eip := s.nextEip i })
      ∧ ∀ m, op = .mem m → MemInv s → Writable s (operandSeg s.cfg ov m) (s.ea m) 4 →
        ∃ t, exec i s = .next t ∧ Stored s t (s.linear (operandSeg s.cfg ov m) (s.ea m)) 4 (a + b)
          ∧ t = { s with eflags := addFlags s.eflags a b, eip := s.nextEip i, mem := t.mem, written := t.written })
    ∧ ∀ r op b, readRM32 s ov op = .ok b → exec (.addR32Rm32 ov r op) s = .next { s with
      regs := s.regs.set r (s.reg r + b)
      eflags := addFlags s.eflags (s.reg r) b
      eip := s.nextEip (.addR32Rm32 ov r op) }

/-- The flags of ADD.
Rests on: 45_carrier.md R322. -/
def Obligations.AddFlagsMeaning : Prop :=
  ∀ (f a b : Word),
    let r := a + b
    let f' := addFlags f a b
    let ones := ((List.range 8).filter (fun k => r.getLsbD k)).length
    flag f' 0 = decide (2 ^ 32 ≤ a.toNat + b.toNat)
      ∧ flag f' 11 = decide (a.getLsbD 31 = b.getLsbD 31 ∧ r.getLsbD 31 ≠ a.getLsbD 31)
      ∧ flag f' 6 = decide (r = 0) ∧ flag f' 7 = r.getLsbD 31 ∧ flag f' 2 = decide (ones % 2 = 0)
      ∧ flag f' 4 = (a.getLsbD 4 ^^ b.getLsbD 4 ^^ r.getLsbD 4)
      ∧ ∀ i < 32, i ∉ [0, 2, 4, 6, 7, 11] → flag f' i = flag f i

/-- The reset state satisfies the launch premises and every invariant.
Rests on: 70_reset_and_hazards.md R421.
The model's own choices: log entries 1, 2, 3, 4, 5, 6, 7 and 8. -/
def Obligations.ResetIsALaunchState : Prop := launch State.reset = .next State.reset ∧ Inv State.reset

/-- Every step keeps memory and the record of written addresses canonical.
Rests on: 20_memory.md R62, 20_memory.md R123.
The model's own choices: log entries 8 and 17. -/
def Obligations.MemoryFormKept : Prop := ∀ s t : State, MemInv s → step s = .next t → MemInv t

/-- Every step keeps the segment registers lawful.
Rests on: 10_state.md R33, 10_state.md R34, 20_memory.md R100, 20_memory.md R104.
The model's own choices: log entry 24. -/
def Obligations.SegmentRegistersKept : Prop := ∀ s t : State, SegInv s → step s = .next t → SegInv t

/-- Every step keeps the fixed bits of EFLAGS.
Rests on: 10_state.md R27, 44_interrupt_instructions.md R301. -/
def Obligations.ReservedFlagsKept : Prop := ∀ s t : State, FlagsInv s.eflags → step s = .next t → FlagsInv t.eflags

/-- Only entry through a gate raises privilege and only far RET and IRET lower it.
Rests on: 42_control_transfer.md R258, 60_exceptions.md R386, 60_exceptions.md R388. -/
def Obligations.PrivilegeChangesOnlyByGateOrReturn : Prop :=
  ∀ (i : Instr) (s t : State), exec i s = .next t →
    (s.cpl < t.cpl → ∃ ov, i = .retFar ov ∨ (∃ imm, i = .retFarImm16 ov imm) ∨ i = .iret ov)
    ∧ (t.cpl < s.cpl → ∃ k v e p, deliver s k v e p = .ok t)

/-- At any level but 0 no instruction changes GDTR, IDTR, TR or IOPL, nor sets IF above IOPL.
Rests on: 60_exceptions.md R387, 43_segment_system.md R275, 44_interrupt_instructions.md R301. -/
def Obligations.UserLeavesSystemRegistersAlone : Prop :=
  ∀ (i : Instr) (s t : State), exec i s = .next t → s.cpl ≠ 0 →
    t.gdtr = s.gdtr ∧ t.idtr = s.idtr ∧ t.tr = s.tr ∧ iopl t.eflags = iopl s.eflags
      ∧ (iopl s.eflags < s.cpl → flag t.eflags bitIF = true → flag s.eflags bitIF = true)

/-- Where SegCheck of an operand or of the stack raises an exception, it is taken from the state before the instruction.
Rests on: 20_memory.md R95, 20_memory.md R96, 40_addressing.md R190, 40_addressing.md R207, 41_stack.md R224, 41_stack.md R226, 41_stack.md R228, 41_stack.md R229, 42_control_transfer.md R256, 43_segment_system.md R276, 45_carrier.md R323, 60_exceptions.md R360.
The model's own choices: log entry 22. -/
def Obligations.OperandChecksRaise : Prop :=
  ∀ (s : State) (i : Instr) (x : Exc),
    let raises := fun (r : SReg) (off : Word) (n : Nat) (k : Access) => segCheck s r off n k = .error (.raise x)
    (∀ ov m reads before d n rest, OperandReads i ov m reads → (Privileged i → s.cpl = 0) →
      reads = before ++ (d, n) :: rest → (∀ q ∈ before, ∃ v, readMem s ov m q.1 q.2 = .ok v) →
      raises (operandSeg s.cfg ov m) (s.ea m + d) n .read → exec i s = takeException s x)
    ∧ (∀ ov m n, OperandWrite s i ov m n → raises (operandSeg s.cfg ov m) (s.ea m) n .write → exec i s = takeException s x)
    ∧ (∀ ov m v, i = .popRm32 ov (.mem m) → segRead s .ss s.esp 4 = .ok v →
      raises (operandSeg s.cfg ov m) (effAddr { s.regs with esp := s.esp + 4 } m) 4 .write → exec i s = takeException s x)
    ∧ (∀ n, StackRead s i n → raises .ss s.esp n .read → exec i s = takeException s x)
    ∧ (∀ ov, i = .pusha ov →
      (¬(0 < s.esp.toNat ∧ s.esp.toNat < 32) → raises .ss (s.esp - 32) 32 .write → exec i s = takeException s x)
      ∧ (0 < s.esp.toNat → s.esp.toNat < 32 →
        (raises .ss (s.esp - 32) (32 - s.esp.toNat) .write
          ∨ segCheck s .ss (s.esp - 32) (32 - s.esp.toNat) .write = .ok () ∧ raises .ss 0 s.esp.toNat .write) →
        exec i s = takeException s x))
    ∧ (∀ target, NearCall s i target → target ≤ effLimit s.segs.cs.cache.limit s.segs.cs.cache.g →
      raises .ss (s.esp - 4) 4 .write → exec i s = takeException s x)
    ∧ (∀ off sel d, FarPointer s i true off sel → FarTargetOk s sel off d → raises .ss (s.esp - 8) 8 .write →
      exec i s = takeException s x)
    ∧ ∀ r, PushesSegment i r →
      (raises .ss (s.esp - 4) 2 .write ∨ Writable s .ss (s.esp - 4) 2 ∧ raises .ss (s.esp - 4) 4 .write) →
      exec i s = takeException s x
end

