-- ==== Sys2Proof/Laws/Res.lean ====
section
/-! SUPPORT. Taking results apart: what it means that a chain of operations, or a condition of the pseudocode, went through. -/

namespace Sys2Proof.Machine

open Sys2Proof

@[simp] theorem ok_bind {α β : Type} (a : α) (f : α → Res β) : ((Except.ok a : Res α) >>= f) = f a := rfl

@[simp] theorem error_bind {α β : Type} (e : Abort) (f : α → Res β) : ((Except.error e : Res α) >>= f) = .error e := rfl

@[simp] theorem pure_eq_ok {α : Type} (a : α) : (pure a : Res α) = .ok a := rfl

@[simp] theorem exists_unit {p : Unit → Prop} : (∃ u, p u) ↔ p () := ⟨fun ⟨_, h⟩ => h, fun h => ⟨(), h⟩⟩

/-- A chain answers only if its first part does. -/
theorem bind_eq_ok {α β : Type} {x : Res α} {f : α → Res β} {b : β} :
    (x >>= f) = .ok b ↔ ∃ a, x = .ok a ∧ f a = .ok b := by
  cases x <;> simp

@[simp] theorem raiseIf_ok {c : Bool} {x : Exc} {u : Unit} : raiseIf c x = .ok u ↔ c = false := by
  cases c <;> simp [raiseIf]

@[simp] theorem refuseIf_ok {c : Bool} {r : Refusal} {u : Unit} : refuseIf c r = .ok u ↔ c = false := by
  cases c <;> simp [refuseIf]

@[simp] theorem stopIf_ok {c : Bool} {f : Fault} {u : Unit} : stopIf c f = .ok u ↔ c = false := by
  cases c <;> simp [stopIf]

@[simp] theorem raiseIf_false (x : Exc) : raiseIf false x = .ok () := rfl
@[simp] theorem raiseIf_true (x : Exc) : raiseIf true x = .error (.raise x) := rfl
@[simp] theorem refuseIf_false (r : Refusal) : refuseIf false r = .ok () := rfl
@[simp] theorem refuseIf_true (r : Refusal) : refuseIf true r = .error (.refuse r) := rfl
@[simp] theorem stopIf_false (f : Fault) : stopIf false f = .ok () := rfl
@[simp] theorem stopIf_true (f : Fault) : stopIf true f = .error (.stop f) := rfl

@[simp] theorem settle_ok (s t : State) : settle s (.ok t) = .next t := rfl
@[simp] theorem settle_raise (s : State) (x : Exc) : settle s (.error (.raise x)) = takeException s x := rfl
@[simp] theorem settle_refuse (s : State) (r : Refusal) : settle s (.error (.refuse r)) = .refused r := rfl
@[simp] theorem settle_stop (s : State) (f : Fault) : settle s (.error (.stop f)) = .fault f := rfl

/-- Everything an instruction can come to: its own effect, or a delivery of an exception it raised from its first state. -/
theorem settle_eq_next {s t : State} {r : Res State} (h : settle s r = .next t) :
    r = .ok t ∨ ∃ x, r = .error (.raise x) ∧ takeException s x = .next t := by
  match r with
  | .ok u => exact .inl (by simpa using h)
  | .error (.raise x) => exact .inr ⟨x, rfl, h⟩
  | .error (.refuse _) => cases h
  | .error (.stop _) => cases h

/-- An exception or hardware interrupt was taken only if `deliver` answered. -/
theorem deliverOrStop_eq_next {s t : State} {k : EventKind} {v : Byte} {e : Option Half} {p : Word}
    (h : deliverOrStop s k v e p = .next t) : deliver s k v e p = .ok t := by
  unfold deliverOrStop at h
  split at h
  · rename_i u hu
    rw [hu]
    exact congrArg _ (by simpa using h)
  all_goals cases h

end Sys2Proof.Machine
end

