-- ==== Sys2Proof/Laws/State.lean ====
section
/-! SUPPORT. What each named update of the state does to each field, true by unfolding. -/

namespace Sys2Proof.Machine

open Sys2Proof

variable (s : State)

@[simp] theorem State.setReg_regs (r : Reg) (v : Word) : (s.setReg r v).regs = s.regs.set r v := rfl
@[simp] theorem State.setReg_eip (r : Reg) (v : Word) : (s.setReg r v).eip = s.eip := rfl
@[simp] theorem State.setReg_eflags (r : Reg) (v : Word) : (s.setReg r v).eflags = s.eflags := rfl
@[simp] theorem State.setReg_segs (r : Reg) (v : Word) : (s.setReg r v).segs = s.segs := rfl
@[simp] theorem State.setReg_gdtr (r : Reg) (v : Word) : (s.setReg r v).gdtr = s.gdtr := rfl
@[simp] theorem State.setReg_idtr (r : Reg) (v : Word) : (s.setReg r v).idtr = s.idtr := rfl
@[simp] theorem State.setReg_tr (r : Reg) (v : Word) : (s.setReg r v).tr = s.tr := rfl
@[simp] theorem State.setReg_mem (r : Reg) (v : Word) : (s.setReg r v).mem = s.mem := rfl
@[simp] theorem State.setReg_written (r : Reg) (v : Word) : (s.setReg r v).written = s.written := rfl
@[simp] theorem State.setReg_oracle (r : Reg) (v : Word) : (s.setReg r v).oracle = s.oracle := rfl
@[simp] theorem State.setReg_shadow (r : Reg) (v : Word) : (s.setReg r v).shadow = s.shadow := rfl
@[simp] theorem State.setReg_nmiBlocked (r : Reg) (v : Word) : (s.setReg r v).nmiBlocked = s.nmiBlocked := rfl
@[simp] theorem State.setReg_freeCount (r : Reg) (v : Word) : (s.setReg r v).freeCount = s.freeCount := rfl
@[simp] theorem State.setReg_cfg (r : Reg) (v : Word) : (s.setReg r v).cfg = s.cfg := rfl

@[simp] theorem State.setReg8_regs (r : Reg8) (v : Byte) : (s.setReg8 r v).regs = s.regs.set (Reg8.whole r) (putByte (s.reg (Reg8.whole r)) (Reg8.high r) v) := rfl
@[simp] theorem State.setReg8_eip (r : Reg8) (v : Byte) : (s.setReg8 r v).eip = s.eip := rfl
@[simp] theorem State.setReg8_eflags (r : Reg8) (v : Byte) : (s.setReg8 r v).eflags = s.eflags := rfl
@[simp] theorem State.setReg8_segs (r : Reg8) (v : Byte) : (s.setReg8 r v).segs = s.segs := rfl
@[simp] theorem State.setReg8_gdtr (r : Reg8) (v : Byte) : (s.setReg8 r v).gdtr = s.gdtr := rfl
@[simp] theorem State.setReg8_idtr (r : Reg8) (v : Byte) : (s.setReg8 r v).idtr = s.idtr := rfl
@[simp] theorem State.setReg8_tr (r : Reg8) (v : Byte) : (s.setReg8 r v).tr = s.tr := rfl
@[simp] theorem State.setReg8_mem (r : Reg8) (v : Byte) : (s.setReg8 r v).mem = s.mem := rfl
@[simp] theorem State.setReg8_written (r : Reg8) (v : Byte) : (s.setReg8 r v).written = s.written := rfl
@[simp] theorem State.setReg8_oracle (r : Reg8) (v : Byte) : (s.setReg8 r v).oracle = s.oracle := rfl
@[simp] theorem State.setReg8_shadow (r : Reg8) (v : Byte) : (s.setReg8 r v).shadow = s.shadow := rfl
@[simp] theorem State.setReg8_nmiBlocked (r : Reg8) (v : Byte) : (s.setReg8 r v).nmiBlocked = s.nmiBlocked := rfl
@[simp] theorem State.setReg8_freeCount (r : Reg8) (v : Byte) : (s.setReg8 r v).freeCount = s.freeCount := rfl
@[simp] theorem State.setReg8_cfg (r : Reg8) (v : Byte) : (s.setReg8 r v).cfg = s.cfg := rfl

@[simp] theorem State.setReg16_regs (r : Reg) (v : Half) : (s.setReg16 r v).regs = s.regs.set r ((s.reg r).extractLsb' 16 16 ++ v) := rfl
@[simp] theorem State.setReg16_eip (r : Reg) (v : Half) : (s.setReg16 r v).eip = s.eip := rfl
@[simp] theorem State.setReg16_eflags (r : Reg) (v : Half) : (s.setReg16 r v).eflags = s.eflags := rfl
@[simp] theorem State.setReg16_segs (r : Reg) (v : Half) : (s.setReg16 r v).segs = s.segs := rfl
@[simp] theorem State.setReg16_gdtr (r : Reg) (v : Half) : (s.setReg16 r v).gdtr = s.gdtr := rfl
@[simp] theorem State.setReg16_idtr (r : Reg) (v : Half) : (s.setReg16 r v).idtr = s.idtr := rfl
@[simp] theorem State.setReg16_tr (r : Reg) (v : Half) : (s.setReg16 r v).tr = s.tr := rfl
@[simp] theorem State.setReg16_mem (r : Reg) (v : Half) : (s.setReg16 r v).mem = s.mem := rfl
@[simp] theorem State.setReg16_written (r : Reg) (v : Half) : (s.setReg16 r v).written = s.written := rfl
@[simp] theorem State.setReg16_oracle (r : Reg) (v : Half) : (s.setReg16 r v).oracle = s.oracle := rfl
@[simp] theorem State.setReg16_shadow (r : Reg) (v : Half) : (s.setReg16 r v).shadow = s.shadow := rfl
@[simp] theorem State.setReg16_nmiBlocked (r : Reg) (v : Half) : (s.setReg16 r v).nmiBlocked = s.nmiBlocked := rfl
@[simp] theorem State.setReg16_freeCount (r : Reg) (v : Half) : (s.setReg16 r v).freeCount = s.freeCount := rfl
@[simp] theorem State.setReg16_cfg (r : Reg) (v : Half) : (s.setReg16 r v).cfg = s.cfg := rfl

@[simp] theorem State.setEsp_regs (v : Word) : (s.setEsp v).regs = { s.regs with esp := v } := rfl
@[simp] theorem State.setEsp_eip (v : Word) : (s.setEsp v).eip = s.eip := rfl
@[simp] theorem State.setEsp_eflags (v : Word) : (s.setEsp v).eflags = s.eflags := rfl
@[simp] theorem State.setEsp_segs (v : Word) : (s.setEsp v).segs = s.segs := rfl
@[simp] theorem State.setEsp_gdtr (v : Word) : (s.setEsp v).gdtr = s.gdtr := rfl
@[simp] theorem State.setEsp_idtr (v : Word) : (s.setEsp v).idtr = s.idtr := rfl
@[simp] theorem State.setEsp_tr (v : Word) : (s.setEsp v).tr = s.tr := rfl
@[simp] theorem State.setEsp_mem (v : Word) : (s.setEsp v).mem = s.mem := rfl
@[simp] theorem State.setEsp_written (v : Word) : (s.setEsp v).written = s.written := rfl
@[simp] theorem State.setEsp_oracle (v : Word) : (s.setEsp v).oracle = s.oracle := rfl
@[simp] theorem State.setEsp_shadow (v : Word) : (s.setEsp v).shadow = s.shadow := rfl
@[simp] theorem State.setEsp_nmiBlocked (v : Word) : (s.setEsp v).nmiBlocked = s.nmiBlocked := rfl
@[simp] theorem State.setEsp_freeCount (v : Word) : (s.setEsp v).freeCount = s.freeCount := rfl
@[simp] theorem State.setEsp_cfg (v : Word) : (s.setEsp v).cfg = s.cfg := rfl

@[simp] theorem State.setSeg_regs (r : SReg) (v : SegReg) : (s.setSeg r v).regs = s.regs := rfl
@[simp] theorem State.setSeg_eip (r : SReg) (v : SegReg) : (s.setSeg r v).eip = s.eip := rfl
@[simp] theorem State.setSeg_eflags (r : SReg) (v : SegReg) : (s.setSeg r v).eflags = s.eflags := rfl
@[simp] theorem State.setSeg_segs (r : SReg) (v : SegReg) : (s.setSeg r v).segs = s.segs.set r v := rfl
@[simp] theorem State.setSeg_gdtr (r : SReg) (v : SegReg) : (s.setSeg r v).gdtr = s.gdtr := rfl
@[simp] theorem State.setSeg_idtr (r : SReg) (v : SegReg) : (s.setSeg r v).idtr = s.idtr := rfl
@[simp] theorem State.setSeg_tr (r : SReg) (v : SegReg) : (s.setSeg r v).tr = s.tr := rfl
@[simp] theorem State.setSeg_mem (r : SReg) (v : SegReg) : (s.setSeg r v).mem = s.mem := rfl
@[simp] theorem State.setSeg_written (r : SReg) (v : SegReg) : (s.setSeg r v).written = s.written := rfl
@[simp] theorem State.setSeg_oracle (r : SReg) (v : SegReg) : (s.setSeg r v).oracle = s.oracle := rfl
@[simp] theorem State.setSeg_shadow (r : SReg) (v : SegReg) : (s.setSeg r v).shadow = s.shadow := rfl
@[simp] theorem State.setSeg_nmiBlocked (r : SReg) (v : SegReg) : (s.setSeg r v).nmiBlocked = s.nmiBlocked := rfl
@[simp] theorem State.setSeg_freeCount (r : SReg) (v : SegReg) : (s.setSeg r v).freeCount = s.freeCount := rfl
@[simp] theorem State.setSeg_cfg (r : SReg) (v : SegReg) : (s.setSeg r v).cfg = s.cfg := rfl

@[simp] theorem State.jump_regs (v : Word) : (s.jump v).regs = s.regs := rfl
@[simp] theorem State.jump_eip (v : Word) : (s.jump v).eip = v := rfl
@[simp] theorem State.jump_eflags (v : Word) : (s.jump v).eflags = s.eflags := rfl
@[simp] theorem State.jump_segs (v : Word) : (s.jump v).segs = s.segs := rfl
@[simp] theorem State.jump_gdtr (v : Word) : (s.jump v).gdtr = s.gdtr := rfl
@[simp] theorem State.jump_idtr (v : Word) : (s.jump v).idtr = s.idtr := rfl
@[simp] theorem State.jump_tr (v : Word) : (s.jump v).tr = s.tr := rfl
@[simp] theorem State.jump_mem (v : Word) : (s.jump v).mem = s.mem := rfl
@[simp] theorem State.jump_written (v : Word) : (s.jump v).written = s.written := rfl
@[simp] theorem State.jump_oracle (v : Word) : (s.jump v).oracle = s.oracle := rfl
@[simp] theorem State.jump_shadow (v : Word) : (s.jump v).shadow = s.shadow := rfl
@[simp] theorem State.jump_nmiBlocked (v : Word) : (s.jump v).nmiBlocked = s.nmiBlocked := rfl
@[simp] theorem State.jump_freeCount (v : Word) : (s.jump v).freeCount = s.freeCount := rfl
@[simp] theorem State.jump_cfg (v : Word) : (s.jump v).cfg = s.cfg := rfl

@[simp] theorem State.setFlags_regs (v : Word) : (s.setFlags v).regs = s.regs := rfl
@[simp] theorem State.setFlags_eip (v : Word) : (s.setFlags v).eip = s.eip := rfl
@[simp] theorem State.setFlags_eflags (v : Word) : (s.setFlags v).eflags = v := rfl
@[simp] theorem State.setFlags_segs (v : Word) : (s.setFlags v).segs = s.segs := rfl
@[simp] theorem State.setFlags_gdtr (v : Word) : (s.setFlags v).gdtr = s.gdtr := rfl
@[simp] theorem State.setFlags_idtr (v : Word) : (s.setFlags v).idtr = s.idtr := rfl
@[simp] theorem State.setFlags_tr (v : Word) : (s.setFlags v).tr = s.tr := rfl
@[simp] theorem State.setFlags_mem (v : Word) : (s.setFlags v).mem = s.mem := rfl
@[simp] theorem State.setFlags_written (v : Word) : (s.setFlags v).written = s.written := rfl
@[simp] theorem State.setFlags_oracle (v : Word) : (s.setFlags v).oracle = s.oracle := rfl
@[simp] theorem State.setFlags_shadow (v : Word) : (s.setFlags v).shadow = s.shadow := rfl
@[simp] theorem State.setFlags_nmiBlocked (v : Word) : (s.setFlags v).nmiBlocked = s.nmiBlocked := rfl
@[simp] theorem State.setFlags_freeCount (v : Word) : (s.setFlags v).freeCount = s.freeCount := rfl
@[simp] theorem State.setFlags_cfg (v : Word) : (s.setFlags v).cfg = s.cfg := rfl

@[simp] theorem State.inShadow_regs : (s.inShadow).regs = s.regs := rfl
@[simp] theorem State.inShadow_eip : (s.inShadow).eip = s.eip := rfl
@[simp] theorem State.inShadow_eflags : (s.inShadow).eflags = s.eflags := rfl
@[simp] theorem State.inShadow_segs : (s.inShadow).segs = s.segs := rfl
@[simp] theorem State.inShadow_gdtr : (s.inShadow).gdtr = s.gdtr := rfl
@[simp] theorem State.inShadow_idtr : (s.inShadow).idtr = s.idtr := rfl
@[simp] theorem State.inShadow_tr : (s.inShadow).tr = s.tr := rfl
@[simp] theorem State.inShadow_mem : (s.inShadow).mem = s.mem := rfl
@[simp] theorem State.inShadow_written : (s.inShadow).written = s.written := rfl
@[simp] theorem State.inShadow_oracle : (s.inShadow).oracle = s.oracle := rfl
@[simp] theorem State.inShadow_shadow : (s.inShadow).shadow = true := rfl
@[simp] theorem State.inShadow_nmiBlocked : (s.inShadow).nmiBlocked = s.nmiBlocked := rfl
@[simp] theorem State.inShadow_freeCount : (s.inShadow).freeCount = s.freeCount := rfl
@[simp] theorem State.inShadow_cfg : (s.inShadow).cfg = s.cfg := rfl

@[simp] theorem State.putByteAt_regs (a : Nat) (v : Byte) : (s.putByteAt a v).regs = s.regs := rfl
@[simp] theorem State.putByteAt_eip (a : Nat) (v : Byte) : (s.putByteAt a v).eip = s.eip := rfl
@[simp] theorem State.putByteAt_eflags (a : Nat) (v : Byte) : (s.putByteAt a v).eflags = s.eflags := rfl
@[simp] theorem State.putByteAt_segs (a : Nat) (v : Byte) : (s.putByteAt a v).segs = s.segs := rfl
@[simp] theorem State.putByteAt_gdtr (a : Nat) (v : Byte) : (s.putByteAt a v).gdtr = s.gdtr := rfl
@[simp] theorem State.putByteAt_idtr (a : Nat) (v : Byte) : (s.putByteAt a v).idtr = s.idtr := rfl
@[simp] theorem State.putByteAt_tr (a : Nat) (v : Byte) : (s.putByteAt a v).tr = s.tr := rfl
@[simp] theorem State.putByteAt_mem (a : Nat) (v : Byte) : (s.putByteAt a v).mem = Memory.write s.mem a v := rfl
@[simp] theorem State.putByteAt_written (a : Nat) (v : Byte) : (s.putByteAt a v).written = insertAddr a s.written := rfl
@[simp] theorem State.putByteAt_oracle (a : Nat) (v : Byte) : (s.putByteAt a v).oracle = s.oracle := rfl
@[simp] theorem State.putByteAt_shadow (a : Nat) (v : Byte) : (s.putByteAt a v).shadow = s.shadow := rfl
@[simp] theorem State.putByteAt_nmiBlocked (a : Nat) (v : Byte) : (s.putByteAt a v).nmiBlocked = s.nmiBlocked := rfl
@[simp] theorem State.putByteAt_freeCount (a : Nat) (v : Byte) : (s.putByteAt a v).freeCount = s.freeCount := rfl
@[simp] theorem State.putByteAt_cfg (a : Nat) (v : Byte) : (s.putByteAt a v).cfg = s.cfg := rfl

@[simp] theorem State.freeHalf_regs : (s.freeHalf.2).regs = s.regs := rfl
@[simp] theorem State.freeHalf_eip : (s.freeHalf.2).eip = s.eip := rfl
@[simp] theorem State.freeHalf_eflags : (s.freeHalf.2).eflags = s.eflags := rfl
@[simp] theorem State.freeHalf_segs : (s.freeHalf.2).segs = s.segs := rfl
@[simp] theorem State.freeHalf_gdtr : (s.freeHalf.2).gdtr = s.gdtr := rfl
@[simp] theorem State.freeHalf_idtr : (s.freeHalf.2).idtr = s.idtr := rfl
@[simp] theorem State.freeHalf_tr : (s.freeHalf.2).tr = s.tr := rfl
@[simp] theorem State.freeHalf_mem : (s.freeHalf.2).mem = s.mem := rfl
@[simp] theorem State.freeHalf_written : (s.freeHalf.2).written = s.written := rfl
@[simp] theorem State.freeHalf_oracle : (s.freeHalf.2).oracle = s.oracle := rfl
@[simp] theorem State.freeHalf_shadow : (s.freeHalf.2).shadow = s.shadow := rfl
@[simp] theorem State.freeHalf_nmiBlocked : (s.freeHalf.2).nmiBlocked = s.nmiBlocked := rfl
@[simp] theorem State.freeHalf_freeCount : (s.freeHalf.2).freeCount = s.freeCount + 1 := rfl
@[simp] theorem State.freeHalf_cfg : (s.freeHalf.2).cfg = s.cfg := rfl

@[simp] theorem State.freeHalf_fst : s.freeHalf.1 = Config.freeHalf s.freeCount := rfl

/-! ### Reading a register after writing one -/

@[simp] theorem Regs.get_set (g : Regs) (r q : Reg) (v : Word) : (g.set r v).get q = if q = r then v else g.get q := by
  cases r <;> cases q <;> rfl

@[simp] theorem Regs.set_esp (g : Regs) (v : Word) : g.set .esp v = { g with esp := v } := rfl

@[simp] theorem SegRegs.get_set (g : SegRegs) (r q : SReg) (v : SegReg) :
    (g.set r v).get q = if q = r then v else g.get q := by
  cases r <;> cases q <;> rfl

theorem State.esp_eq : s.esp = s.regs.get .esp := rfl

@[simp] theorem State.reg_setReg (r q : Reg) (v : Word) : (s.setReg r v).reg q = if q = r then v else s.reg q :=
  Regs.get_set _ _ _ _

@[simp] theorem State.seg_setSeg (r q : SReg) (v : SegReg) : (s.setSeg r v).seg q = if q = r then v else s.seg q :=
  SegRegs.get_set _ _ _ _

@[simp] theorem State.setReg_seg (r : Reg) (v : Word) (q : SReg) : (s.setReg r v).seg q = s.seg q := rfl
@[simp] theorem State.setReg_cpl (r : Reg) (v : Word) : (s.setReg r v).cpl = s.cpl := rfl
@[simp] theorem State.setReg_linear (r : Reg) (v : Word) (q : SReg) (o : Word) : (s.setReg r v).linear q o = s.linear q o := rfl
@[simp] theorem State.setReg_byteAt (r : Reg) (v : Word) (x : Nat) : (s.setReg r v).byteAt x = s.byteAt x := rfl
@[simp] theorem State.setReg8_seg (r : Reg8) (v : Byte) (q : SReg) : (s.setReg8 r v).seg q = s.seg q := rfl
@[simp] theorem State.setReg8_cpl (r : Reg8) (v : Byte) : (s.setReg8 r v).cpl = s.cpl := rfl
@[simp] theorem State.setReg8_linear (r : Reg8) (v : Byte) (q : SReg) (o : Word) : (s.setReg8 r v).linear q o = s.linear q o := rfl
@[simp] theorem State.setReg8_byteAt (r : Reg8) (v : Byte) (x : Nat) : (s.setReg8 r v).byteAt x = s.byteAt x := rfl
@[simp] theorem State.setReg16_seg (r : Reg) (v : Half) (q : SReg) : (s.setReg16 r v).seg q = s.seg q := rfl
@[simp] theorem State.setReg16_cpl (r : Reg) (v : Half) : (s.setReg16 r v).cpl = s.cpl := rfl
@[simp] theorem State.setReg16_linear (r : Reg) (v : Half) (q : SReg) (o : Word) : (s.setReg16 r v).linear q o = s.linear q o := rfl
@[simp] theorem State.setReg16_byteAt (r : Reg) (v : Half) (x : Nat) : (s.setReg16 r v).byteAt x = s.byteAt x := rfl
@[simp] theorem State.setEsp_seg (v : Word) (q : SReg) : (s.setEsp v).seg q = s.seg q := rfl
@[simp] theorem State.setEsp_cpl (v : Word) : (s.setEsp v).cpl = s.cpl := rfl
@[simp] theorem State.setEsp_linear (v : Word) (q : SReg) (o : Word) : (s.setEsp v).linear q o = s.linear q o := rfl
@[simp] theorem State.setEsp_byteAt (v : Word) (x : Nat) : (s.setEsp v).byteAt x = s.byteAt x := rfl
@[simp] theorem State.setSeg_reg (r : SReg) (v : SegReg) (q : Reg) : (s.setSeg r v).reg q = s.reg q := rfl
@[simp] theorem State.setSeg_esp (r : SReg) (v : SegReg) : (s.setSeg r v).esp = s.esp := rfl
@[simp] theorem State.setSeg_byteAt (r : SReg) (v : SegReg) (x : Nat) : (s.setSeg r v).byteAt x = s.byteAt x := rfl
@[simp] theorem State.jump_seg (v : Word) (q : SReg) : (s.jump v).seg q = s.seg q := rfl
@[simp] theorem State.jump_cpl (v : Word) : (s.jump v).cpl = s.cpl := rfl
@[simp] theorem State.jump_linear (v : Word) (q : SReg) (o : Word) : (s.jump v).linear q o = s.linear q o := rfl
@[simp] theorem State.jump_reg (v : Word) (q : Reg) : (s.jump v).reg q = s.reg q := rfl
@[simp] theorem State.jump_esp (v : Word) : (s.jump v).esp = s.esp := rfl
@[simp] theorem State.jump_byteAt (v : Word) (x : Nat) : (s.jump v).byteAt x = s.byteAt x := rfl
@[simp] theorem State.setFlags_seg (v : Word) (q : SReg) : (s.setFlags v).seg q = s.seg q := rfl
@[simp] theorem State.setFlags_cpl (v : Word) : (s.setFlags v).cpl = s.cpl := rfl
@[simp] theorem State.setFlags_linear (v : Word) (q : SReg) (o : Word) : (s.setFlags v).linear q o = s.linear q o := rfl
@[simp] theorem State.setFlags_reg (v : Word) (q : Reg) : (s.setFlags v).reg q = s.reg q := rfl
@[simp] theorem State.setFlags_esp (v : Word) : (s.setFlags v).esp = s.esp := rfl
@[simp] theorem State.setFlags_byteAt (v : Word) (x : Nat) : (s.setFlags v).byteAt x = s.byteAt x := rfl
@[simp] theorem State.inShadow_seg (q : SReg) : (s.inShadow).seg q = s.seg q := rfl
@[simp] theorem State.inShadow_cpl : (s.inShadow).cpl = s.cpl := rfl
@[simp] theorem State.inShadow_linear (q : SReg) (o : Word) : (s.inShadow).linear q o = s.linear q o := rfl
@[simp] theorem State.inShadow_reg (q : Reg) : (s.inShadow).reg q = s.reg q := rfl
@[simp] theorem State.inShadow_esp : (s.inShadow).esp = s.esp := rfl
@[simp] theorem State.inShadow_byteAt (x : Nat) : (s.inShadow).byteAt x = s.byteAt x := rfl
@[simp] theorem State.putByteAt_seg (a : Nat) (v : Byte) (q : SReg) : (s.putByteAt a v).seg q = s.seg q := rfl
@[simp] theorem State.putByteAt_cpl (a : Nat) (v : Byte) : (s.putByteAt a v).cpl = s.cpl := rfl
@[simp] theorem State.putByteAt_linear (a : Nat) (v : Byte) (q : SReg) (o : Word) : (s.putByteAt a v).linear q o = s.linear q o := rfl
@[simp] theorem State.putByteAt_reg (a : Nat) (v : Byte) (q : Reg) : (s.putByteAt a v).reg q = s.reg q := rfl
@[simp] theorem State.putByteAt_esp (a : Nat) (v : Byte) : (s.putByteAt a v).esp = s.esp := rfl
@[simp] theorem State.freeHalf_seg (q : SReg) : (s.freeHalf.2).seg q = s.seg q := rfl
@[simp] theorem State.freeHalf_cpl : (s.freeHalf.2).cpl = s.cpl := rfl
@[simp] theorem State.freeHalf_linear (q : SReg) (o : Word) : (s.freeHalf.2).linear q o = s.linear q o := rfl
@[simp] theorem State.freeHalf_reg (q : Reg) : (s.freeHalf.2).reg q = s.reg q := rfl
@[simp] theorem State.freeHalf_esp : (s.freeHalf.2).esp = s.esp := rfl
@[simp] theorem State.freeHalf_byteAt (x : Nat) : (s.freeHalf.2).byteAt x = s.byteAt x := rfl

@[simp] theorem State.setEsp_read (v : Word) : (s.setEsp v).esp = v := rfl

end Sys2Proof.Machine
end

