-- ==== Sys2Proof/Laws/Memory.lean ====
section
/-! SUPPORT. Memory as a list: a write is read back, leaves every other byte alone, and keeps the canonical form. -/

namespace Sys2Proof.Machine

open Sys2Proof

/-! ### The canonical form -/

theorem Memory.wf_cons {a : Nat} {b : Byte} {t : Memory} :
    Memory.wf ((a, b) :: t) = true ↔
      a < 2 ^ 32 ∧ b ≠ unlistedByte ∧ (∀ c ∈ t, a < c.1) ∧ Memory.wf t = true := by
  simp [Memory.wf, and_assoc]

theorem rising_cons {a : Nat} {t : List Nat} :
    rising (a :: t) = true ↔ (∀ b ∈ t, a < b) ∧ rising t = true := by
  simp [rising]

/-- An address below every listed one reads as an unlisted byte. -/
theorem Memory.read_below {m : Memory} {x : Nat} (h : ∀ c ∈ m, x < c.1) : Memory.read m x = unlistedByte := by
  induction m with
  | nil => rfl
  | cons c t ih =>
    have hc := h c (by simp)
    have ht := ih (fun d hd => h d (by simp [hd]))
    simp only [Memory.read]
    rw [if_neg (by omega), ht]

/-! ### Reading after writing -/

/-- Another address reads as before, whatever form the list is in. -/
theorem Memory.read_write_other {m : Memory} {x y : Nat} {v : Byte} (h : y ≠ x) :
    Memory.read (Memory.write m x v) y = Memory.read m y := by
  induction m with
  | nil => by_cases hv : v = unlistedByte <;> simp [Memory.write, Memory.read, hv, Ne.symm h]
  | cons c t ih =>
    obtain ⟨a, b⟩ := c
    simp only [Memory.write]
    split
    · split <;> simp [Memory.read, Ne.symm h]
    · split
      · rename_i hxa
        subst hxa
        split <;> simp [Memory.read, Ne.symm h]
      · simp [Memory.read, ih]

/-- In the canonical form the address written reads as the value written. -/
theorem Memory.read_write_same {m : Memory} {x : Nat} {v : Byte} (h : Memory.wf m = true) :
    Memory.read (Memory.write m x v) x = v := by
  induction m with
  | nil => by_cases hv : v = unlistedByte <;> simp [Memory.write, Memory.read, hv]
  | cons c t ih =>
    obtain ⟨a, b⟩ := c
    obtain ⟨_, _, hlt, hwf⟩ := Memory.wf_cons.1 h
    simp only [Memory.write]
    split
    · rename_i hxa
      split
      · rename_i hv
        rw [hv]
        exact Memory.read_below (fun d hd => by
          rcases List.mem_cons.1 hd with rfl | hd
          · exact hxa
          · exact lt_trans hxa (hlt d hd))
      · simp [Memory.read]
    · split
      · rename_i hxa
        subst hxa
        split
        · rename_i hv
          rw [hv]
          exact Memory.read_below hlt
        · simp [Memory.read]
      · rename_i hxa
        simp [Memory.read, Ne.symm hxa, ih hwf]

/-- Every address listed after a write was listed before or is the one written. -/
theorem Memory.mem_write {m : Memory} {x : Nat} {v : Byte} {c : Host.Cell} (h : c ∈ Memory.write m x v) :
    c ∈ m ∨ c = (x, v) := by
  induction m with
  | nil =>
    by_cases hv : v = unlistedByte
    · simp [Memory.write, hv] at h
    · simpa [Memory.write, hv] using h
  | cons d t ih =>
    obtain ⟨a, b⟩ := d
    simp only [Memory.write] at h
    split at h
    · split at h
      · exact .inl h
      · rcases List.mem_cons.1 h with rfl | h
        · exact .inr rfl
        · exact .inl h
    · split at h
      · split at h
        · exact .inl (by simp [h])
        · rcases List.mem_cons.1 h with rfl | h
          · rename_i hxa _
            exact .inr (by rw [hxa])
          · exact .inl (by simp [h])
      · rcases List.mem_cons.1 h with rfl | h
        · exact .inl (by simp)
        · rcases ih h with h | h
          · exact .inl (by simp [h])
          · exact .inr h

/-- A write to the 32-bit space keeps the canonical form. -/
theorem Memory.wf_write {m : Memory} {x : Nat} {v : Byte} (h : Memory.wf m = true) (hx : x < 2 ^ 32) :
    Memory.wf (Memory.write m x v) = true := by
  induction m with
  | nil => by_cases hv : v = unlistedByte <;> simp [Memory.write, Memory.wf, hv]; exact hx
  | cons c t ih =>
    obtain ⟨a, b⟩ := c
    obtain ⟨ha, hb, hlt, hwf⟩ := Memory.wf_cons.1 h
    simp only [Memory.write]
    split
    · rename_i hxa
      split
      · exact h
      · rename_i hv
        refine Memory.wf_cons.2 ⟨hx, hv, fun d hd => ?_, h⟩
        rcases List.mem_cons.1 hd with rfl | hd
        · exact hxa
        · exact lt_trans hxa (hlt d hd)
    · split
      · split
        · exact hwf
        · rename_i hv
          exact Memory.wf_cons.2 ⟨ha, hv, hlt, hwf⟩
      · refine Memory.wf_cons.2 ⟨ha, hb, fun d hd => ?_, ih hwf⟩
        rcases Memory.mem_write hd with hd | rfl
        · exact hlt d hd
        · show a < x
          omega

/-! ### The record of written addresses -/

@[simp] theorem mem_insertAddr {x y : Nat} {l : List Nat} : y ∈ insertAddr x l ↔ y = x ∨ y ∈ l := by
  induction l with
  | nil => simp [insertAddr]
  | cons a t ih =>
    simp only [insertAddr]
    split
    · simp
    · split
      · rename_i hxa
        subst hxa
        simp
      · simp [ih]
        tauto

theorem rising_insertAddr {x : Nat} {l : List Nat} (h : rising l = true) : rising (insertAddr x l) = true := by
  induction l with
  | nil => rfl
  | cons a t ih =>
    obtain ⟨hlt, ht⟩ := rising_cons.1 h
    simp only [insertAddr]
    split
    · rename_i hxa
      refine rising_cons.2 ⟨fun b hb => ?_, h⟩
      rcases List.mem_cons.1 hb with rfl | hb
      · exact hxa
      · exact lt_trans hxa (hlt b hb)
    · split
      · exact h
      · refine rising_cons.2 ⟨fun b hb => ?_, ih ht⟩
        rcases mem_insertAddr.1 hb with rfl | hb
        · omega
        · exact hlt b hb

/-! ### The machine's bytes -/

@[simp] theorem State.putByteAt_byteAt_other {s : State} {a b : Nat} {v : Byte} (h : b ≠ a) :
    (s.putByteAt a v).byteAt b = s.byteAt b := Memory.read_write_other h

theorem State.putByteAt_byteAt_same {s : State} {a : Nat} {v : Byte} (h : Memory.wf s.mem = true) :
    (s.putByteAt a v).byteAt a = v := Memory.read_write_same h

/-- A store to the 32-bit space keeps memory and the record canonical. -/
theorem MemInv.putByteAt {s : State} {a : Nat} {v : Byte} (h : MemInv s) (ha : a < 2 ^ 32) : MemInv (s.putByteAt a v) :=
  ⟨Memory.wf_write h.1 ha, rising_insertAddr h.2⟩

/-- The memory of the reset state is canonical. -/
theorem MemInv.reset : MemInv State.reset := ⟨rfl, rfl⟩

end Sys2Proof.Machine
end

