-- ==== Sys2Proof/Laws/Linear.lean ====
section
/-! SUPPORT. Linear memory: what a read and a write at a linear address do, said once. -/

namespace Sys2Proof.Machine

open Sys2Proof

/-! ### Translation -/

/-- Translation keeps the offset in the page (rule R69). -/
theorem translate_offset {c : Config} {lin p : Word} (h : translate c lin = some p) :
    p.toNat % 4096 = lin.toNat % 4096 := by
  unfold translate at h
  split at h
  · cases h; rfl
  · rw [Option.map_eq_some_iff] at h
    obtain ⟨f, -, rfl⟩ := h
    rw [BitVec.toNat_append, BitVec.extractLsb'_toNat, ← Nat.shiftLeft_add_eq_or_of_lt (Nat.mod_lt _ (by decide)),
      Nat.shiftLeft_eq, Nat.shiftRight_zero]
    omega

/-- A physical address is one of the 32-bit space. -/
theorem physAddr_lt {c : Config} {lin : Word} {a : Nat} (h : physAddr c lin = .ok a) : a < 2 ^ 32 := by
  unfold physAddr at h
  split at h
  · cases h
  · rename_i p _
    split at h
    · cases h; exact p.isLt
    · cases h

/-- A physical address keeps the offset in the page. -/
theorem physAddr_offset {c : Config} {lin : Word} {a : Nat} (h : physAddr c lin = .ok a) :
    a % 4096 = lin.toNat % 4096 := by
  unfold physAddr at h
  split at h
  · cases h
  · rename_i p hp
    split at h
    · cases h; exact translate_offset hp
    · cases h

/-! ### One byte -/

theorem readByte_ok {s : State} {lin : Word} {b : Byte} :
    readByte s lin = .ok b ↔ ∃ a, physAddr s.cfg lin = .ok a ∧ s.byteAt a = b := by
  unfold readByte
  simp [bind_eq_ok]

theorem writeByte_ok {s t : State} {lin : Word} {v : Byte} :
    writeByte s lin v = .ok t ↔ ∃ a, physAddr s.cfg lin = .ok a ∧ s.putByteAt a v = t := by
  unfold writeByte
  simp [bind_eq_ok]

/-! ### What is behind an address -/

theorem next_byte (lin : Word) (k : Nat) : lin + 1 + BitVec.ofNat 32 k = lin + BitVec.ofNat 32 (k + 1) := by
  rw [Nat.add_comm k 1, BitVec.ofNat_add, ← BitVec.add_assoc]
  rfl

theorem backed_succ {s : State} {lin : Word} {n : Nat} :
    backed s lin (n + 1) = true ↔ (∃ a, physAddr s.cfg lin = .ok a) ∧ backed s (lin + 1) n = true := by
  cases h : physAddr s.cfg lin <;> simp [backed, h]

theorem storedAt_succ {s : State} {lin : Word} {n a : Nat} :
    storedAt s lin (n + 1) a = true ↔ physAddr s.cfg lin = .ok a ∨ storedAt s (lin + 1) n a = true := by
  cases h : physAddr s.cfg lin <;> simp [storedAt, h]

/-- Which addresses bytes go to is a matter of the configuration alone. -/
theorem storedAt_congr {s t : State} (h : t.cfg = s.cfg) (lin : Word) (n a : Nat) :
    storedAt t lin n a = storedAt s lin n a := by
  induction n generalizing lin with
  | zero => rfl
  | succ n ih => simp [storedAt, h, ih]

theorem backed_congr {s t : State} (h : t.cfg = s.cfg) (lin : Word) (n : Nat) : backed t lin n = backed s lin n := by
  induction n generalizing lin with
  | zero => rfl
  | succ n ih => simp [backed, h, ih]

@[simp] theorem storedAt_putByteAt {s : State} {p : Nat} {v : Byte} (lin : Word) (n a : Nat) :
    storedAt (s.putByteAt p v) lin n a = storedAt s lin n a := storedAt_congr (s := s) (t := s.putByteAt p v) rfl lin n a

@[simp] theorem backed_putByteAt {s : State} {p : Nat} {v : Byte} (lin : Word) (n : Nat) :
    backed (s.putByteAt p v) lin n = backed s lin n := backed_congr (s := s) (t := s.putByteAt p v) rfl lin n

/-- The address of a byte of a range. -/
theorem storedAt_iff {s : State} {lin : Word} {n a : Nat} :
    storedAt s lin n a = true ↔ ∃ k < n, physAddr s.cfg (lin + BitVec.ofNat 32 k) = .ok a := by
  induction n generalizing lin with
  | zero => simp [storedAt]
  | succ n ih =>
    rw [storedAt_succ, ih]
    constructor
    · rintro (h | ⟨k, hk, h⟩)
      · exact ⟨0, by omega, by simpa using h⟩
      · refine ⟨k + 1, by omega, ?_⟩
        rw [← next_byte]
        exact h
    · rintro ⟨k, hk, h⟩
      cases k with
      | zero => exact .inl (by simpa using h)
      | succ k =>
        refine .inr ⟨k, by omega, ?_⟩
        rw [next_byte]
        exact h

/-- The bytes of one page's length or less have different offsets in their pages. -/
theorem offset_ne {lin : Word} {k : Nat} (hk : 0 < k) (hk' : k < 4096) :
    (lin + BitVec.ofNat 32 k).toNat % 4096 ≠ lin.toNat % 4096 := by
  rw [BitVec.toNat_add, BitVec.toNat_ofNat]
  have := lin.isLt
  omega

/-- The first byte of a range of at most a page is none of the others. -/
theorem storedAt_tail_ne {s : State} {lin : Word} {n a : Nat} (h : physAddr s.cfg lin = .ok a) (hn : n < 4096) :
    storedAt s (lin + 1) n a = false := by
  rw [Bool.eq_false_iff]
  intro hs
  obtain ⟨k, hk, hp⟩ := storedAt_iff.1 hs
  rw [next_byte] at hp
  exact offset_ne (lin := lin) (k := k + 1) (by omega) (by omega) (by rw [← physAddr_offset hp, physAddr_offset h])

/-! ### Reading -/

theorem linRead_succ {s : State} {lin : Word} {n : Nat} {v : BitVec (8 * (n + 1))} :
    linRead s lin (n + 1) = .ok v ↔
      ∃ b hi, readByte s lin = .ok b ∧ linRead s (lin + 1) n = .ok hi ∧ (hi ++ b : BitVec (8 * n + 8)) = v := by
  simp only [linRead, bind_eq_ok, pure_eq_ok, Except.ok.injEq]
  constructor
  · rintro ⟨b, hb, hi, hh, he⟩; exact ⟨b, hi, hb, hh, he⟩
  · rintro ⟨b, hi, hb, hh, he⟩; exact ⟨b, hb, hi, hh, he⟩

/-- A read answers exactly where every byte has memory behind it. -/
theorem linRead_ok_iff {s : State} {lin : Word} {n : Nat} : (∃ v, linRead s lin n = .ok v) ↔ backed s lin n = true := by
  induction n generalizing lin with
  | zero => simp [linRead, backed]
  | succ n ih =>
    rw [backed_succ, ← ih]
    simp only [linRead_succ, readByte_ok]
    constructor
    · rintro ⟨v, b, hi, ⟨a, ha, -⟩, hh, -⟩; exact ⟨⟨a, ha⟩, hi, hh⟩
    · rintro ⟨⟨a, ha⟩, hi, hh⟩; exact ⟨_, _, hi, ⟨a, ha, rfl⟩, hh, rfl⟩

/-- Which bytes a read answers: byte `k` is the one at the physical address of `lin + k`. -/
theorem linRead_bytes {s : State} {lin : Word} {n : Nat} {v : BitVec (8 * n)} :
    linRead s lin n = .ok v ↔ ∀ k < n, ∃ a, physAddr s.cfg (lin + BitVec.ofNat 32 k) = .ok a
      ∧ s.byteAt a = v.extractLsb' (8 * k) 8 := by
  induction n generalizing lin with
  | zero =>
    have hv : v = 0 := BitVec.eq_of_toNat_eq (by have := v.isLt; simp at this; simp [this])
    simp [linRead, hv]
  | succ n ih =>
    simp only [linRead_succ, ih, readByte_ok]
    constructor
    · rintro ⟨b, hi, ⟨a, ha, rfl⟩, hh, rfl⟩ k hk
      cases k with
      | zero => exact ⟨a, by simpa using ha, by apply BitVec.eq_of_getLsbD_eq; intro i hi; simp [BitVec.getLsbD_append, hi]⟩
      | succ k =>
        obtain ⟨p, hp, hb⟩ := hh k (by omega)
        refine ⟨p, by rw [← next_byte]; exact hp, ?_⟩
        rw [hb]
        apply BitVec.eq_of_getLsbD_eq
        intro i hi
        simp [BitVec.getLsbD_append, hi, show ¬8 * (k + 1) + i < 8 by omega, show 8 * (k + 1) + i - 8 = 8 * k + i by omega]
    · intro h
      obtain ⟨a, ha, hb⟩ := h 0 (by omega)
      refine ⟨_, v.extractLsb' 8 (8 * n), ⟨a, by simpa using ha, rfl⟩, ?_, ?_⟩
      · intro k hk
        obtain ⟨p, hp, hb⟩ := h (k + 1) (by omega)
        refine ⟨p, by rw [next_byte]; exact hp, ?_⟩
        rw [hb]
        apply BitVec.eq_of_getLsbD_eq
        intro i hi
        simp [hi, show 8 * k + i < 8 * n by omega, show 8 + (8 * k + i) = 8 * (k + 1) + i by omega]
      · rw [hb]
        apply BitVec.eq_of_getLsbD_eq
        intro i hi
        simp

/-- A read sees nothing but the bytes of its range. -/
theorem linRead_congr {s t : State} (hc : t.cfg = s.cfg) {lin : Word} {n : Nat}
    (hb : ∀ a, storedAt s lin n a = true → t.byteAt a = s.byteAt a) : linRead t lin n = linRead s lin n := by
  induction n generalizing lin with
  | zero => rfl
  | succ n ih =>
    have h1 : readByte t lin = readByte s lin := by
      unfold readByte
      rw [hc]
      cases h : physAddr s.cfg lin with
      | error e => rfl
      | ok a => simp [hb a (storedAt_succ.2 (.inl h))]
    have h2 := ih (lin := lin + 1) (fun a ha => hb a (storedAt_succ.2 (.inr ha)))
    simp only [linRead, h1, h2]

/-! ### Writing -/

theorem linWrite_succ {s t : State} {lin : Word} {n : Nat} {v : BitVec (8 * (n + 1))} :
    linWrite s lin (n + 1) v = .ok t ↔
      ∃ u, writeByte s lin (v.extractLsb' 0 8) = .ok u ∧ linWrite u (lin + 1) n (v.extractLsb' 8 (8 * n)) = .ok t := by
  simp only [linWrite, bind_eq_ok]

theorem OnlyMem.refl (s : State) : OnlyMem s s := rfl

theorem OnlyMem.trans {s t u : State} (h : OnlyMem s t) (k : OnlyMem t u) : OnlyMem s u := by
  unfold OnlyMem at *
  rw [k, h]

theorem OnlyMem.cfg {s t : State} (h : OnlyMem s t) : t.cfg = s.cfg := by rw [h]
theorem OnlyMem.regs {s t : State} (h : OnlyMem s t) : t.regs = s.regs := by rw [h]
theorem OnlyMem.segs {s t : State} (h : OnlyMem s t) : t.segs = s.segs := by rw [h]
theorem OnlyMem.eip {s t : State} (h : OnlyMem s t) : t.eip = s.eip := by rw [h]
theorem OnlyMem.eflags {s t : State} (h : OnlyMem s t) : t.eflags = s.eflags := by rw [h]
theorem OnlyMem.gdtr {s t : State} (h : OnlyMem s t) : t.gdtr = s.gdtr := by rw [h]
theorem OnlyMem.idtr {s t : State} (h : OnlyMem s t) : t.idtr = s.idtr := by rw [h]
theorem OnlyMem.tr {s t : State} (h : OnlyMem s t) : t.tr = s.tr := by rw [h]
theorem OnlyMem.freeCount {s t : State} (h : OnlyMem s t) : t.freeCount = s.freeCount := by rw [h]

theorem OnlyMem.putByteAt (s : State) (a : Nat) (v : Byte) : OnlyMem s (s.putByteAt a v) := rfl

theorem linWrite_onlyMem {s t : State} {lin : Word} {n : Nat} {v : BitVec (8 * n)} (h : linWrite s lin n v = .ok t) :
    OnlyMem s t := by
  induction n generalizing s lin with
  | zero => cases h; rfl
  | succ n ih =>
    obtain ⟨u, hu, ht⟩ := linWrite_succ.1 h
    obtain ⟨a, -, rfl⟩ := writeByte_ok.1 hu
    exact (OnlyMem.putByteAt _ _ _).trans (ih ht)

theorem linWrite_memInv {s t : State} {lin : Word} {n : Nat} {v : BitVec (8 * n)} (h : linWrite s lin n v = .ok t)
    (hs : MemInv s) : MemInv t := by
  induction n generalizing s lin with
  | zero => cases h; exact hs
  | succ n ih =>
    obtain ⟨u, hu, ht⟩ := linWrite_succ.1 h
    obtain ⟨a, ha, rfl⟩ := writeByte_ok.1 hu
    exact ih ht (hs.putByteAt (physAddr_lt ha))

/-- A write answers exactly where every byte has memory behind it. -/
theorem linWrite_ok_iff {s : State} {lin : Word} {n : Nat} {v : BitVec (8 * n)} :
    (∃ t, linWrite s lin n v = .ok t) ↔ backed s lin n = true := by
  induction n generalizing s lin with
  | zero => simp [linWrite, backed]
  | succ n ih =>
    rw [backed_succ]
    simp only [linWrite_succ, writeByte_ok]
    constructor
    · rintro ⟨t, u, ⟨a, ha, rfl⟩, ht⟩
      refine ⟨⟨a, ha⟩, ?_⟩
      have := ih.1 ⟨t, ht⟩
      rwa [backed_putByteAt] at this
    · rintro ⟨⟨a, ha⟩, hb⟩
      rw [← backed_putByteAt (p := a) (v := v.extractLsb' 0 8)] at hb
      obtain ⟨t, ht⟩ := ih.2 hb
      exact ⟨t, _, ⟨a, ha, rfl⟩, ht⟩

theorem linWrite_sameBut {s t : State} {lin : Word} {n : Nat} {v : BitVec (8 * n)} (h : linWrite s lin n v = .ok t) :
    SameMemoryBut s t lin n := by
  induction n generalizing s lin with
  | zero => cases h; intro a _; rfl
  | succ n ih =>
    obtain ⟨u, hu, ht⟩ := linWrite_succ.1 h
    obtain ⟨p, hp, rfl⟩ := writeByte_ok.1 hu
    intro a ha
    rw [Bool.eq_false_iff, Ne, storedAt_succ, not_or] at ha
    have h1 := ih ht a (by rw [storedAt_putByteAt, Bool.eq_false_iff]; exact ha.2)
    rw [h1]
    refine State.putByteAt_byteAt_other ?_
    rintro rfl
    exact ha.1 hp

theorem linWrite_recorded {s t : State} {lin : Word} {n : Nat} {v : BitVec (8 * n)} (h : linWrite s lin n v = .ok t) :
    Recorded s t lin n := by
  induction n generalizing s lin with
  | zero => cases h; intro a; simp [storedAt]
  | succ n ih =>
    obtain ⟨u, hu, ht⟩ := linWrite_succ.1 h
    obtain ⟨p, hp, rfl⟩ := writeByte_ok.1 hu
    intro a
    rw [ih ht a, storedAt_putByteAt, storedAt_succ]
    show a ∈ insertAddr p s.written ∨ _ ↔ _
    rw [mem_insertAddr, hp, Except.ok.injEq, eq_comm]
    tauto

/-- What is written is read back: the range is at most a page, so that no two of its bytes share an address. -/
theorem linWrite_readBack {s t : State} {lin : Word} {n : Nat} {v : BitVec (8 * n)} (h : linWrite s lin n v = .ok t)
    (hs : MemInv s) (hn : n ≤ 4096) : linRead t lin n = .ok v := by
  induction n generalizing s lin with
  | zero =>
    show Except.ok (0 : BitVec (8 * 0)) = .ok v
    congr 1
    exact (BitVec.eq_of_toNat_eq (by
      have := v.isLt
      simp at this
      simp [this]))
  | succ n ih =>
    obtain ⟨u, hu, ht⟩ := linWrite_succ.1 h
    obtain ⟨p, hp, rfl⟩ := writeByte_ok.1 hu
    refine linRead_succ.2 ⟨v.extractLsb' 0 8, v.extractLsb' 8 (8 * n), ?_, ?_, ?_⟩
    · refine readByte_ok.2 ⟨p, by rw [(linWrite_onlyMem ht).cfg]; exact hp, ?_⟩
      rw [linWrite_sameBut ht p (by rw [storedAt_putByteAt]; exact storedAt_tail_ne hp (by omega))]
      exact State.putByteAt_byteAt_same hs.1
    · exact ih ht (hs.putByteAt (physAddr_lt hp)) (by omega)
    · apply BitVec.eq_of_getLsbD_eq
      intro i hi
      simp

/-- Everything a write of at most a page does. -/
theorem linWrite_spec {s t : State} {lin : Word} {n : Nat} {v : BitVec (8 * n)} (h : linWrite s lin n v = .ok t)
    (hs : MemInv s) (hn : n ≤ 4096) : Stored s t lin n v ∧ OnlyMem s t ∧ MemInv t :=
  ⟨⟨linWrite_readBack h hs hn, linWrite_sameBut h, linWrite_recorded h⟩, linWrite_onlyMem h, linWrite_memInv h hs⟩

end Sys2Proof.Machine
end

