-- ==== Sys2Proof/Laws/Segments.lean ====
section
/-! SUPPORT. Segments, descriptors and the stack: for each operation, everything it can do when it answers, and when it
does answer. -/

namespace Sys2Proof.Machine

open Sys2Proof

/-! ### The check (rule R90) -/

/-- The check passes exactly when the register is usable, the rights allow the access, a fetch goes through CS, and the
bytes are inside the segment. -/
theorem segCheck_ok {s : State} {r : SReg} {off : Word} {n : Nat} {k : Access} {u : Unit} :
    segCheck s r off n k = .ok u ↔
      (s.seg r).cache.valid = true ∧ rightsOk (s.seg r).cache k = true ∧ (k = .fetch → r = .cs)
        ∧ limitOk (s.seg r).cache off n = true := by
  simp only [segCheck, bind_eq_ok, raiseIf_ok, refuseIf_ok, Bool.not_eq_false', exists_const]
  have : (decide (k = .fetch) && decide (r ≠ .cs)) = false ↔ (k = .fetch → r = .cs) := by
    by_cases h1 : k = .fetch <;> by_cases h2 : r = .cs <;> simp [h1, h2]
  rw [this]

/-- The check looks at nothing but the cache of its register. -/
theorem segCheck_congr {s t : State} {r : SReg} (h : (t.seg r).cache = (s.seg r).cache) (off : Word) (n : Nat)
    (k : Access) : segCheck t r off n k = segCheck s r off n k := by
  simp only [segCheck, h]

theorem OnlyMem.seg {s t : State} (h : OnlyMem s t) (r : SReg) : t.seg r = s.seg r := by
  unfold State.seg
  rw [h.segs]

theorem OnlyMem.linear {s t : State} (h : OnlyMem s t) (r : SReg) (off : Word) : t.linear r off = s.linear r off := by
  unfold State.linear
  rw [h.seg]

theorem OnlyMem.segCheck {s t : State} (h : OnlyMem s t) (r : SReg) (off : Word) (n : Nat) (k : Access) :
    segCheck t r off n k = segCheck s r off n k := segCheck_congr (by rw [h.seg]) off n k

/-- Where the program may write is a matter of the segment registers and the configuration. -/
theorem writable_congr {s t : State} (hs : t.segs = s.segs) (hc : t.cfg = s.cfg) {r : SReg} {off : Word} {n : Nat} :
    Writable t r off n ↔ Writable s r off n := by
  have hr : t.seg r = s.seg r := by
    unfold State.seg
    rw [hs]
  unfold Writable State.linear
  rw [segCheck_congr (s := s) (by rw [hr]), backed_congr hc, hr]

theorem OnlyMem.writable {s t : State} (h : OnlyMem s t) {r : SReg} {off : Word} {n : Nat} :
    Writable t r off n ↔ Writable s r off n := by
  unfold Writable
  rw [h.segCheck, h.linear, backed_congr h.cfg]

/-! ### Program accesses (rules R95, R96) -/

theorem segRead_ok {s : State} {r : SReg} {off : Word} {n : Nat} {v : BitVec (8 * n)} :
    segRead s r off n = .ok v ↔ segCheck s r off n .read = .ok () ∧ linRead s (s.linear r off) n = .ok v := by
  simp [segRead, bind_eq_ok]

theorem segWrite_ok {s t : State} {r : SReg} {off : Word} {n : Nat} {v : BitVec (8 * n)} :
    segWrite s r off n v = .ok t ↔ segCheck s r off n .write = .ok () ∧ linWrite s (s.linear r off) n v = .ok t := by
  simp [segWrite, bind_eq_ok]

/-- A read answers exactly where the program may read. -/
theorem segRead_ok_iff {s : State} {r : SReg} {off : Word} {n : Nat} :
    (∃ v, segRead s r off n = .ok v) ↔ Readable s r off n := by
  simp only [segRead_ok, Readable, ← linRead_ok_iff]
  constructor
  · rintro ⟨v, h, k⟩; exact ⟨h, v, k⟩
  · rintro ⟨h, v, k⟩; exact ⟨v, h, k⟩

/-- Everything a program's write of at most a page does. -/
theorem segWrite_spec {s t : State} {r : SReg} {off : Word} {n : Nat} {v : BitVec (8 * n)}
    (h : segWrite s r off n v = .ok t) (hs : MemInv s) (hn : n ≤ 4096) :
    Stored s t (s.linear r off) n v ∧ OnlyMem s t ∧ MemInv t := linWrite_spec (segWrite_ok.1 h).2 hs hn

theorem segWrite_onlyMem {s t : State} {r : SReg} {off : Word} {n : Nat} {v : BitVec (8 * n)}
    (h : segWrite s r off n v = .ok t) : OnlyMem s t := linWrite_onlyMem (segWrite_ok.1 h).2

/-- A write answers where the program may write. -/
theorem segWrite_of_writable {s : State} {r : SReg} {off : Word} {n : Nat} (v : BitVec (8 * n))
    (h : Writable s r off n) : ∃ t, segWrite s r off n v = .ok t := by
  obtain ⟨t, ht⟩ := (linWrite_ok_iff (v := v)).2 h.2
  exact ⟨t, segWrite_ok.2 ⟨h.1, ht⟩⟩

/-! ### Pushes and pops (rules R202, R203, R224) -/

theorem push32_ok {s t : State} {v : Word} :
    push32 s v = .ok t ↔ ∃ u, segWrite s .ss (s.esp - 4) 4 v = .ok u ∧ u.setEsp (s.esp - 4) = t := by
  simp [push32, bind_eq_ok]

theorem pop32_ok {s t : State} {v : Word} :
    pop32 s = .ok (v, t) ↔ segRead s .ss s.esp 4 = .ok v ∧ s.setEsp (s.esp + 4) = t := by
  simp only [pop32, bind_eq_ok, pure_eq_ok, Except.ok.injEq, Prod.mk.injEq]
  constructor
  · rintro ⟨w, h, rfl, rfl⟩; exact ⟨h, rfl⟩
  · rintro ⟨h, rfl⟩; exact ⟨v, h, rfl, rfl⟩

/-- A selector slot: the selector in its low word, then a free word above it. -/
theorem storeSelSlot_ok {s t : State} {off : Word} {sel : Half} :
    storeSelSlot s off sel = .ok t ↔ ∃ u, segWrite s .ss off 2 sel = .ok u ∧ segCheck u .ss off 4 .write = .ok ()
      ∧ segWrite u.freeHalf.2 .ss (off + 2) 2 u.freeHalf.1 = .ok t := by
  simp [storeSelSlot, bind_eq_ok]

/-! ### Descriptors (rules R85, R103) -/

theorem readDesc_ok {s : State} {sel : Half} {d : BitVec 64} :
    readDesc s sel = .ok d ↔ sel.getLsbD 2 = false ∧ (sel &&& 0xFFF8).toNat + 7 ≤ s.gdtr.limit.toNat
      ∧ linRead s (descAddr s sel) 8 = .ok d := by
  simp [readDesc, bind_eq_ok]

theorem descAddr_congr {s t : State} (h : t.gdtr = s.gdtr) (sel : Half) : descAddr t sel = descAddr s sel := by
  simp [descAddr, h]

/-- Every byte of a range that can be read can be read. -/
theorem physAddr_of_linRead {s : State} {lin : Word} {n : Nat} {v : BitVec (8 * n)} (h : linRead s lin n = .ok v)
    {k : Nat} (hk : k < n) : ∃ a, physAddr s.cfg (lin + BitVec.ofNat 32 k) = .ok a := by
  induction n generalizing lin k with
  | zero => omega
  | succ n ih =>
    obtain ⟨b, hi, hb, hh, -⟩ := linRead_succ.1 h
    cases k with
    | zero =>
      obtain ⟨a, ha, -⟩ := readByte_ok.1 hb
      exact ⟨a, by simpa using ha⟩
    | succ k =>
      obtain ⟨a, ha⟩ := ih hh (k := k) (by omega)
      exact ⟨a, by rw [← next_byte]; exact ha⟩

theorem writeByte_spec {s t : State} {lin : Word} {v : Byte} (h : writeByte s lin v = .ok t) (hs : MemInv s) :
    Stored s t lin 1 v ∧ OnlyMem s t ∧ MemInv t := by
  refine linWrite_spec (n := 1) (v := v) (linWrite_succ.2 ⟨t, ?_, rfl⟩) hs (by omega)
  rw [show (BitVec.extractLsb' 0 8 (v : BitVec (8 * (0 + 1)))) = v from by
    apply BitVec.eq_of_toNat_eq; simp]
  exact h

theorem orAccessByte_ok {s t : State} {sel : Half} {m : Byte} :
    orAccessByte s sel m = .ok t ↔
      ∃ b, readByte s (descAddr s sel + 5) = .ok b ∧ writeByte s (descAddr s sel + 5) (b ||| m) = .ok t := by
  simp [orAccessByte, bind_eq_ok]

theorem orAccessByte_onlyMem {s t : State} {sel : Half} {m : Byte} (h : orAccessByte s sel m = .ok t) :
    OnlyMem s t := by
  obtain ⟨b, -, hw⟩ := orAccessByte_ok.1 h
  obtain ⟨a, -, rfl⟩ := writeByte_ok.1 hw
  rfl

theorem orAccessByte_memInv {s t : State} {sel : Half} {m : Byte} (h : orAccessByte s sel m = .ok t)
    (hs : MemInv s) : MemInv t := by
  obtain ⟨b, -, hw⟩ := orAccessByte_ok.1 h
  exact (writeByte_spec hw hs).2.2

/-- Once its descriptor has been read, the access-rights byte can be rewritten. -/
theorem orAccessByte_completes {s t : State} {sel : Half} {m : Byte} {d : BitVec 64} (hd : readDesc s sel = .ok d)
    (hg : t.gdtr = s.gdtr) (hc : t.cfg = s.cfg) : ∃ u, orAccessByte t sel m = .ok u := by
  obtain ⟨a, ha⟩ := physAddr_of_linRead (readDesc_ok.1 hd).2.2 (k := 5) (by omega)
  refine ⟨_, orAccessByte_ok.2 ⟨t.byteAt a, readByte_ok.2 ⟨a, ?_, rfl⟩, writeByte_ok.2 ⟨a, ?_, rfl⟩⟩⟩ <;>
  · rw [hc, descAddr_congr hg]
    exact ha

theorem setAccessed_onlyMem {s t : State} {sel : Half} {d : BitVec 64} (h : setAccessed s sel d = .ok t) :
    OnlyMem s t := by
  unfold setAccessed at h
  split at h
  · cases h; rfl
  · exact orAccessByte_onlyMem h

theorem setAccessed_memInv {s t : State} {sel : Half} {d : BitVec 64} (h : setAccessed s sel d = .ok t)
    (hs : MemInv s) : MemInv t := by
  unfold setAccessed at h
  split at h
  · cases h; exact hs
  · exact orAccessByte_memInv h hs

theorem empty_append (b : BitVec 8) : ((0 : BitVec 0) ++ b : BitVec 8) = b := by
  apply BitVec.eq_of_toNat_eq
  rw [BitVec.toNat_append]
  simp

/-- Everything that rewriting the access-rights byte does. -/
theorem orAccessByte_spec {s t : State} {sel : Half} {m : Byte} (h : orAccessByte s sel m = .ok t) (hs : MemInv s) :
    ByteOred s t (descAddr s sel + 5) m := by
  obtain ⟨b, hr, hw⟩ := orAccessByte_ok.1 h
  refine ⟨b, ?_, (writeByte_spec hw hs).1, orAccessByte_onlyMem h⟩
  exact linRead_succ.2 ⟨b, 0, hr, rfl, empty_append b⟩

/-- Everything that `SetAccessed` does. -/
theorem setAccessed_spec {s t : State} {sel : Half} {d : BitVec 64} (h : setAccessed s sel d = .ok t) (hs : MemInv s) :
    Accessed s t sel d ∧ OnlyMem s t ∧ MemInv t := by
  refine ⟨?_, setAccessed_onlyMem h, setAccessed_memInv h hs⟩
  unfold setAccessed at h
  unfold Accessed
  split at h
  · cases h; simp [*]
  · rw [if_neg ‹_›]; exact orAccessByte_spec h hs

/-- Rewriting the access-rights byte looks at memory, GDTR and the configuration alone, and changes memory alone. -/
theorem orAccessByte_frame {s t u : State} {sel : Half} {m : Byte} (h : orAccessByte s sel m = .ok u)
    (hc : t.cfg = s.cfg) (hg : t.gdtr = s.gdtr) (hm : t.mem = s.mem) (hw : t.written = s.written) :
    orAccessByte t sel m = .ok { t with mem := u.mem, written := u.written } := by
  obtain ⟨b, hr, hwr⟩ := orAccessByte_ok.1 h
  obtain ⟨a, ha, rfl⟩ := writeByte_ok.1 hwr
  obtain ⟨a', ha', hb⟩ := readByte_ok.1 hr
  refine orAccessByte_ok.2 ⟨b, readByte_ok.2 ⟨a', ?_, ?_⟩, writeByte_ok.2 ⟨a, ?_, ?_⟩⟩
  · rw [hc, descAddr_congr hg]; exact ha'
  · simp only [State.byteAt, hm]; exact hb
  · rw [hc, descAddr_congr hg]; exact ha
  · simp [State.putByteAt, hm, hw]

theorem setAccessed_frame {s t u : State} {sel : Half} {d : BitVec 64} (h : setAccessed s sel d = .ok u)
    (hc : t.cfg = s.cfg) (hg : t.gdtr = s.gdtr) (hm : t.mem = s.mem) (hw : t.written = s.written) :
    setAccessed t sel d = .ok { t with mem := u.mem, written := u.written } := by
  unfold setAccessed at h ⊢
  split at h
  · cases h
    rw [if_pos ‹_›, ← hm, ← hw]
  · rw [if_neg ‹_›]; exact orAccessByte_frame h hc hg hm hw

theorem setAccessed_completes {s t : State} {sel : Half} {d : BitVec 64} (hd : readDesc s sel = .ok d)
    (hg : t.gdtr = s.gdtr) (hc : t.cfg = s.cfg) : ∃ u, setAccessed t sel d = .ok u := by
  unfold setAccessed
  split
  · exact ⟨t, rfl⟩
  · exact orAccessByte_completes hd hg hc

/-! ### Loading segment registers (rules R100, R104) -/

theorem descKind_data {d : BitVec 64} : descKind d = .data ↔ d.getLsbD 44 = true ∧ d.getLsbD 43 = false := by
  unfold descKind
  cases d.getLsbD 44 <;> cases d.getLsbD 43 <;> simp
  split <;> simp

theorem descKind_code {d : BitVec 64} : descKind d = .code ↔ d.getLsbD 44 = true ∧ d.getLsbD 43 = true := by
  unfold descKind
  cases d.getLsbD 44 <;> cases d.getLsbD 43 <;> simp
  split <;> simp

theorem cacheOf_kind_data {d : BitVec 64} {lvl : Level} (h : descKind d = .data) : (cacheOf d lvl).kind = .data := by
  unfold cacheOf
  rw [(descKind_data.1 h).2]
  rfl

theorem cacheOf_kind_code {d : BitVec 64} {lvl : Level} (h : descKind d = .code) : (cacheOf d lvl).kind = .code := by
  unfold cacheOf
  rw [(descKind_code.1 h).2]
  rfl

theorem checkStackDesc_ok {s : State} {sel : Half} {d : BitVec 64} {u : Unit} :
    checkStackDesc s sel d = .ok u ↔
      (hardwareRpl s.cfg = true → rplOf s.cfg sel = s.cpl) ∧ descKind d = .data ∧ descRW d = true
        ∧ descDpl d = s.cpl ∧ descP d = true ∧ descDB d = true := by
  simp only [checkStackDesc, bind_eq_ok, raiseIf_ok, refuseIf_ok, exists_const]
  cases hardwareRpl s.cfg <;> cases descRW d <;> cases descP d <;> cases descDB d <;> simp

theorem checkDataDesc_ok {s : State} {sel : Half} {d : BitVec 64} {u : Unit} :
    checkDataDesc s sel d = .ok u ↔
      (descKind d = .data ∨ descKind d = .code ∧ descRW d = true)
        ∧ (descKind d = .data ∨ descCE d = false → s.cpl ≤ descDpl d ∧ rplOf s.cfg sel ≤ descDpl d)
        ∧ descP d = true := by
  simp only [checkDataDesc, bind_eq_ok, raiseIf_ok, exists_const]
  cases descKind d <;> cases descRW d <;> cases descP d <;> cases descCE d <;> simp

theorem loadSeg_ss_ok {s t : State} {sel : Half} :
    loadSeg s .ss sel = .ok t ↔ isNull sel = false ∧ ∃ d u, readDesc s sel = .ok d ∧ checkStackDesc s sel d = .ok ()
      ∧ setAccessed s sel d = .ok u ∧ u.setSeg .ss { sel := sel, cache := cacheOf d (descDpl d) } = t := by
  simp [loadSeg, bind_eq_ok]

/-- The load of DS, ES, FS or GS: a null selector makes the register unusable, another one brings its descriptor. -/
theorem loadSeg_data_ok {s t : State} {r : SReg} {sel : Half} (hcs : r ≠ .cs) (hss : r ≠ .ss) :
    loadSeg s r sel = .ok t ↔
      (isNull sel = true ∧ s.setSeg r { sel := sel, cache := { (s.seg r).cache with valid := false } } = t) ∨
      (isNull sel = false ∧ ∃ d u, readDesc s sel = .ok d ∧ checkDataDesc s sel d = .ok ()
        ∧ setAccessed s sel d = .ok u ∧ u.setSeg r { sel := sel, cache := cacheOf d (descDpl d) } = t) := by
  cases r <;> first | exact absurd rfl hcs | exact absurd rfl hss | skip
  all_goals
    simp only [loadSeg]
    cases h : isNull sel <;> simp [bind_eq_ok]

theorem loadCS_ok {s t : State} {sel : Half} {d : BitVec 64} {lvl : Level} :
    loadCS s sel d lvl = .ok t ↔ descDB d = true ∧ ∃ u, setAccessed s sel d = .ok u ∧
      u.setSeg .cs { sel := if hardwareRpl u.cfg then sel.extractLsb' 2 14 ++ lvl else sel, cache := cacheOf d lvl } = t := by
  simp [loadCS, bind_eq_ok]

end Sys2Proof.Machine
end

