-- ==== Sys2Proof/Laws/Blocks.lean ====
section
/-! SUPPORT. Blocks of memory: pieces of a range that may be written, doublewords stored one below the other, and a selector
slot. -/

namespace Sys2Proof.Machine

open Sys2Proof

/-! ### Addresses of a block -/

theorem sub_add_word (x a b : Word) : x - (a + b) = x - a - b := by bv_omega

theorem add_ofNat_add (lin : Word) (n k : Nat) : lin + BitVec.ofNat 32 n + BitVec.ofNat 32 k = lin + BitVec.ofNat 32 (n + k) := by
  rw [BitVec.ofNat_add, BitVec.add_assoc]

/-- The addresses of a block are those of its two parts. -/
theorem storedAt_append {s : State} {lin : Word} {n m a : Nat} :
    storedAt s lin (n + m) a = true ↔ storedAt s lin n a = true ∨ storedAt s (lin + BitVec.ofNat 32 n) m a = true := by
  simp only [storedAt_iff]
  constructor
  · rintro ⟨k, hk, h⟩
    by_cases hkn : k < n
    · exact .inl ⟨k, hkn, h⟩
    · refine .inr ⟨k - n, by omega, ?_⟩
      rwa [add_ofNat_add, Nat.add_sub_cancel' (by omega)]
  · rintro (⟨k, hk, h⟩ | ⟨k, hk, h⟩)
    · exact ⟨k, by omega, h⟩
    · exact ⟨n + k, by omega, by rwa [add_ofNat_add] at h⟩

/-- The two parts of a block of at most a page share no address. -/
theorem storedAt_disjoint {s : State} {lin : Word} {n m a : Nat} (hnm : n + m ≤ 4096) (h : storedAt s lin n a = true) :
    storedAt s (lin + BitVec.ofNat 32 n) m a = false := by
  rw [Bool.eq_false_iff]
  intro h'
  obtain ⟨k, hk, hp⟩ := storedAt_iff.1 h
  obtain ⟨j, hj, hq⟩ := storedAt_iff.1 h'
  have h1 := physAddr_offset hp
  have h2 := physAddr_offset hq
  rw [h1] at h2
  simp only [BitVec.toNat_add, BitVec.toNat_ofNat] at h2
  have := lin.isLt
  omega

/-- Every part of a block with memory behind it has memory behind it. -/
theorem backed_sub {s : State} {lin : Word} {n k m : Nat} (h : backed s lin n = true) (hk : k + m ≤ n) :
    backed s (lin + BitVec.ofNat 32 k) m = true := by
  obtain ⟨v, hv⟩ := linRead_ok_iff.2 h
  clear h
  induction m generalizing k with
  | zero => rfl
  | succ m ih =>
    rw [backed_succ]
    refine ⟨physAddr_of_linRead hv (by omega), ?_⟩
    have := ih (k := k + 1) (by omega)
    rwa [show lin + BitVec.ofNat 32 k + 1 = lin + BitVec.ofNat 32 (k + 1) from by
      rw [BitVec.ofNat_add, BitVec.add_assoc]; rfl]

/-- Inside a segment, so is every part. -/
theorem limitOk_sub {c : Cache} {off : Word} {n k m : Nat} (h : limitOk c off n = true) (hm : 1 ≤ m) (hk : k + m ≤ n) :
    limitOk c (off + BitVec.ofNat 32 k) m = true := by
  simp only [limitOk, Bool.and_eq_true, decide_eq_true_eq] at h ⊢
  obtain ⟨hw, hl⟩ := h
  have hoff : (off + BitVec.ofNat 32 k).toNat = off.toNat + k := by
    rw [BitVec.toNat_add, BitVec.toNat_ofNat]
    have := off.isLt
    omega
  rw [hoff]
  refine ⟨by omega, ?_⟩
  by_cases hc : (decide (c.kind = .code) || !c.ce) = true
  · rw [if_pos hc] at hl ⊢
    simp only [decide_eq_true_eq] at hl ⊢
    omega
  · rw [if_neg hc] at hl ⊢
    simp only [Bool.and_eq_true, decide_eq_true_eq] at hl ⊢
    omega

/-- What may be accessed as a whole may be accessed in part. -/
theorem segCheck_sub {s : State} {r : SReg} {off : Word} {n k m : Nat} {a : Access} (h : segCheck s r off n a = .ok ())
    (hm : 1 ≤ m) (hk : k + m ≤ n) : segCheck s r (off + BitVec.ofNat 32 k) m a = .ok () := by
  obtain ⟨h1, h2, h3, h4⟩ := segCheck_ok.1 h
  exact segCheck_ok.2 ⟨h1, h2, h3, limitOk_sub h4 hm hk⟩

theorem linear_add (s : State) (r : SReg) (off : Word) (x : Word) : s.linear r (off + x) = s.linear r off + x := by
  unfold State.linear
  rw [BitVec.add_assoc]

theorem Writable.sub {s : State} {r : SReg} {off : Word} {n : Nat} (h : Writable s r off n) {k m : Nat} (hm : 1 ≤ m)
    (hk : k + m ≤ n) : Writable s r (off + BitVec.ofNat 32 k) m :=
  ⟨segCheck_sub h.1 hm hk, by rw [linear_add]; exact backed_sub h.2 hk⟩

theorem Readable.sub {s : State} {r : SReg} {off : Word} {n : Nat} (h : Readable s r off n) {k m : Nat} (hm : 1 ≤ m)
    (hk : k + m ≤ n) : Readable s r (off + BitVec.ofNat 32 k) m :=
  ⟨segCheck_sub h.1 hm hk, by rw [linear_add]; exact backed_sub h.2 hk⟩

/-! ### Blocks of doublewords -/

theorem HoldsDwords.congr {s t : State} (hc : t.cfg = s.cfg) {lin : Word} {vs : List Word}
    (hb : ∀ a, storedAt s lin (4 * vs.length) a = true → t.byteAt a = s.byteAt a) (h : HoldsDwords s lin vs) :
    HoldsDwords t lin vs := by
  induction vs generalizing lin with
  | nil => trivial
  | cons v vs ih =>
    have hlen : 4 * (v :: vs).length = 4 + 4 * vs.length := by simp; ring
    refine ⟨?_, ih (lin := lin + 4) (fun a ha => hb a ?_) h.2⟩
    · rw [linRead_congr hc (fun a ha => hb a ?_)]
      · exact h.1
      · rw [hlen]; exact storedAt_append.2 (.inl ha)
    · rw [hlen]; exact storedAt_append.2 (.inr ha)

theorem HoldsDwords.append {s : State} {lin : Word} {vs ws : List Word} :
    HoldsDwords s lin (vs ++ ws) ↔ HoldsDwords s lin vs ∧ HoldsDwords s (lin + BitVec.ofNat 32 (4 * vs.length)) ws := by
  induction vs generalizing lin with
  | nil => simp [HoldsDwords]
  | cons v vs ih =>
    simp only [List.cons_append, HoldsDwords, ih, and_assoc]
    rw [show lin + 4 + BitVec.ofNat 32 (4 * vs.length) = lin + BitVec.ofNat 32 (4 * (v :: vs).length) from by
      rw [show (4 : Word) = BitVec.ofNat 32 4 from rfl, add_ofNat_add, List.length_cons]; congr 2; ring]

/-- A doubleword stored above a block, and then the block below it. -/
theorem StoredDwords.snoc {s t u : State} {lin : Word} {vs : List Word} {v : Word} (hlen : 4 * (vs.length + 1) ≤ 4096)
    (hc : t.cfg = s.cfg) (hu : u.cfg = t.cfg) (h1 : Stored s t (lin + BitVec.ofNat 32 (4 * vs.length)) 4 v)
    (h2 : StoredDwords t u lin vs) : StoredDwords s u lin (vs ++ [v]) := by
  obtain ⟨hv, hb1, hr1⟩ := h1
  obtain ⟨hh, hb2, hr2⟩ := h2
  have he : 4 * (vs ++ [v]).length = 4 * vs.length + 4 := by simp; ring
  refine ⟨HoldsDwords.append.2 ⟨hh, ?_, trivial⟩, ?_, ?_⟩
  · rw [linRead_congr hu (fun a ha => hb2 a ?_)]
    · exact hv
    · rw [Bool.eq_false_iff]
      intro hs
      rw [storedAt_disjoint (by omega) hs] at ha
      cases ha
  · intro a ha
    rw [he, Bool.eq_false_iff, Ne, storedAt_append, not_or] at ha
    rw [hb2 a (by rw [storedAt_congr hc]; simpa using ha.1), hb1 a (by simpa using ha.2)]
  · intro a
    rw [hr2 a, hr1 a, storedAt_congr hc, he, storedAt_append]
    tauto

theorem StoredDwords.nil (s : State) (lin : Word) : StoredDwords s s lin [] :=
  ⟨trivial, fun _ _ => rfl, fun _ => by simp [storedAt]⟩

/-- Everything that storing doublewords downward does. -/
theorem storeDown_spec {s u : State} {top : Word} {vs : List Word} (h : storeDown s top vs = .ok u) (hs : MemInv s)
    (hlen : 4 * vs.length ≤ 4096) :
    StoredDwords s u (s.linear .ss (top - BitVec.ofNat 32 (4 * vs.length))) vs.reverse ∧ OnlyMem s u ∧ MemInv u := by
  induction vs generalizing s top with
  | nil => cases h; exact ⟨StoredDwords.nil _ _, rfl, hs⟩
  | cons v vs ih =>
    simp only [storeDown, bind_eq_ok] at h
    obtain ⟨t, ht, hu⟩ := h
    obtain ⟨hst, hot, hmt⟩ := segWrite_spec ht hs (by omega)
    simp only [List.length_cons] at hlen
    obtain ⟨hsu, hou, hmu⟩ := ih hu hmt (by omega)
    have ea : top - BitVec.ofNat 32 (4 * (v :: vs).length) = top - 4 - BitVec.ofNat 32 (4 * vs.length) := by
      rw [List.length_cons, show 4 * (vs.length + 1) = 4 + 4 * vs.length by ring, BitVec.ofNat_add, sub_add_word]
      rfl
    refine ⟨?_, hot.trans hou, hmu⟩
    rw [hot.linear] at hsu
    rw [List.reverse_cons, ea]
    refine StoredDwords.snoc (t := t) (by rw [List.length_reverse]; omega) hot.cfg hou.cfg ?_ hsu
    rw [List.length_reverse, ← linear_add, BitVec.sub_add_cancel]
    exact hst

/-- Doublewords can be stored downward where each of their slots may be written. -/
theorem storeDown_completes {s : State} {top : Word} (vs : List Word)
    (h : ∀ k < vs.length, Writable s .ss (top - BitVec.ofNat 32 (4 * (k + 1))) 4) : ∃ u, storeDown s top vs = .ok u := by
  induction vs generalizing s top with
  | nil => exact ⟨s, rfl⟩
  | cons v vs ih =>
    obtain ⟨t, ht⟩ := segWrite_of_writable v (h 0 (by simp))
    have ho := segWrite_onlyMem ht
    obtain ⟨u, hu⟩ := ih (s := t) (top := top - 4) (fun k hk => by
      rw [ho.writable]
      have := h (k + 1) (by simpa using hk)
      rwa [show top - BitVec.ofNat 32 (4 * (k + 1 + 1)) = top - 4 - BitVec.ofNat 32 (4 * (k + 1)) from by
        rw [show 4 * (k + 1 + 1) = 4 + 4 * (k + 1) by ring, BitVec.ofNat_add, sub_add_word]; rfl] at this)
    exact ⟨u, by simp only [storeDown, bind_eq_ok]; exact ⟨t, ht, hu⟩⟩

/-- The slots of a block that may be written as a whole may be written. -/
theorem Writable.slots {s : State} {top : Word} {m : Nat} (h : Writable s .ss (top - BitVec.ofNat 32 (4 * m)) (4 * m)) :
    ∀ k < m, Writable s .ss (top - BitVec.ofNat 32 (4 * (k + 1))) 4 := by
  intro k hk
  have := h.sub (k := 4 * (m - (k + 1))) (m := 4) (by omega) (by omega)
  rwa [show top - BitVec.ofNat 32 (4 * m) + BitVec.ofNat 32 (4 * (m - (k + 1))) = top - BitVec.ofNat 32 (4 * (k + 1)) from by
    obtain ⟨j, rfl⟩ : ∃ j, m = k + 1 + j := ⟨m - (k + 1), by omega⟩
    rw [show k + 1 + j - (k + 1) = j by omega, Nat.mul_add, BitVec.ofNat_add, sub_add_word, BitVec.sub_add_cancel]] at this

/-! ### Selector slots (rule R224) -/

theorem four_bytes (b0 b1 b2 b3 : BitVec 8) :
    (((((0 : BitVec 0) ++ b3 : BitVec 8) ++ b2 : BitVec 16) ++ b1 : BitVec 24) ++ b0 : BitVec 32)
      = ((((0 : BitVec 0) ++ b3 : BitVec 8) ++ b2 : BitVec 16) ++ (((0 : BitVec 0) ++ b1 : BitVec 8) ++ b0 : BitVec 16) :
        BitVec 32) := by
  apply BitVec.eq_of_getLsbD_eq
  intro i hi
  simp only [BitVec.getLsbD_append]
  split_ifs <;> first | rfl | omega

/-- Two words read together. -/
theorem linRead_words {s : State} {lin : Word} {a b : Half} (ha : linRead s lin 2 = .ok a)
    (hb : linRead s (lin + 2) 2 = .ok b) : linRead s lin 4 = .ok (b ++ a : BitVec 32) := by
  obtain ⟨b0, h0, r0, k0, e0⟩ := linRead_succ.1 ha
  obtain ⟨b1, h1, r1, k1, e1⟩ := linRead_succ.1 k0
  obtain ⟨b2, h2, r2, k2, e2⟩ := linRead_succ.1 hb
  obtain ⟨b3, h3, r3, k3, e3⟩ := linRead_succ.1 k2
  have p2 : lin + 1 + 1 = lin + 2 := by rw [BitVec.add_assoc]; rfl
  have p3 : lin + 2 + 1 = lin + 1 + 1 + 1 := by rw [p2]
  refine linRead_succ.2 ⟨b0, _, r0, linRead_succ.2 ⟨b1, _, r1, linRead_succ.2 ⟨b2, _, p2 ▸ r2,
    linRead_succ.2 ⟨b3, 0, p3 ▸ r3, rfl, rfl⟩, rfl⟩, rfl⟩, ?_⟩
  subst e0 e1 e2 e3
  obtain rfl : h1 = 0 := BitVec.eq_of_toNat_eq (by have := h1.isLt; simp at this ⊢; omega)
  obtain rfl : h3 = 0 := BitVec.eq_of_toNat_eq (by have := h3.isLt; simp at this ⊢; omega)
  exact four_bytes b0 b1 b2 b3

/-- Everything that storing a selector slot does: the selector below, some word above it, and one free value used. -/
theorem storeSelSlot_spec {s t : State} {off : Word} {sel : Half} (h : storeSelSlot s off sel = .ok t) (hs : MemInv s) :
    (∃ hi : Half, Stored s t (s.linear .ss off) 4 (hi ++ sel)) ∧ OnlyMem { s with freeCount := s.freeCount + 1 } t
      ∧ MemInv t := by
  obtain ⟨u, hu, -, ht⟩ := storeSelSlot_ok.1 h
  obtain ⟨⟨hv, hb, hr⟩, ho, hm⟩ := segWrite_spec hu hs (by omega)
  obtain ⟨⟨hv', hb', hr'⟩, ho', hm'⟩ := segWrite_spec ht (s := u.freeHalf.2) hm (by omega)
  have hl : u.freeHalf.2.linear .ss (off + 2) = s.linear .ss off + BitVec.ofNat 32 2 := by
    show u.linear .ss (off + 2) = _
    rw [ho.linear, linear_add]
    rfl
  have hc : u.freeHalf.2.cfg = s.cfg := ho.cfg
  rw [hl] at hv' hb' hr'
  refine ⟨⟨u.freeHalf.1, linRead_words ?_ hv', ?_, ?_⟩, ?_, hm'⟩
  · rw [linRead_congr (s := u) ho'.cfg (fun a ha => hb' a ?_)]
    · exact hv
    · rw [storedAt_congr hc]
      rw [storedAt_congr ho.cfg] at ha
      exact storedAt_disjoint (by omega) ha
  · intro a ha
    rw [show (4 : Nat) = 2 + 2 from rfl, Bool.eq_false_iff, Ne, storedAt_append, not_or] at ha
    rw [hb' a (by rw [storedAt_congr hc]; simpa using ha.2)]
    exact hb a (by simpa using ha.1)
  · intro a
    rw [hr' a, storedAt_congr hc, show (4 : Nat) = 2 + 2 from rfl, storedAt_append]
    show a ∈ u.written ∨ _ ↔ _
    rw [hr a]
    tauto
  · unfold OnlyMem at ho ho' ⊢
    rw [ho']
    show { u with freeCount := u.freeCount + 1, mem := t.mem, written := t.written } = _
    rw [ho]

theorem storeSelSlot_completes {s : State} {off : Word} (sel : Half) (h : Writable s .ss off 4) :
    ∃ t, storeSelSlot s off sel = .ok t := by
  obtain ⟨u, hu⟩ := segWrite_of_writable (n := 2) sel (by simpa using h.sub (k := 0) (m := 2) (by omega) (by omega))
  have ho := segWrite_onlyMem hu
  have h2 : Writable u.freeHalf.2 .ss (off + 2) 2 := by
    have := (ho.writable (r := .ss) (off := off) (n := 4)).2 h
    exact this.sub (k := 2) (m := 2) (by omega) (by omega)
  obtain ⟨t, ht⟩ := segWrite_of_writable (n := 2) u.freeHalf.1 h2
  exact ⟨t, storeSelSlot_ok.2 ⟨u, hu, by rw [ho.segCheck]; exact h.1, ht⟩⟩

end Sys2Proof.Machine
end

