-- ==== Sys2Proof/Laws/Decode.lean ====
section
/-! SUPPORT. The fields of the encoding: codes and their inverses, the bytes of a number and the number of bytes, the fields of
a MOD R/M byte, and how many bytes each part of an instruction takes (rules R130 to R160). -/

namespace Sys2Proof

/-! ### Codes -/

@[simp] theorem Reg.ofCode_code (r : Reg) : Reg.ofCode r.code = r := by cases r <;> rfl

@[simp] theorem Reg8.ofCode_code (r : Reg8) : Reg8.ofCode r.code = r := by cases r <;> rfl

@[simp] theorem SReg.ofCode_code (r : SReg) : SReg.ofCode r.code = some r := by cases r <;> rfl

@[simp] theorem Scale.ofCode_code (s : Scale) : Scale.ofCode s.code = s := by cases s <;> rfl

@[simp] theorem Reg.code_ofCode (c : BitVec 3) : (Reg.ofCode c).code = c := by revert c; decide

@[simp] theorem Reg8.code_ofCode (c : BitVec 3) : (Reg8.ofCode c).code = c := by revert c; decide

@[simp] theorem Scale.code_ofCode (c : BitVec 2) : (Scale.ofCode c).code = c := by revert c; decide

theorem SReg.code_of_ofCode {c : BitVec 3} {r : SReg} (h : SReg.ofCode c = some r) : r.code = c := by
  revert c r; decide

/-- Every index register but ESP has a code; ESP's would mean none (rule R149). -/
theorem indexOf_indexCode {ix : Option Reg} (h : ix ≠ some .esp) : indexOf (indexCode ix) = ix := by
  rcases ix with _ | r
  · rfl
  · cases r <;> first | rfl | exact absurd rfl h

@[simp] theorem indexCode_indexOf (c : BitVec 3) : indexCode (indexOf c) = c := by revert c; decide

theorem indexOf_ne_esp (c : BitVec 3) : indexOf c ≠ some .esp := by revert c; decide

@[simp] theorem overrideOf_overrideByte (r : SReg) : overrideOf (overrideByte r) = some r := by cases r <;> rfl

@[simp] theorem overrideByte_admitted (r : SReg) : isExcludedPrefix (overrideByte r) = false := by cases r <;> rfl

theorem overrideByte_of_overrideOf {b : Byte} {r : SReg} (h : overrideOf b = some r) : overrideByte r = b := by
  revert b r; decide

/-! ### Bytes of numbers (rule R62) -/

theorem le16_bytes (v : BitVec 16) : le16 (v.extractLsb' 0 8) (v.extractLsb' 8 8) = v := by
  apply BitVec.eq_of_getLsbD_eq
  intro i hi
  simp only [le16, BitVec.getLsbD_append, BitVec.getLsbD_extractLsb']
  by_cases h : i < 8
  · simp [h]
  · simp [h, show 8 + (i - 8) = i by omega, show i - 8 < 8 by omega]

theorem le32_bytes (v : BitVec 32) :
    le32 (v.extractLsb' 0 8) (v.extractLsb' 8 8) (v.extractLsb' 16 8) (v.extractLsb' 24 8) = v := by
  apply BitVec.eq_of_getLsbD_eq
  intro i hi
  simp only [le32, BitVec.getLsbD_append, BitVec.getLsbD_extractLsb']
  by_cases h : i < 8
  · simp [h]
  · by_cases h2 : i < 16
    · simp [h, show 8 + (i - 8) = i by omega, show i - 8 < 8 by omega]
    · by_cases h3 : i < 24
      · simp [h, show ¬ i - 8 < 8 by omega, show 16 + (i - 8 - 8) = i by omega, show i - 8 - 8 < 8 by omega]
      · simp [h, show ¬ i - 8 < 8 by omega, show ¬ i - 8 - 8 < 8 by omega, show 24 + (i - 8 - 8 - 8) = i by omega,
          show i - 8 - 8 - 8 < 8 by omega]

@[simp] theorem take8_cons (b : Byte) (t : List Byte) : take8 (b :: t) = .ok (b, t) := rfl

@[simp] theorem take16_bytes16 (v : BitVec 16) (t : List Byte) : take16 (bytes16 v ++ t) = .ok (v, t) := by
  simp [bytes16, take16, le16_bytes]

@[simp] theorem take32_bytes32 (v : BitVec 32) (t : List Byte) : take32 (bytes32 v ++ t) = .ok (v, t) := by
  simp [bytes32, take32, le32_bytes]

/-! ### The fields of the MOD R/M and S-I-B bytes (rules R132, R133) -/

@[simp] theorem modField_modRmByte (md : BitVec 2) (reg rm : BitVec 3) : modField (modRmByte md reg rm) = md := by
  revert md reg rm; decide

@[simp] theorem regField_modRmByte (md : BitVec 2) (reg rm : BitVec 3) : regField (modRmByte md reg rm) = reg := by
  revert md reg rm; decide

@[simp] theorem rmField_modRmByte (md : BitVec 2) (reg rm : BitVec 3) : rmField (modRmByte md reg rm) = rm := by
  revert md reg rm; decide

/-! ### Lengths (rule R131) -/

@[simp] theorem bytes16_length (v : BitVec 16) : (bytes16 v).length = 2 := rfl

@[simp] theorem bytes32_length (v : BitVec 32) : (bytes32 v).length = 4 := rfl

theorem overrideBytes_length (ov : Option SReg) : (overrideBytes ov).length ≤ 1 := by
  cases ov <;> simp [overrideBytes]

theorem Disp.bytes_length (d : Disp) : d.bytes.length ≤ 4 := by cases d <;> simp [Disp.bytes]

theorem MemRef.encode_length (reg : BitVec 3) (m : MemRef) : 1 ≤ (m.encode reg).length ∧ (m.encode reg).length ≤ 6 := by
  cases m with
  | base b d => have := d.bytes_length; simp [MemRef.encode]; omega
  | abs v => simp [MemRef.encode]
  | sib b sc ix d => have := d.bytes_length; simp [MemRef.encode]; omega
  | sibAbs sc ix v => simp [MemRef.encode]

theorem RM.encode_length {ρ : Type} (code : ρ → BitVec 3) (reg : BitVec 3) (op : RM ρ) :
    1 ≤ (op.encode code reg).length ∧ (op.encode code reg).length ≤ 6 := by
  cases op with
  | reg r => simp [RM.encode]
  | mem m => exact m.encode_length reg

end Sys2Proof
end

