-- ==== Sys2Proof/Laws/Delivery.lean ====
section
/-! SUPPORT. Far transfers, taking an exception and returning from one: for each operation, everything it can do when it
answers. -/

namespace Sys2Proof.Machine

open Sys2Proof

/-! ### Near targets (rule R240) -/

theorem checkTarget_ok {s : State} {target : Word} {u : Unit} :
    checkTarget s target = .ok u ↔ target ≤ effLimit s.segs.cs.cache.limit s.segs.cs.cache.g := by
  simp [checkTarget, BitVec.not_lt]

/-! ### The gate and its target (rule R370, steps 1 and 2) -/

theorem checkGate_ok {s : State} {k : EventKind} {v : Byte} {ext : Half} {g : BitVec 64} :
    checkGate s k v ext = .ok g ↔
      (gateOffset v).toNat + 7 ≤ s.idtr.limit.toNat ∧ linRead s (s.idtr.base + gateOffset v) 8 = .ok g
        ∧ (gateKind s.cfg g = .interrupt ∨ gateKind s.cfg g = .trap)
        ∧ (checksGateDpl s.cfg k = true → s.cpl ≤ descDpl g) ∧ descP g = true := by
  simp only [checkGate, bind_eq_ok, raiseIf_ok, refuseIf_ok, exists_unit, decide_eq_false_iff_not, not_lt, pure_eq_ok,
    Except.ok.injEq, Bool.not_eq_false', Bool.and_eq_false_iff, BitVec.not_lt]
  constructor
  · rintro ⟨h1, g', h2, h3, h4, h5, h6, rfl⟩
    refine ⟨h1, h2, ?_, ?_, h6⟩
    · cases hk : gateKind s.cfg g' <;> simp_all
    · intro hc; rcases h5 with h5 | h5
      · rw [hc] at h5; cases h5
      · exact h5
  · rintro ⟨h1, h2, h3, h4, h5⟩
    refine ⟨h1, g, h2, ?_, ?_, ?_, h5, rfl⟩
    · rcases h3 with h3 | h3 <;> simp [h3]
    · rcases h3 with h3 | h3 <;> simp [h3]
    · cases hc : checksGateDpl s.cfg k
      · exact .inl rfl
      · exact .inr (h4 hc)

theorem gateOffset_eq (v : Byte) : gateOffset v = BitVec.ofNat 32 (8 * v.toNat) := by
  apply BitVec.eq_of_toNat_eq
  have := v.isLt
  simp [gateOffset, BitVec.toNat_shiftLeft, Nat.shiftLeft_eq]
  omega

theorem gateOffset_toNat (v : Byte) : (gateOffset v).toNat = 8 * v.toNat := by
  rw [gateOffset_eq, BitVec.toNat_ofNat]
  have := v.isLt
  omega

theorem checksGateDpl_iff {c : Config} {k : EventKind} : checksGateDpl c k = true ↔ DplChecked c k := by
  cases k <;> simp [checksGateDpl, DplChecked]

/-- `GateAdmits` is what the checks on the gate let through. -/
theorem checkGate_iff {s : State} {k : EventKind} {v : Byte} {ext : Half} {g : BitVec 64} :
    checkGate s k v ext = .ok g ↔ GateAdmits s k v g := by
  rw [checkGate_ok, gateOffset_toNat, gateOffset_eq, checksGateDpl_iff]
  rfl

theorem checkGateTarget_ok {s : State} {g : BitVec 64} {ext : Half} {d : BitVec 64} :
    checkGateTarget s g ext = .ok d ↔
      isNull (gateSel g) = false ∧ readDesc s (gateSel g) = .ok d ∧ descKind d = .code ∧ descCE d = false
        ∧ descDpl d ≤ s.cpl ∧ descP d = true ∧ gateOff g ≤ effLimit (descLimit d) (descG d) := by
  simp only [checkGateTarget, bind_eq_ok, raiseIf_ok, refuseIf_ok, exists_unit, decide_eq_false_iff_not, pure_eq_ok,
    Except.ok.injEq, Bool.not_eq_false', BitVec.not_lt, ne_eq, not_not]
  constructor
  · rintro ⟨h1, d', h2, h3, h4, h5, h6, h7, rfl⟩; exact ⟨h1, h2, h3, h4, h5, h6, h7⟩
  · rintro ⟨h1, h2, h3, h4, h5, h6, h7⟩; exact ⟨h1, d, h2, h3, h4, h5, h6, h7, rfl⟩

@[simp] theorem orBadStack_ok {r : Res (BitVec 64)} {d : BitVec 64} : orBadStack r = .ok d ↔ r = .ok d := by
  rcases r with (_ | _ | _) | _ <;> simp [orBadStack]

/-- The stack of a more privileged level (rule R374). -/
theorem newStack_ok {s : State} {lvl : Level} {nSS : Half} {nEsp : Word} {ds : BitVec 64} :
    newStack s lvl = .ok (nSS, nEsp, ds) ↔
      s.tr.valid = true ∧ 8 * lvl.toNat + 11 ≤ (effLimit s.tr.limit s.tr.g).toNat
        ∧ linRead s (s.tr.base + 4 + (lvl.setWidth 32 <<< 3)) 4 = .ok nEsp
        ∧ linRead s (s.tr.base + 8 + (lvl.setWidth 32 <<< 3)) 2 = .ok nSS
        ∧ isNull nSS = false ∧ readDesc s nSS = .ok ds ∧ (hardwareRpl s.cfg = true → rplOf s.cfg nSS = lvl)
        ∧ descKind ds = .data ∧ descRW ds = true ∧ descDpl ds = lvl ∧ descP ds = true ∧ descDB ds = true := by
  simp only [newStack, bind_eq_ok, stopIf_ok, orBadStack_ok, exists_unit, decide_eq_false_iff_not, pure_eq_ok, not_lt,
    Except.ok.injEq, Bool.not_eq_false', Bool.or_eq_false_iff, Bool.and_eq_false_iff, ne_eq, not_not, Prod.mk.injEq]
  constructor
  · rintro ⟨h1, h2, e, h3, ss, h4, h5, d, h6, ⟨⟨⟨⟨⟨h7, h8⟩, h9⟩, h10⟩, h11⟩, h12⟩, rfl, rfl, rfl⟩
    refine ⟨h1, h2, h3, h4, h5, h6, ?_, h8, h9, h10, h11, h12⟩
    intro hc; rcases h7 with h7 | h7
    · rw [hc] at h7; cases h7
    · exact h7
  · rintro ⟨h1, h2, h3, h4, h5, h6, h7, h8, h9, h10, h11, h12⟩
    refine ⟨h1, h2, _, h3, _, h4, h5, _, h6, ⟨⟨⟨⟨⟨?_, h8⟩, h9⟩, h10⟩, h11⟩, h12⟩, rfl, rfl, rfl⟩
    cases hc : hardwareRpl s.cfg
    · exact .inl rfl
    · exact .inr (h7 hc)

/-! ### Frames (rule R370, step 3) -/

@[simp] theorem orStackFault_ok {r : Res Unit} {u : Unit} : orStackFault r = .ok u ↔ r = .ok u := by
  rcases r with (_ | _ | _) | _ <;> simp [orStackFault]

theorem frameWords_length (image : Word) (cs : Half) (eip : Word) (code : Option Half) :
    4 * (frameWords image cs eip code).length = frameSize code := by
  cases code <;> rfl

theorem sameLevelFrame_ok {s t : State} {eip : Word} {code : Option Half} :
    sameLevelFrame s eip code = .ok t ↔
      segCheck s .ss (s.esp - BitVec.ofNat 32 (frameSize code)) (frameSize code) .write = .ok () ∧
      ∃ u, storeDown s s.esp (frameWords s.eflags s.segs.cs.sel eip code) = .ok u
        ∧ u.setEsp (s.esp - BitVec.ofNat 32 (frameSize code)) = t := by
  simp [sameLevelFrame, bind_eq_ok, frameSize]

theorem innerFrame_ok {s t : State} {lvl : Level} {v : Byte} {eip : Word} {code : Option Half} :
    innerFrame s lvl v eip code = .ok t ↔
      ∃ nSS nEsp ds u w x, newStack s lvl = .ok (nSS, nEsp, ds)
        ∧ limitOk (cacheOf ds lvl) (nEsp - BitVec.ofNat 32 (frameSize code + 8)) (frameSize code + 8) = true
        ∧ setAccessed s nSS ds = .ok u
        ∧ storeSelSlot (u.setSeg .ss { sel := nSS, cache := cacheOf ds lvl }) (nEsp - 4) s.segs.ss.sel = .ok w
        ∧ storeDown w (nEsp - 4) (s.esp :: frameWords s.eflags s.segs.cs.sel eip code) = .ok x
        ∧ x.setEsp (nEsp - BitVec.ofNat 32 (frameSize code + 8)) = t := by
  have hn : (if code.isSome then 24 else 20 : Nat) = frameSize code + 8 := by cases code <;> rfl
  simp only [innerFrame, bind_eq_ok, pure_eq_ok, Except.ok.injEq, stopIf_ok, exists_unit, Bool.not_eq_false', hn]
  constructor
  · rintro ⟨⟨a, b, c⟩, h1, h2, u, h3, w, h4, x, h5, h6⟩; exact ⟨a, b, c, u, w, x, h1, h2, h3, h4, h5, h6⟩
  · rintro ⟨a, b, c, u, w, x, h1, h2, h3, h4, h5, h6⟩; exact ⟨(a, b, c), h1, h2, u, h3, w, h4, x, h5, h6⟩

/-! ### Delivery (rule R370) -/

theorem deliver_ok {s t : State} {k : EventKind} {v : Byte} {e : Option Half} {p : Word} :
    deliver s k v e p = .ok t ↔
      ∃ g d u w, checkGate s k v (extOf k) = .ok g ∧ checkGateTarget s g (extOf k) = .ok d
        ∧ entryFrame s (descDpl d) v p (pushedCode s.cfg v e) = .ok u
        ∧ loadCS (u.setFlags (entryFlags u.eflags (decide (gateKind s.cfg g = .interrupt)))) (gateSel g) d (descDpl d)
            = .ok w
        ∧ w.jump (gateOff g) = t := by
  simp only [deliver, bind_eq_ok, pure_eq_ok, Except.ok.injEq, extOf, pushedCode]
  constructor
  · rintro ⟨g, h1, d, h2, u, h3, w, h4, h5⟩; exact ⟨g, d, u, w, h1, h2, h3, h4, h5⟩
  · rintro ⟨g, d, u, w, h1, h2, h3, h4, h5⟩; exact ⟨g, h1, d, h2, u, h3, w, h4, h5⟩

/-! ### Far transfers (rules R252, R256, R301) -/

theorem farTarget_ok {s : State} {sel : Half} {off : Word} {d : BitVec 64} :
    farTarget s sel off = .ok d ↔
      isNull sel = false ∧ readDesc s sel = .ok d ∧ descKind d = .code ∧ descCE d = false ∧ descDpl d = s.cpl
        ∧ (hardwareRpl s.cfg = true → rplOf s.cfg sel ≤ s.cpl) ∧ descP d = true
        ∧ off ≤ effLimit (descLimit d) (descG d) := by
  simp only [farTarget, bind_eq_ok, raiseIf_ok, refuseIf_ok, exists_unit, decide_eq_false_iff_not, pure_eq_ok,
    Except.ok.injEq, Bool.not_eq_false', BitVec.not_lt, ne_eq, not_not, Bool.and_eq_false_iff]
  constructor
  · rintro ⟨h1, d', h2, -, h3, h4, h5, h6, h7, h8, rfl⟩
    refine ⟨h1, h2, h3, h4, h5, ?_, h7, h8⟩
    intro hc; rcases h6 with h6 | h6
    · rw [hc] at h6; cases h6
    · exact h6
  · rintro ⟨h1, h2, h3, h4, h5, h6, h7, h8⟩
    refine ⟨h1, d, h2, by simp [h3], h3, h4, h5, ?_, h7, h8, rfl⟩
    cases hc : hardwareRpl s.cfg
    · exact .inl rfl
    · exact .inr (h6 hc)

theorem checkReturnCS_ok {s : State} {sel : Half} {d : BitVec 64} {eip : Word} {u : Unit} :
    checkReturnCS s sel d eip = .ok u ↔
      descKind d = .code ∧ descCE d = false ∧ s.cpl ≤ returnLevel s.cfg sel d ∧ descDpl d = returnLevel s.cfg sel d
        ∧ descP d = true ∧ eip ≤ effLimit (descLimit d) (descG d) := by
  simp [checkReturnCS, bind_eq_ok, BitVec.not_lt]

theorem checkReturnSS_ok {s : State} {lvl : Level} {sel : Half} {ds : BitVec 64} {u : Unit} :
    checkReturnSS s lvl sel ds = .ok u ↔
      (hardwareRpl s.cfg = true → rplOf s.cfg sel = lvl) ∧ descKind ds = .data ∧ descRW ds = true ∧ descDpl ds = lvl
        ∧ descP ds = true ∧ descDB ds = true := by
  simp only [checkReturnSS, bind_eq_ok, raiseIf_ok, refuseIf_ok, exists_unit]
  cases hardwareRpl s.cfg <;> cases descRW ds <;> cases descP ds <;> cases descDB ds <;> simp

theorem returnSame_ok {s t : State} {nEip : Word} {nCS : Half} {d : BitVec 64} {esp : Word} :
    returnSame s nEip nCS d esp = .ok t ↔ ∃ u, loadCS s nCS d s.cpl = .ok u ∧ (u.jump nEip).setEsp esp = t := by
  simp [returnSame, bind_eq_ok]

theorem returnOuter_ok {s t : State} {nEip : Word} {nCS : Half} {d : BitVec 64} {lvl : Level} {a extra : Word} :
    returnOuter s nEip nCS d lvl a extra = .ok t ↔
      segCheck s .ss a 8 .read = .ok () ∧
      ∃ nEsp slot ds u w, segRead s .ss a 4 = .ok nEsp ∧ segRead s .ss (a + 4) 4 = .ok slot
        ∧ isNull (slot.extractLsb' 0 16) = false ∧ readDesc s (slot.extractLsb' 0 16) = .ok ds
        ∧ checkReturnSS s lvl (slot.extractLsb' 0 16) ds = .ok () ∧ loadCS s nCS d lvl = .ok u
        ∧ setAccessed (u.jump nEip) (slot.extractLsb' 0 16) ds = .ok w
        ∧ (let x := (w.setSeg .ss { sel := slot.extractLsb' 0 16, cache := cacheOf ds (descDpl ds) }).setEsp (nEsp + extra)
           { x with segs := emptyInner lvl x.segs }) = t := by
  simp only [returnOuter, bind_eq_ok, pure_eq_ok, Except.ok.injEq, raiseIf_ok, exists_unit]
  constructor
  · rintro ⟨h1, e, h2, x, h3, h4, ds, h5, h6, u, h7, w, h8, h9⟩; exact ⟨h1, e, x, ds, u, w, h2, h3, h4, h5, h6, h7, h8, h9⟩
  · rintro ⟨h1, e, x, ds, u, w, h2, h3, h4, h5, h6, h7, h8, h9⟩; exact ⟨h1, e, h2, x, h3, h4, ds, h5, h6, u, h7, w, h8, h9⟩

theorem restoreFlags_ok {s t : State} {n : Word} {old : Level} :
    restoreFlags s n old = .ok t ↔ (old = 0 → flag n bitVM = false) ∧ s.setFlags (restoredFlags s.eflags n old) = t := by
  simp only [restoreFlags, bind_eq_ok, refuseIf_ok, exists_unit, pure_eq_ok, Except.ok.injEq]
  by_cases h : old = 0 <;> simp_all

/-- Far RET. -/
theorem farReturn_ret_ok {s t : State} {extra : Word} :
    farReturn s false extra = .ok t ↔
      segCheck s .ss s.esp 8 .read = .ok () ∧
      ∃ nEip slot d, segRead s .ss s.esp 4 = .ok nEip ∧ segRead s .ss (s.esp + 4) 4 = .ok slot
        ∧ isNull (slot.extractLsb' 0 16) = false ∧ readDesc s (slot.extractLsb' 0 16) = .ok d
        ∧ checkReturnCS s (slot.extractLsb' 0 16) d nEip = .ok ()
        ∧ returnTo s nEip (slot.extractLsb' 0 16) d (returnLevel s.cfg (slot.extractLsb' 0 16) d) (s.esp + 8 + extra) extra
            = .ok t := by
  simp only [farReturn, bind_eq_ok, pure_eq_ok, Except.ok.injEq, raiseIf_ok, exists_unit, Bool.false_eq_true, if_false,
    ok_bind]
  constructor
  · rintro ⟨h1, e, h2, x, h3, h4, d, h5, h6, u, h7, rfl⟩
    exact ⟨h1, e, x, d, h2, h3, h4, h5, h6, h7⟩
  · rintro ⟨h1, e, x, d, h2, h3, h4, h5, h6, h7⟩
    exact ⟨h1, e, h2, x, h3, h4, d, h5, h6, t, h7, rfl⟩

/-- IRET after its NT check. -/
theorem farReturn_iret_ok {s t : State} {extra : Word} :
    farReturn s true extra = .ok t ↔
      segCheck s .ss s.esp 12 .read = .ok () ∧
      ∃ nEip slot nFl d u, segRead s .ss s.esp 4 = .ok nEip ∧ segRead s .ss (s.esp + 4) 4 = .ok slot
        ∧ segRead s .ss (s.esp + 8) 4 = .ok nFl
        ∧ isNull (slot.extractLsb' 0 16) = false ∧ readDesc s (slot.extractLsb' 0 16) = .ok d
        ∧ checkReturnCS s (slot.extractLsb' 0 16) d nEip = .ok ()
        ∧ returnTo s nEip (slot.extractLsb' 0 16) d (returnLevel s.cfg (slot.extractLsb' 0 16) d) (s.esp + 12 + extra) extra
            = .ok u
        ∧ restoreFlags u nFl s.cpl = .ok t := by
  simp only [farReturn, bind_eq_ok, raiseIf_ok, exists_unit, if_true]
  constructor
  · rintro ⟨h1, e, h2, x, h3, f, h4, h5, d, h6, h7, u, h8, h9⟩
    exact ⟨h1, e, x, f, d, u, h2, h3, h4, h5, h6, h7, h8, h9⟩
  · rintro ⟨h1, e, x, f, d, u, h2, h3, h4, h5, h6, h7, h8, h9⟩
    exact ⟨h1, e, h2, x, h3, f, h4, h5, d, h6, h7, u, h8, h9⟩

end Sys2Proof.Machine
end

