-- ==== Sys2Proof/Laws/Faults.lean ====
section
/-! SUPPORT. What operations raise, and where they stop: for each, the conditions of the rule and the exception or fault. -/

namespace Sys2Proof.Machine

open Sys2Proof

/-! ### Descriptors -/

theorem readDesc_beyond {s : State} {sel : Half} (h : BeyondGdt s sel) :
    readDesc s sel = .error (.raise (.gp (selCode sel))) := by
  simp only [readDesc, h.1, refuseIf_false, ok_bind, h.2, decide_true, raiseIf_true, error_bind]

/-- A chain that reads a descriptor and then checks it raises what `DescRaises` says, if its checks do. -/
theorem descRaises_bind {s : State} {sel : Half} {x : Exc} {P : BitVec 64 → Prop} {α : Type} {f : BitVec 64 → Res α}
    (h : DescRaises s sel x P) (hf : ∀ d, readDesc s sel = .ok d → P d → f d = .error (.raise x)) :
    (readDesc s sel >>= f) = .error (.raise x) := by
  obtain ⟨-, ⟨hb, rfl⟩ | ⟨d, hd, hp⟩⟩ := h
  · rw [readDesc_beyond hb]; rfl
  · rw [hd]; exact hf d hd hp

/-- A condition that holds raises. -/
theorem raiseIf_of {c : Bool} {x : Exc} (h : c = true) : raiseIf c x = .error (.raise x) := by rw [h]; rfl

/-- A condition that does not hold lets the chain go on. -/
theorem raiseIf_not {c : Bool} {x : Exc} (h : c = false) : raiseIf c x = .ok () := by rw [h]; rfl

/-- Comparisons in one spelling. -/
theorem decide_lt {n : Nat} (a b : BitVec n) : decide (a < b) = !decide (b ≤ a) := by
  simp [← BitVec.not_lt]

theorem loadSeg_ss_raises {s : State} {sel : Half} {x : Exc} (h : StackLoadRaises s sel x) :
    loadSeg s .ss sel = .error (.raise x) := by
  rcases h with ⟨hn, rfl⟩ | h
  · simp [loadSeg, hn]
  · simp only [loadSeg, h.1, raiseIf_false, ok_bind]
    refine descRaises_bind h ?_
    intro d _ hp
    have : checkStackDesc s sel d = .error (.raise x) := by
      unfold checkStackDesc
      cases hh : hardwareRpl s.cfg <;> by_cases h1 : rplOf s.cfg sel = s.cpl <;> by_cases h2 : descKind d = .data <;>
        cases h3 : descRW d <;> by_cases h4 : descDpl d = s.cpl <;> simp_all
    rw [this, error_bind]

theorem loadSeg_data_raises {s : State} {r : SReg} {sel : Half} {x : Exc} (hcs : r ≠ .cs) (hss : r ≠ .ss)
    (h : DataLoadRaises s sel x) : loadSeg s r sel = .error (.raise x) := by
  have key : (readDesc s sel >>= fun d => checkDataDesc s sel d >>= fun _ => setAccessed s sel d >>= fun t =>
      .ok (t.setSeg r { sel := sel, cache := cacheOf d (descDpl d) })) = .error (.raise x) := by
    refine descRaises_bind h ?_
    intro d _ hp
    have : checkDataDesc s sel d = .error (.raise x) := by
      simp only [checkDataDesc, decide_lt]
      by_cases h1 : descKind d = .data <;> by_cases h2 : descKind d = .code <;> cases h3 : descRW d <;>
        cases h4 : descCE d <;> by_cases h5 : s.cpl ≤ descDpl d <;> by_cases h6 : rplOf s.cfg sel ≤ descDpl d <;>
        simp_all [-BitVec.not_le]
    rw [this, error_bind]
  cases r <;> first | exact absurd rfl hcs | exact absurd rfl hss | skip
  all_goals
    simp only [loadSeg, h.1, Bool.false_eq_true, if_false]
    exact key

theorem farTarget_raises {s : State} {sel : Half} {off : Word} {x : Exc} (h : FarTargetRaises s sel off x) :
    farTarget s sel off = .error (.raise x) := by
  rcases h with ⟨hn, rfl⟩ | h
  · simp [farTarget, hn]
  · simp only [farTarget, h.1, raiseIf_false, ok_bind]
    refine descRaises_bind h ?_
    intro d _ hp
    rcases hp with ⟨hk, rfl⟩ | ⟨hk, hc, hp⟩
    · simp [hk]
    · cases hh : hardwareRpl s.cfg <;> by_cases h1 : descDpl d = s.cpl <;> by_cases h2 : rplOf s.cfg sel ≤ s.cpl <;>
        cases h3 : descP d <;> simp_all [decide_lt s.cpl, -BitVec.not_le]

theorem checkReturnCS_raises {s : State} {sel : Half} {d : BitVec 64} {off : Word} {x : Exc}
    (h : descKind d ≠ .code ∧ x = .gp (selCode sel)
      ∨ descKind d = .code ∧ descCE d = false
        ∧ (¬(s.cpl ≤ returnLevel s.cfg sel d ∧ descDpl d = returnLevel s.cfg sel d) ∧ x = .gp (selCode sel)
          ∨ (s.cpl ≤ returnLevel s.cfg sel d ∧ descDpl d = returnLevel s.cfg sel d)
            ∧ (descP d = false ∧ x = .np (selCode sel)
              ∨ descP d = true ∧ effLimit (descLimit d) (descG d) < off ∧ x = .gp 0))) :
    checkReturnCS s sel d off = .error (.raise x) := by
  simp only [checkReturnCS]
  generalize returnLevel s.cfg sel d = lvl at h ⊢
  simp only [decide_lt lvl]
  rcases h with ⟨hk, rfl⟩ | ⟨hk, hc, h⟩
  · simp [hk]
  · by_cases h1 : s.cpl ≤ lvl <;> by_cases h2 : descDpl d = lvl <;> cases h3 : descP d <;>
      simp_all [-BitVec.not_le]

theorem checkReturnSS_raises {s : State} {lvl : Level} {sel : Half} {d : BitVec 64} {x : Exc}
    (h : let good := (hardwareRpl s.cfg = true → rplOf s.cfg sel = lvl) ∧ descKind d = .data ∧ descRW d = true
        ∧ descDpl d = lvl
      ¬good ∧ x = .gp (selCode sel) ∨ good ∧ descP d = false ∧ x = .ss (selCode sel)) :
    checkReturnSS s lvl sel d = .error (.raise x) := by
  unfold checkReturnSS
  cases hh : hardwareRpl s.cfg <;> by_cases h1 : rplOf s.cfg sel = lvl <;> by_cases h2 : descKind d = .data <;>
    cases h3 : descRW d <;> by_cases h4 : descDpl d = lvl <;> simp_all

/-- A return to an outer level raises what the check of the eight bytes above, or the SS image, raises. -/
theorem returnOuter_raises {s : State} {nEip : Word} {nCS : Half} {d : BitVec 64} {lvl : Level} {a extra : Word} {x : Exc}
    (h : segCheck s .ss a 8 .read = .error (.raise x) ∨ segCheck s .ss a 8 .read = .ok () ∧ ∃ esp slot,
      segRead s .ss a 4 = .ok esp ∧ segRead s .ss (a + 4) 4 = .ok slot
        ∧ ReturnStackRaises s lvl (slot.extractLsb' 0 16) x) :
    returnOuter s nEip nCS d lvl a extra = .error (.raise x) := by
  unfold returnOuter
  rcases h with h | ⟨h, esp, slot, h1, h2, h3⟩
  · rw [h, error_bind]
  · simp only [h, h1, h2, ok_bind]
    rcases h3 with ⟨hn, rfl⟩ | h3
    · simp [hn]
    · simp only [h3.1, raiseIf_false, ok_bind]
      refine descRaises_bind h3 ?_
      intro ds _ hp
      rw [checkReturnSS_raises hp, error_bind]

/-- LTR's load raises. -/
theorem loadTask_raises {s : State} {sel : Half} {x : Exc} (h : TaskLoadRaises s sel x) :
    loadTask s sel = .error (.raise x) := by
  rcases h with ⟨hn, rfl⟩ | h
  · simp [loadTask, hn]
  · simp only [loadTask, h.1, raiseIf_false, ok_bind]
    refine descRaises_bind h ?_
    intro d _ hp
    by_cases hh : s.cfg.ltrBusyRule = .hardware <;> by_cases h1 : descKind d = .tss <;> cases h2 : descRW d <;>
      cases h3 : descP d <;> simp_all [hardwareBusy]

/-! ### The stack of a more privileged level (rule R374) -/

/-- The slots of the TSS, counted as the rule counts them. -/
theorem taskSlot (base : Word) (k : Nat) (lvl : Level) :
    base + BitVec.ofNat 32 k + (lvl.setWidth 32 <<< 3) = base + BitVec.ofNat 32 (k + 8 * lvl.toNat) := by
  rw [BitVec.add_assoc]
  congr 1
  apply BitVec.eq_of_toNat_eq
  have := lvl.isLt
  simp [BitVec.toNat_shiftLeft, Nat.shiftLeft_eq]
  omega

/-- `TaskGives` is what `NewStack` reads. -/
theorem taskGives_iff {s : State} {lvl : Level} {nSS : Half} {nEsp : Word} :
    TaskGives s lvl nSS nEsp ↔ s.tr.valid = true ∧ 8 * lvl.toNat + 11 ≤ (effLimit s.tr.limit s.tr.g).toNat
      ∧ linRead s (s.tr.base + 4 + (lvl.setWidth 32 <<< 3)) 4 = .ok nEsp
      ∧ linRead s (s.tr.base + 8 + (lvl.setWidth 32 <<< 3)) 2 = .ok nSS := by
  have h4 := taskSlot s.tr.base 4 lvl
  have h8 := taskSlot s.tr.base 8 lvl
  unfold TaskGives
  rw [← h4, ← h8]
  rfl

/-- Where the TSS gives a stack, `NewStack` answers it, and nothing else. -/
theorem newStack_iff {s : State} {lvl : Level} {nSS : Half} {nEsp : Word} {ds : BitVec 64} :
    newStack s lvl = .ok (nSS, nEsp, ds) ↔ TaskGives s lvl nSS nEsp ∧ ReturnStackOk s lvl nSS ds := by
  rw [newStack_ok, taskGives_iff]
  unfold ReturnStackOk
  tauto

/-- Where the TSS gives no stack, `NewStack` stops the run. -/
theorem newStack_stops {s : State} {lvl : Level} {f : Fault} (h : InnerStackStop s lvl f) :
    newStack s lvl = .error (.stop f) := by
  rcases h with ⟨hv, rfl⟩ | ⟨hv, hl, rfl⟩ | ⟨nSS, nEsp, hg, h⟩
  · simp [newStack, hv]
  · simp [newStack, hv, hl]
  · obtain ⟨hv, hl, he, hs⟩ := taskGives_iff.1 hg
    have hl' : decide ((effLimit s.tr.limit s.tr.g).toNat < 8 * lvl.toNat + 11) = false := by simpa using hl
    simp only [newStack, hv, Bool.not_true, stopIf_false, ok_bind, hl', he, hs]
    rcases h with ⟨hn, rfl⟩ | ⟨hn, hb | ⟨ds, hd, hb⟩, rfl⟩
    · simp [hn]
    · simp [hn, readDesc_beyond hb, orBadStack]
    · simp only [hn, hd, orBadStack, stopIf_false, ok_bind]
      unfold ReturnStackOk at hb
      cases hh : hardwareRpl s.cfg <;> by_cases h1 : rplOf s.cfg nSS = lvl <;> by_cases h2 : descKind ds = .data <;>
        cases h3 : descRW ds <;> by_cases h4 : descDpl ds = lvl <;> cases h5 : descP ds <;> cases h6 : descDB ds <;> simp_all

/-- The limit part of the check, for a data segment with B = 1. -/
theorem limitOk_iff {d : BitVec 64} {lvl : Level} {off : Word} {n : Nat} (hk : descKind d = .data) (hb : descDB d = true)
    (_ : 1 ≤ n) : limitOk (cacheOf d lvl) off n = true ↔ DescHolds d off n := by
  have h1 := cacheOf_kind_data (lvl := lvl) hk
  have h2 : (cacheOf d lvl).db = true := hb
  have h3 : (cacheOf d lvl).ce = descCE d := rfl
  have h4 : effLimit (cacheOf d lvl).limit (cacheOf d lvl).g = effLimit (descLimit d) (descG d) := rfl
  unfold limitOk DescHolds
  rw [h1, h2, h3, h4]
  cases descCE d
  · simp
  · simp; omega

/-- A frame that does not fit stops the run, whatever the event (rule R370, step 3b; U34). -/
theorem innerFrame_outside {s : State} {lvl : Level} {v : Byte} {eip : Word} {code : Option Half}
    (h : InnerFrameOutside s lvl code) : innerFrame s lvl v eip code = .error (.stop (.duringDelivery v)) := by
  obtain ⟨nSS, nEsp, ds, h1, h2, h3⟩ := h
  have hn : (if code.isSome then 24 else 20 : Nat) = frameSize code + 8 := by cases code <;> rfl
  have hl : limitOk (cacheOf ds lvl) (nEsp - BitVec.ofNat 32 (frameSize code + 8)) (frameSize code + 8) = false := by
    rw [Bool.eq_false_iff, Ne, limitOk_iff h2.2.2.2.1 h2.2.2.2.2.2.2.2 (by omega)]
    exact h3
  simp only [innerFrame, newStack_iff.2 ⟨h1, h2⟩, ok_bind, hn, hl, Bool.not_false, stopIf_true, error_bind]

end Sys2Proof.Machine
end

