-- ==== Sys2Proof/Laws/PerInstr.lean ====
section
/-! SUPPORT. The family EncodedLength: the length of every instruction, constructor by constructor (rule R131). -/

namespace Sys2Proof.Laws

open Sys2Proof

set_option linter.unusedSimpArgs false
set_option Elab.async false

/-- An instruction is 1 to 12 bytes long (rule R131). -/
def EncodedLength.Statement (i : Instr) : Prop := 1 ≤ (encode i).length ∧ (encode i).length ≤ maxLength

theorem EncodedLength.pushR32 (ov : Option SReg) (r : Reg) :
    EncodedLength.Statement (.pushR32 ov r) := by
  have h0 := overrideBytes_length ov
  simp only [EncodedLength.Statement, encode, maxLength, List.length_append, List.length_cons, List.length_nil,
    bytes16_length, bytes32_length]
  omega

theorem EncodedLength.pushRm32 (ov : Option SReg) (op : RM Reg) :
    EncodedLength.Statement (.pushRm32 ov op) := by
  have h0 := overrideBytes_length ov
  have h1 := RM.encode_length Reg.code 6 op
  simp only [EncodedLength.Statement, encode, maxLength, List.length_append, List.length_cons, List.length_nil,
    bytes16_length, bytes32_length]
  omega

theorem EncodedLength.pushImm32 (ov : Option SReg) (imm : BitVec 32) :
    EncodedLength.Statement (.pushImm32 ov imm) := by
  have h0 := overrideBytes_length ov
  simp only [EncodedLength.Statement, encode, maxLength, List.length_append, List.length_cons, List.length_nil,
    bytes16_length, bytes32_length]
  omega

theorem EncodedLength.pushImm8 (ov : Option SReg) (imm : BitVec 8) :
    EncodedLength.Statement (.pushImm8 ov imm) := by
  have h0 := overrideBytes_length ov
  simp only [EncodedLength.Statement, encode, maxLength, List.length_append, List.length_cons, List.length_nil,
    bytes16_length, bytes32_length]
  omega

theorem EncodedLength.pushEs (ov : Option SReg) :
    EncodedLength.Statement (.pushEs ov) := by
  have h0 := overrideBytes_length ov
  simp only [EncodedLength.Statement, encode, maxLength, List.length_append, List.length_cons, List.length_nil,
    bytes16_length, bytes32_length]
  omega

theorem EncodedLength.pushCs (ov : Option SReg) :
    EncodedLength.Statement (.pushCs ov) := by
  have h0 := overrideBytes_length ov
  simp only [EncodedLength.Statement, encode, maxLength, List.length_append, List.length_cons, List.length_nil,
    bytes16_length, bytes32_length]
  omega

theorem EncodedLength.pushSs (ov : Option SReg) :
    EncodedLength.Statement (.pushSs ov) := by
  have h0 := overrideBytes_length ov
  simp only [EncodedLength.Statement, encode, maxLength, List.length_append, List.length_cons, List.length_nil,
    bytes16_length, bytes32_length]
  omega

theorem EncodedLength.pushDs (ov : Option SReg) :
    EncodedLength.Statement (.pushDs ov) := by
  have h0 := overrideBytes_length ov
  simp only [EncodedLength.Statement, encode, maxLength, List.length_append, List.length_cons, List.length_nil,
    bytes16_length, bytes32_length]
  omega

theorem EncodedLength.pushFs (ov : Option SReg) :
    EncodedLength.Statement (.pushFs ov) := by
  have h0 := overrideBytes_length ov
  simp only [EncodedLength.Statement, encode, maxLength, List.length_append, List.length_cons, List.length_nil,
    bytes16_length, bytes32_length]
  omega

theorem EncodedLength.pushGs (ov : Option SReg) :
    EncodedLength.Statement (.pushGs ov) := by
  have h0 := overrideBytes_length ov
  simp only [EncodedLength.Statement, encode, maxLength, List.length_append, List.length_cons, List.length_nil,
    bytes16_length, bytes32_length]
  omega

theorem EncodedLength.popR32 (ov : Option SReg) (r : Reg) :
    EncodedLength.Statement (.popR32 ov r) := by
  have h0 := overrideBytes_length ov
  simp only [EncodedLength.Statement, encode, maxLength, List.length_append, List.length_cons, List.length_nil,
    bytes16_length, bytes32_length]
  omega

theorem EncodedLength.popRm32 (ov : Option SReg) (op : RM Reg) :
    EncodedLength.Statement (.popRm32 ov op) := by
  have h0 := overrideBytes_length ov
  have h1 := RM.encode_length Reg.code 0 op
  simp only [EncodedLength.Statement, encode, maxLength, List.length_append, List.length_cons, List.length_nil,
    bytes16_length, bytes32_length]
  omega

theorem EncodedLength.popEs (ov : Option SReg) :
    EncodedLength.Statement (.popEs ov) := by
  have h0 := overrideBytes_length ov
  simp only [EncodedLength.Statement, encode, maxLength, List.length_append, List.length_cons, List.length_nil,
    bytes16_length, bytes32_length]
  omega

theorem EncodedLength.popSs (ov : Option SReg) :
    EncodedLength.Statement (.popSs ov) := by
  have h0 := overrideBytes_length ov
  simp only [EncodedLength.Statement, encode, maxLength, List.length_append, List.length_cons, List.length_nil,
    bytes16_length, bytes32_length]
  omega

theorem EncodedLength.popDs (ov : Option SReg) :
    EncodedLength.Statement (.popDs ov) := by
  have h0 := overrideBytes_length ov
  simp only [EncodedLength.Statement, encode, maxLength, List.length_append, List.length_cons, List.length_nil,
    bytes16_length, bytes32_length]
  omega

theorem EncodedLength.popFs (ov : Option SReg) :
    EncodedLength.Statement (.popFs ov) := by
  have h0 := overrideBytes_length ov
  simp only [EncodedLength.Statement, encode, maxLength, List.length_append, List.length_cons, List.length_nil,
    bytes16_length, bytes32_length]
  omega

theorem EncodedLength.popGs (ov : Option SReg) :
    EncodedLength.Statement (.popGs ov) := by
  have h0 := overrideBytes_length ov
  simp only [EncodedLength.Statement, encode, maxLength, List.length_append, List.length_cons, List.length_nil,
    bytes16_length, bytes32_length]
  omega

theorem EncodedLength.pusha (ov : Option SReg) :
    EncodedLength.Statement (.pusha ov) := by
  have h0 := overrideBytes_length ov
  simp only [EncodedLength.Statement, encode, maxLength, List.length_append, List.length_cons, List.length_nil,
    bytes16_length, bytes32_length]
  omega

theorem EncodedLength.popa (ov : Option SReg) :
    EncodedLength.Statement (.popa ov) := by
  have h0 := overrideBytes_length ov
  simp only [EncodedLength.Statement, encode, maxLength, List.length_append, List.length_cons, List.length_nil,
    bytes16_length, bytes32_length]
  omega

theorem EncodedLength.jmpRel8 (ov : Option SReg) (rel : BitVec 8) :
    EncodedLength.Statement (.jmpRel8 ov rel) := by
  have h0 := overrideBytes_length ov
  simp only [EncodedLength.Statement, encode, maxLength, List.length_append, List.length_cons, List.length_nil,
    bytes16_length, bytes32_length]
  omega

theorem EncodedLength.jmpRel32 (ov : Option SReg) (rel : BitVec 32) :
    EncodedLength.Statement (.jmpRel32 ov rel) := by
  have h0 := overrideBytes_length ov
  simp only [EncodedLength.Statement, encode, maxLength, List.length_append, List.length_cons, List.length_nil,
    bytes16_length, bytes32_length]
  omega

theorem EncodedLength.jmpRm32 (ov : Option SReg) (op : RM Reg) :
    EncodedLength.Statement (.jmpRm32 ov op) := by
  have h0 := overrideBytes_length ov
  have h1 := RM.encode_length Reg.code 4 op
  simp only [EncodedLength.Statement, encode, maxLength, List.length_append, List.length_cons, List.length_nil,
    bytes16_length, bytes32_length]
  omega

theorem EncodedLength.jmpM1632 (ov : Option SReg) (m : MemRef) :
    EncodedLength.Statement (.jmpM1632 ov m) := by
  have h0 := overrideBytes_length ov
  have h1 := MemRef.encode_length 5 m
  simp only [EncodedLength.Statement, encode, maxLength, List.length_append, List.length_cons, List.length_nil,
    bytes16_length, bytes32_length]
  omega

theorem EncodedLength.jmpPtr1632 (ov : Option SReg) (off : BitVec 32) (sel : BitVec 16) :
    EncodedLength.Statement (.jmpPtr1632 ov off sel) := by
  have h0 := overrideBytes_length ov
  simp only [EncodedLength.Statement, encode, maxLength, List.length_append, List.length_cons, List.length_nil,
    bytes16_length, bytes32_length]
  omega

theorem EncodedLength.callRel32 (ov : Option SReg) (rel : BitVec 32) :
    EncodedLength.Statement (.callRel32 ov rel) := by
  have h0 := overrideBytes_length ov
  simp only [EncodedLength.Statement, encode, maxLength, List.length_append, List.length_cons, List.length_nil,
    bytes16_length, bytes32_length]
  omega

theorem EncodedLength.callRm32 (ov : Option SReg) (op : RM Reg) :
    EncodedLength.Statement (.callRm32 ov op) := by
  have h0 := overrideBytes_length ov
  have h1 := RM.encode_length Reg.code 2 op
  simp only [EncodedLength.Statement, encode, maxLength, List.length_append, List.length_cons, List.length_nil,
    bytes16_length, bytes32_length]
  omega

theorem EncodedLength.callM1632 (ov : Option SReg) (m : MemRef) :
    EncodedLength.Statement (.callM1632 ov m) := by
  have h0 := overrideBytes_length ov
  have h1 := MemRef.encode_length 3 m
  simp only [EncodedLength.Statement, encode, maxLength, List.length_append, List.length_cons, List.length_nil,
    bytes16_length, bytes32_length]
  omega

theorem EncodedLength.callPtr1632 (ov : Option SReg) (off : BitVec 32) (sel : BitVec 16) :
    EncodedLength.Statement (.callPtr1632 ov off sel) := by
  have h0 := overrideBytes_length ov
  simp only [EncodedLength.Statement, encode, maxLength, List.length_append, List.length_cons, List.length_nil,
    bytes16_length, bytes32_length]
  omega

theorem EncodedLength.ret (ov : Option SReg) :
    EncodedLength.Statement (.ret ov) := by
  have h0 := overrideBytes_length ov
  simp only [EncodedLength.Statement, encode, maxLength, List.length_append, List.length_cons, List.length_nil,
    bytes16_length, bytes32_length]
  omega

theorem EncodedLength.retImm16 (ov : Option SReg) (imm : BitVec 16) :
    EncodedLength.Statement (.retImm16 ov imm) := by
  have h0 := overrideBytes_length ov
  simp only [EncodedLength.Statement, encode, maxLength, List.length_append, List.length_cons, List.length_nil,
    bytes16_length, bytes32_length]
  omega

theorem EncodedLength.retFar (ov : Option SReg) :
    EncodedLength.Statement (.retFar ov) := by
  have h0 := overrideBytes_length ov
  simp only [EncodedLength.Statement, encode, maxLength, List.length_append, List.length_cons, List.length_nil,
    bytes16_length, bytes32_length]
  omega

theorem EncodedLength.retFarImm16 (ov : Option SReg) (imm : BitVec 16) :
    EncodedLength.Statement (.retFarImm16 ov imm) := by
  have h0 := overrideBytes_length ov
  simp only [EncodedLength.Statement, encode, maxLength, List.length_append, List.length_cons, List.length_nil,
    bytes16_length, bytes32_length]
  omega

theorem EncodedLength.movSregRm16 (ov : Option SReg) (sr : SReg) (op : RM Reg) :
    EncodedLength.Statement (.movSregRm16 ov sr op) := by
  have h0 := overrideBytes_length ov
  have h1 := RM.encode_length Reg.code sr.code op
  simp only [EncodedLength.Statement, encode, maxLength, List.length_append, List.length_cons, List.length_nil,
    bytes16_length, bytes32_length]
  omega

theorem EncodedLength.movRm16Sreg (ov : Option SReg) (op : RM Reg) (sr : SReg) :
    EncodedLength.Statement (.movRm16Sreg ov op sr) := by
  have h0 := overrideBytes_length ov
  have h1 := RM.encode_length Reg.code sr.code op
  simp only [EncodedLength.Statement, encode, maxLength, List.length_append, List.length_cons, List.length_nil,
    bytes16_length, bytes32_length]
  omega

theorem EncodedLength.lgdt (ov : Option SReg) (m : MemRef) :
    EncodedLength.Statement (.lgdt ov m) := by
  have h0 := overrideBytes_length ov
  have h1 := MemRef.encode_length 2 m
  simp only [EncodedLength.Statement, encode, maxLength, List.length_append, List.length_cons, List.length_nil,
    bytes16_length, bytes32_length]
  omega

theorem EncodedLength.lidt (ov : Option SReg) (m : MemRef) :
    EncodedLength.Statement (.lidt ov m) := by
  have h0 := overrideBytes_length ov
  have h1 := MemRef.encode_length 3 m
  simp only [EncodedLength.Statement, encode, maxLength, List.length_append, List.length_cons, List.length_nil,
    bytes16_length, bytes32_length]
  omega

theorem EncodedLength.ltr (ov : Option SReg) (op : RM Reg) :
    EncodedLength.Statement (.ltr ov op) := by
  have h0 := overrideBytes_length ov
  have h1 := RM.encode_length Reg.code 3 op
  simp only [EncodedLength.Statement, encode, maxLength, List.length_append, List.length_cons, List.length_nil,
    bytes16_length, bytes32_length]
  omega

theorem EncodedLength.cli (ov : Option SReg) :
    EncodedLength.Statement (.cli ov) := by
  have h0 := overrideBytes_length ov
  simp only [EncodedLength.Statement, encode, maxLength, List.length_append, List.length_cons, List.length_nil,
    bytes16_length, bytes32_length]
  omega

theorem EncodedLength.sti (ov : Option SReg) :
    EncodedLength.Statement (.sti ov) := by
  have h0 := overrideBytes_length ov
  simp only [EncodedLength.Statement, encode, maxLength, List.length_append, List.length_cons, List.length_nil,
    bytes16_length, bytes32_length]
  omega

theorem EncodedLength.intN (ov : Option SReg) (n : BitVec 8) :
    EncodedLength.Statement (.intN ov n) := by
  have h0 := overrideBytes_length ov
  simp only [EncodedLength.Statement, encode, maxLength, List.length_append, List.length_cons, List.length_nil,
    bytes16_length, bytes32_length]
  omega

theorem EncodedLength.int3 (ov : Option SReg) :
    EncodedLength.Statement (.int3 ov) := by
  have h0 := overrideBytes_length ov
  simp only [EncodedLength.Statement, encode, maxLength, List.length_append, List.length_cons, List.length_nil,
    bytes16_length, bytes32_length]
  omega

theorem EncodedLength.into (ov : Option SReg) :
    EncodedLength.Statement (.into ov) := by
  have h0 := overrideBytes_length ov
  simp only [EncodedLength.Statement, encode, maxLength, List.length_append, List.length_cons, List.length_nil,
    bytes16_length, bytes32_length]
  omega

theorem EncodedLength.bound (ov : Option SReg) (r : Reg) (m : MemRef) :
    EncodedLength.Statement (.bound ov r m) := by
  have h0 := overrideBytes_length ov
  have h1 := MemRef.encode_length r.code m
  simp only [EncodedLength.Statement, encode, maxLength, List.length_append, List.length_cons, List.length_nil,
    bytes16_length, bytes32_length]
  omega

theorem EncodedLength.iret (ov : Option SReg) :
    EncodedLength.Statement (.iret ov) := by
  have h0 := overrideBytes_length ov
  simp only [EncodedLength.Statement, encode, maxLength, List.length_append, List.length_cons, List.length_nil,
    bytes16_length, bytes32_length]
  omega

theorem EncodedLength.movRm8R8 (ov : Option SReg) (op : RM Reg8) (r : Reg8) :
    EncodedLength.Statement (.movRm8R8 ov op r) := by
  have h0 := overrideBytes_length ov
  have h1 := RM.encode_length Reg8.code r.code op
  simp only [EncodedLength.Statement, encode, maxLength, List.length_append, List.length_cons, List.length_nil,
    bytes16_length, bytes32_length]
  omega

theorem EncodedLength.movRm32R32 (ov : Option SReg) (op : RM Reg) (r : Reg) :
    EncodedLength.Statement (.movRm32R32 ov op r) := by
  have h0 := overrideBytes_length ov
  have h1 := RM.encode_length Reg.code r.code op
  simp only [EncodedLength.Statement, encode, maxLength, List.length_append, List.length_cons, List.length_nil,
    bytes16_length, bytes32_length]
  omega

theorem EncodedLength.movR8Rm8 (ov : Option SReg) (r : Reg8) (op : RM Reg8) :
    EncodedLength.Statement (.movR8Rm8 ov r op) := by
  have h0 := overrideBytes_length ov
  have h1 := RM.encode_length Reg8.code r.code op
  simp only [EncodedLength.Statement, encode, maxLength, List.length_append, List.length_cons, List.length_nil,
    bytes16_length, bytes32_length]
  omega

theorem EncodedLength.movR32Rm32 (ov : Option SReg) (r : Reg) (op : RM Reg) :
    EncodedLength.Statement (.movR32Rm32 ov r op) := by
  have h0 := overrideBytes_length ov
  have h1 := RM.encode_length Reg.code r.code op
  simp only [EncodedLength.Statement, encode, maxLength, List.length_append, List.length_cons, List.length_nil,
    bytes16_length, bytes32_length]
  omega

theorem EncodedLength.movR8Imm8 (ov : Option SReg) (r : Reg8) (imm : BitVec 8) :
    EncodedLength.Statement (.movR8Imm8 ov r imm) := by
  have h0 := overrideBytes_length ov
  simp only [EncodedLength.Statement, encode, maxLength, List.length_append, List.length_cons, List.length_nil,
    bytes16_length, bytes32_length]
  omega

theorem EncodedLength.movR32Imm32 (ov : Option SReg) (r : Reg) (imm : BitVec 32) :
    EncodedLength.Statement (.movR32Imm32 ov r imm) := by
  have h0 := overrideBytes_length ov
  simp only [EncodedLength.Statement, encode, maxLength, List.length_append, List.length_cons, List.length_nil,
    bytes16_length, bytes32_length]
  omega

theorem EncodedLength.movRm8Imm8 (ov : Option SReg) (op : RM Reg8) (imm : BitVec 8) :
    EncodedLength.Statement (.movRm8Imm8 ov op imm) := by
  have h0 := overrideBytes_length ov
  have h1 := RM.encode_length Reg8.code 0 op
  simp only [EncodedLength.Statement, encode, maxLength, List.length_append, List.length_cons, List.length_nil,
    bytes16_length, bytes32_length]
  omega

theorem EncodedLength.movRm32Imm32 (ov : Option SReg) (op : RM Reg) (imm : BitVec 32) :
    EncodedLength.Statement (.movRm32Imm32 ov op imm) := by
  have h0 := overrideBytes_length ov
  have h1 := RM.encode_length Reg.code 0 op
  simp only [EncodedLength.Statement, encode, maxLength, List.length_append, List.length_cons, List.length_nil,
    bytes16_length, bytes32_length]
  omega

theorem EncodedLength.lea (ov : Option SReg) (r : Reg) (m : MemRef) :
    EncodedLength.Statement (.lea ov r m) := by
  have h0 := overrideBytes_length ov
  have h1 := MemRef.encode_length r.code m
  simp only [EncodedLength.Statement, encode, maxLength, List.length_append, List.length_cons, List.length_nil,
    bytes16_length, bytes32_length]
  omega

theorem EncodedLength.addRm32R32 (ov : Option SReg) (op : RM Reg) (r : Reg) :
    EncodedLength.Statement (.addRm32R32 ov op r) := by
  have h0 := overrideBytes_length ov
  have h1 := RM.encode_length Reg.code r.code op
  simp only [EncodedLength.Statement, encode, maxLength, List.length_append, List.length_cons, List.length_nil,
    bytes16_length, bytes32_length]
  omega

theorem EncodedLength.addR32Rm32 (ov : Option SReg) (r : Reg) (op : RM Reg) :
    EncodedLength.Statement (.addR32Rm32 ov r op) := by
  have h0 := overrideBytes_length ov
  have h1 := RM.encode_length Reg.code r.code op
  simp only [EncodedLength.Statement, encode, maxLength, List.length_append, List.length_cons, List.length_nil,
    bytes16_length, bytes32_length]
  omega

theorem EncodedLength.addRm32Imm32 (ov : Option SReg) (op : RM Reg) (imm : BitVec 32) :
    EncodedLength.Statement (.addRm32Imm32 ov op imm) := by
  have h0 := overrideBytes_length ov
  have h1 := RM.encode_length Reg.code 0 op
  simp only [EncodedLength.Statement, encode, maxLength, List.length_append, List.length_cons, List.length_nil,
    bytes16_length, bytes32_length]
  omega

theorem EncodedLength.addRm32Imm8 (ov : Option SReg) (op : RM Reg) (imm : BitVec 8) :
    EncodedLength.Statement (.addRm32Imm8 ov op imm) := by
  have h0 := overrideBytes_length ov
  have h1 := RM.encode_length Reg.code 0 op
  simp only [EncodedLength.Statement, encode, maxLength, List.length_append, List.length_cons, List.length_nil,
    bytes16_length, bytes32_length]
  omega

theorem EncodedLength.nop (ov : Option SReg) :
    EncodedLength.Statement (.nop ov) := by
  have h0 := overrideBytes_length ov
  simp only [EncodedLength.Statement, encode, maxLength, List.length_append, List.length_cons, List.length_nil,
    bytes16_length, bytes32_length]
  omega

end Sys2Proof.Laws
end

