-- ==== Sys2Proof/Laws/Step.lean ====
section
/-! SUPPORT. Everything a boundary and a step can do. -/

namespace Sys2Proof.Machine

open Sys2Proof

/-- A boundary changes the shadow and the oracle only (rule R351). -/
theorem boundary_frame {s s' : State} {r : Option Request} (h : boundary s = (r, s')) :
    ∃ o, s' = { s with shadow := false, oracle := o } := by
  unfold boundary at h
  split at h
  · cases h; exact ⟨s.oracle, rfl⟩
  · split at h <;> · cases h; exact ⟨_, rfl⟩

/-- Accepting a request is a delivery, from a state that may have NMI blocked (rules R352, R353). -/
theorem acceptRequest_eq_next {s t : State} {r : Request} (h : acceptRequest s r = .next t) :
    ∃ b v, deliver { s with nmiBlocked := b } .external v none s.eip = .ok t := by
  cases r with
  | intr v => exact ⟨s.nmiBlocked, v, deliverOrStop_eq_next h⟩
  | nmi => exact ⟨true, 2, deliverOrStop_eq_next h⟩

/-- Everything a step that answers a next state can have done, from the state `u` after the boundary: nothing (at `stop_eip`),
a delivery, or one instruction (rules R425, R352, R353, R360). -/
theorem step_eq_next {s t : State} (h : step s = .next t) :
    t = s ∨ ∃ o b, let u := { s with shadow := false, oracle := o, nmiBlocked := b }
      (∃ k v e p, deliver u k v e p = .ok t) ∨ ∃ i, fetchInstr u = .ok i ∧ exec i u = .next t := by
  unfold step at h
  split at h
  · cases h
  split at h
  · cases h
  split at h
  · cases h; exact .inl rfl
  refine .inr ?_
  split at h
  · rename_i r s' hb
    obtain ⟨o, rfl⟩ := boundary_frame hb
    obtain ⟨b, v, hd⟩ := acceptRequest_eq_next h
    exact ⟨o, b, .inl ⟨_, _, _, _, hd⟩⟩
  · rename_i s' hb
    obtain ⟨o, rfl⟩ := boundary_frame hb
    refine ⟨o, s.nmiBlocked, ?_⟩
    split at h
    · rename_i i hi
      exact .inr ⟨i, hi, h⟩
    · obtain hr | ⟨x, -, hx⟩ := settle_eq_next h
      · cases hr
      · exact .inl ⟨_, _, _, _, deliverOrStop_eq_next hx⟩

end Sys2Proof.Machine
end

