-- ==== Sys2Proof/Tests/Slice0.lean ====
section
/-! SUPPORT. Tests: ill-formed terms that the check refuses, hand-written words and what they decode to, one step of each
instruction with the results of spec/95_test_vectors.md (or worked out by hand from the rule named), and for every
statement a state and operands that meet its hypotheses. -/

namespace Sys2Proof.Tests

open Sys2Proof Sys2Proof.Machine

set_option maxRecDepth 20000
set_option Elab.async false

/-! ### Well-formedness: each check refuses a term (rules R143, R147, R149, R150, R270) -/

theorem test_wf_base_esp_needs_sib : (Instr.lea none .eax (.base .esp .none)).wellFormed = false := by decide
theorem test_wf_base_ebp_needs_disp : (Instr.lea none .eax (.base .ebp .none)).wellFormed = false := by decide
theorem test_wf_sib_ebp_needs_disp : (Instr.lea none .eax (.sib .ebp .x1 none .none)).wellFormed = false := by decide
theorem test_wf_sib_index_esp : (Instr.lea none .eax (.sib .eax .x1 (some .esp) .none)).wellFormed = false := by decide
theorem test_wf_sibAbs_index_esp : (Instr.lea none .eax (.sibAbs .x1 (some .esp) 0)).wellFormed = false := by decide
theorem test_wf_mov_to_cs : (Instr.movSregRm16 none .cs (.reg .eax)).wellFormed = false := by decide
theorem test_wf_operand : (Instr.pushRm32 none (.mem (.base .ebp .none))).wellFormed = false := by decide
theorem test_wf_memory_only : (Instr.lgdt none (.base .esp (.d8 0))).wellFormed = false := by decide

/-! ### Decoding: words written out from rules R132, R133, R140 to R150, R165 -/

theorem test_decode_pushR32 : decode [0x57] = .ok (.pushR32 none .edi, []) := by decide
theorem test_decode_pushRm32 : decode [0xFF, 0x34, 0x24] = .ok (.pushRm32 none (.mem (.sib .esp .x1 none .none)), []) := by decide
theorem test_decode_pushImm32 : decode [0x68, 0x78, 0x56, 0x34, 0x12] = .ok (.pushImm32 none 0x12345678, []) := by decide
theorem test_decode_pushImm8 : decode [0x6A, 0xFF] = .ok (.pushImm8 none 0xFF, []) := by decide
theorem test_decode_pushEs : decode [0x06] = .ok (.pushEs none, []) := by decide
theorem test_decode_pushCs : decode [0x0E] = .ok (.pushCs none, []) := by decide
theorem test_decode_pushSs : decode [0x16] = .ok (.pushSs none, []) := by decide
theorem test_decode_pushDs : decode [0x1E] = .ok (.pushDs none, []) := by decide
theorem test_decode_pushFs : decode [0x0F, 0xA0] = .ok (.pushFs none, []) := by decide
theorem test_decode_pushGs : decode [0x0F, 0xA8] = .ok (.pushGs none, []) := by decide
theorem test_decode_popR32 : decode [0x5C] = .ok (.popR32 none .esp, []) := by decide
theorem test_decode_popRm32 : decode [0x8F, 0x43, 0xF0] = .ok (.popRm32 none (.mem (.base .ebx (.d8 0xF0))), []) := by decide
theorem test_decode_popEs : decode [0x07] = .ok (.popEs none, []) := by decide
theorem test_decode_popSs : decode [0x17] = .ok (.popSs none, []) := by decide
theorem test_decode_popDs : decode [0x1F] = .ok (.popDs none, []) := by decide
theorem test_decode_popFs : decode [0x0F, 0xA1] = .ok (.popFs none, []) := by decide
theorem test_decode_popGs : decode [0x0F, 0xA9] = .ok (.popGs none, []) := by decide
theorem test_decode_pusha : decode [0x60] = .ok (.pusha none, []) := by decide
theorem test_decode_popa : decode [0x61] = .ok (.popa none, []) := by decide
theorem test_decode_jmpRel8 : decode [0xEB, 0xFE] = .ok (.jmpRel8 none 0xFE, []) := by decide
theorem test_decode_jmpRel32 : decode [0xE9, 0x00, 0x01, 0x00, 0x00] = .ok (.jmpRel32 none 0x100, []) := by decide
theorem test_decode_jmpRm32 : decode [0xFF, 0xE3] = .ok (.jmpRm32 none (.reg .ebx), []) := by decide
theorem test_decode_jmpM1632 : decode [0xFF, 0x2D, 0x00, 0x20, 0x00, 0x00] = .ok (.jmpM1632 none (.abs 0x2000), []) := by decide
theorem test_decode_jmpPtr1632 :
    decode [0xEA, 0x18, 0x00, 0x01, 0x00, 0x08, 0x00] = .ok (.jmpPtr1632 none 0x10018 0x0008, []) := by decide
theorem test_decode_callRel32 : decode [0xE8, 0x03, 0x00, 0x00, 0x00] = .ok (.callRel32 none 3, []) := by decide
theorem test_decode_callRm32 : decode [0xFF, 0xD3] = .ok (.callRm32 none (.reg .ebx), []) := by decide
theorem test_decode_callM1632 : decode [0xFF, 0x1B] = .ok (.callM1632 none (.base .ebx .none), []) := by decide
theorem test_decode_callPtr1632 :
    decode [0x9A, 0x18, 0x00, 0x01, 0x00, 0x08, 0x00] = .ok (.callPtr1632 none 0x10018 0x0008, []) := by decide
theorem test_decode_ret : decode [0xC3] = .ok (.ret none, []) := by decide
theorem test_decode_retImm16 : decode [0xC2, 0x08, 0x01] = .ok (.retImm16 none 0x0108, []) := by decide
theorem test_decode_retFar : decode [0xCB] = .ok (.retFar none, []) := by decide
theorem test_decode_retFarImm16 : decode [0xCA, 0x08, 0x01] = .ok (.retFarImm16 none 0x0108, []) := by decide
theorem test_decode_movSregRm16 : decode [0x8E, 0xE3] = .ok (.movSregRm16 none .fs (.reg .ebx), []) := by decide
theorem test_decode_movRm16Sreg : decode [0x8C, 0xC8] = .ok (.movRm16Sreg none (.reg .eax) .cs, []) := by decide
theorem test_decode_lgdt : decode [0x0F, 0x01, 0x13] = .ok (.lgdt none (.base .ebx .none), []) := by decide
theorem test_decode_lidt : decode [0x0F, 0x01, 0x1D, 0x08, 0x07, 0x00, 0x00] = .ok (.lidt none (.abs 0x708), []) := by decide
theorem test_decode_ltr : decode [0x0F, 0x00, 0xD8] = .ok (.ltr none (.reg .eax), []) := by decide
theorem test_decode_cli : decode [0xFA] = .ok (.cli none, []) := by decide
theorem test_decode_sti : decode [0xFB] = .ok (.sti none, []) := by decide
theorem test_decode_intN : decode [0xCD, 0x21] = .ok (.intN none 0x21, []) := by decide
theorem test_decode_int3 : decode [0xCC] = .ok (.int3 none, []) := by decide
theorem test_decode_into : decode [0xCE] = .ok (.into none, []) := by decide
theorem test_decode_bound : decode [0x62, 0x03] = .ok (.bound none .eax (.base .ebx .none), []) := by decide
theorem test_decode_iret : decode [0xCF] = .ok (.iret none, []) := by decide
theorem test_decode_movRm8R8 : decode [0x88, 0xDC] = .ok (.movRm8R8 none (.reg .ah) .bl, []) := by decide
theorem test_decode_movRm32R32 :
    decode [0x89, 0x44, 0x65, 0x08] = .ok (.movRm32R32 none (.mem (.sib .ebp .x2 none (.d8 8))) .eax, []) := by decide
theorem test_decode_movR8Rm8 : decode [0x8A, 0xE3] = .ok (.movR8Rm8 none .ah (.reg .bl), []) := by decide
theorem test_decode_movR32Rm32 :
    decode [0x8B, 0x04, 0x8B] = .ok (.movR32Rm32 none .eax (.mem (.sib .ebx .x4 (some .ecx) .none)), []) := by decide
theorem test_decode_movR8Imm8 : decode [0xB7, 0x5A] = .ok (.movR8Imm8 none .bh 0x5A, []) := by decide
theorem test_decode_movR32Imm32 : decode [0xB9, 0x03, 0x00, 0x00, 0x80] = .ok (.movR32Imm32 none .ecx 0x80000003, []) := by decide
theorem test_decode_movRm8Imm8 : decode [0xC6, 0x45, 0xFC, 0x7F] = .ok (.movRm8Imm8 none (.mem (.base .ebp (.d8 0xFC))) 0x7F, []) := by decide
theorem test_decode_movRm32Imm32 :
    decode [0xC7, 0x05, 0x04, 0x0C, 0x00, 0x00, 0x00, 0x90, 0x00, 0x00] = .ok (.movRm32Imm32 none (.mem (.abs 0xC04)) 0x9000, []) := by
  decide
theorem test_decode_lea :
    decode [0x8D, 0x04, 0x8D, 0xFF, 0xFF, 0xFF, 0xFF] = .ok (.lea none .eax (.sibAbs .x4 (some .ecx) 0xFFFFFFFF), []) := by decide
theorem test_decode_addRm32R32 : decode [0x01, 0xD8] = .ok (.addRm32R32 none (.reg .eax) .ebx, []) := by decide
theorem test_decode_addR32Rm32 : decode [0x03, 0xC3] = .ok (.addR32Rm32 none .eax (.reg .ebx), []) := by decide
theorem test_decode_addRm32Imm32 : decode [0x81, 0xC3, 0x00, 0x00, 0x00, 0x80] = .ok (.addRm32Imm32 none (.reg .ebx) 0x80000000, []) := by decide
theorem test_decode_addRm32Imm8 : decode [0x83, 0xC0, 0xFF] = .ok (.addRm32Imm8 none (.reg .eax) 0xFF, []) := by decide
theorem test_decode_nop : decode [0x90] = .ok (.nop none, []) := by decide

theorem test_decode_override : decode [0x2E, 0x8B, 0x03] = .ok (.movR32Rm32 (some .cs) .eax (.mem (.base .ebx .none)), []) := by decide
theorem test_decode_second_override : decode [0x2E, 0x36, 0x90] = .error (.bad (.secondPrefix 0x36)) := by decide
theorem test_decode_excluded_prefix : decode [0x66, 0x90] = .error (.bad (.excludedPrefix 0x66)) := by decide
theorem test_decode_unlisted_opcode : decode [0xF4] = .error (.bad (.unlistedOpcode 0xF4)) := by decide
theorem test_decode_unlisted_opcode0F : decode [0x0F, 0x20, 0xC0] = .error (.bad (.unlistedOpcode0F 0x20)) := by decide
theorem test_decode_unlisted_extension : decode [0xFF, 0x38] = .error (.bad (.unlistedExtension 0xFF 7)) := by decide
theorem test_decode_memory_form_only : decode [0x0F, 0x01, 0xD0] = .error (.bad (.memoryFormOnly 0x01)) := by decide
theorem test_decode_bad_sreg : decode [0x8E, 0xF0] = .error (.bad (.badSreg 6)) := by decide
theorem test_decode_mov_cs : decode [0x8E, 0xC8] = .error (.bad (.badSreg 1)) := by decide
theorem test_decode_truncated : decode [0x68, 0x78, 0x56, 0x34] = .error .truncated := by decide

/-! ### States -/

/-- Bytes placed at an address. -/
def put (s : State) (a : Nat) (bs : List Byte) : State := placeBytes s (BitVec.ofNat 32 a) bs

/-- A general register given. -/
def reg (s : State) (r : Reg) (v : Word) : State := s.setReg r v

/-- The flat launch of spec/95_test_vectors.md, with ESP = 00008000h and EIP = 00001000h. -/
def base : State := { reg State.reset .esp 0x8000 with eip := 0x1000 }

/-- Code at CS:EIP. -/
def code (s : State) (bs : List Byte) : State := put s s.eip.toNat bs

/-- What one step over the given code makes of a state; nothing where it stops. -/
def after {α : Type} (s : State) (bs : List Byte) (f : State → α) : Option α :=
  match step (code s bs) with
  | .next t => some (f t)
  | _ => none

/-- The refusal a step ends in, if it ends in one. -/
def refusal (s : State) : Option Refusal := match step s with
  | .refused r => some r
  | _ => none

/-- The fault a step ends in, if it ends in one. -/
def stop (s : State) : Option Fault := match step s with
  | .fault f => some f
  | _ => none

/-- The doubleword at a physical address. -/
def dword (s : State) (a : Nat) : Word := le32 (s.byteAt a) (s.byteAt (a + 1)) (s.byteAt (a + 2)) (s.byteAt (a + 3))

/-- The GDT of program P2 at 00000800h (spec/95_test_vectors.md, section 3). -/
def withGdt (s : State) : State :=
  put { s with gdtr := { base := 0x800, limit := 0x2F } } 0x808
    [0xFF, 0xFF, 0, 0, 0, 0x9A, 0xCF, 0, 0xFF, 0xFF, 0, 0, 0, 0x92, 0xCF, 0, 0xFF, 0xFF, 0, 0, 0, 0xFA, 0xCF, 0,
      0xFF, 0xFF, 0, 0, 0, 0xF2, 0xCF, 0, 0x67, 0, 0, 0x0C, 0, 0x89, 0, 0]

/-- One gate of an IDT at 00002000h. -/
def withGate (s : State) (v : Nat) (bs : List Byte) : State :=
  put { s with idtr := { base := 0x2000, limit := 0x7FF } } (0x2000 + 8 * v) bs

/-- The TSS of program P2, loaded: SS:ESP for level 0 is 0010h:00009000h. -/
def withTask (s : State) : State :=
  put { s with tr := { sel := 0x28, base := 0xC00, limit := 0x67, g := false, p := true, dpl := 0, b := true, valid := true } }
    0xC04 [0, 0x90, 0, 0, 0x10, 0]

/-- User level as program P2 leaves it: CS = 001Bh, SS = DS = ES = 0023h, ESP = 00030000h. -/
def user (s : State) : State :=
  let data : SegReg := { sel := 0x23, cache := { flatData with priv := 3 } }
  { reg s .esp 0x30000 with
    eflags := 0x202
    segs := { s.segs with cs := { sel := 0x1B, cache := { flatCode with priv := 3 } }, ss := data, ds := data, es := data } }

/-- Level 0 with the GDT. -/
def sys : State := withGdt base

/-- The descriptors of program P2's GDT. -/
def codeDesc : BitVec 64 := 0x00CF9A000000FFFF
def dataDesc : BitVec 64 := 0x00CF92000000FFFF
def userCodeDesc : BitVec 64 := 0x00CFFA000000FFFF
def userDataDesc : BitVec 64 := 0x00CFF2000000FFFF
def taskDesc : BitVec 64 := 0x000089000C000067

/-- A trap gate of DPL 3 to 0008h:00010100h (gate 48 of program P2). -/
def trapGate : List Byte := [0, 1, 8, 0, 0, 0xEF, 1, 0]

/-- An interrupt gate of DPL 0 to 0008h:00010300h (gate 13 of program P2). -/
def intGate : List Byte := [0, 3, 8, 0, 0, 0x8E, 1, 0]

theorem test_descriptor_words : readDesc sys 0x08 = .ok codeDesc ∧ readDesc sys 0x10 = .ok dataDesc ∧ readDesc sys 0x1B = .ok userCodeDesc
    ∧ readDesc sys 0x23 = .ok userDataDesc ∧ readDesc sys 0x28 = .ok taskDesc := by decide

/-! ### One step of each instruction -/

-- Section 2.4 of the test vectors; `written` shows which bytes a slot with any value in it covers.
theorem test_pushR32 : after (reg base .eax 0x11223344) [0x50] (fun t => (t.esp, t.eip, dword t 0x7FFC)) = some (0x7FFC, 0x1001, 0x11223344) := by
  decide
theorem test_pushR32_esp : after base [0x54] (fun t => (t.esp, dword t 0x7FFC)) = some (0x7FFC, 0x8000) := by decide
theorem test_pushRm32 : after (put base 0x8000 [0xBB, 0xBB, 0xBB, 0xBB]) [0xFF, 0x34, 0x24] (fun t => (t.esp, dword t 0x7FFC)) = some (0x7FFC, 0xBBBBBBBB) := by
  decide
theorem test_pushImm32 : after base [0x68, 0x78, 0x56, 0x34, 0x12] (fun t => (t.eip, dword t 0x7FFC)) = some (0x1005, 0x12345678) := by decide
theorem test_pushImm8 : after base [0x6A, 0xFF] (fun t => (t.eip, dword t 0x7FFC)) = some (0x1002, 0xFFFFFFFF) := by decide
theorem test_pushEs : after base [0x06] (fun t => (t.esp, t.eip, t.written)) = some (0x7FFC, 0x1001, [0x7FFC, 0x7FFD, 0x7FFE, 0x7FFF]) := by decide
theorem test_pushCs : after base [0x0E] (fun t => (t.esp, t.eip, t.written)) = some (0x7FFC, 0x1001, [0x7FFC, 0x7FFD, 0x7FFE, 0x7FFF]) := by decide
theorem test_pushSs : after base [0x16] (fun t => (t.esp, t.eip, t.written)) = some (0x7FFC, 0x1001, [0x7FFC, 0x7FFD, 0x7FFE, 0x7FFF]) := by decide
theorem test_pushDs : after base [0x1E] (fun t => (t.esp, t.eip, t.written)) = some (0x7FFC, 0x1001, [0x7FFC, 0x7FFD, 0x7FFE, 0x7FFF]) := by decide
theorem test_pushFs : after base [0x0F, 0xA0] (fun t => (t.esp, t.eip, t.freeCount)) = some (0x7FFC, 0x1002, 1) := by decide
theorem test_pushGs : after base [0x0F, 0xA8] (fun t => (t.esp, t.eip, t.freeCount)) = some (0x7FFC, 0x1002, 1) := by decide
theorem test_popR32 : after (put base 0x8000 [0x44, 0x33, 0x22, 0x11]) [0x5B] (fun t => (t.regs.ebx, t.esp)) = some (0x11223344, 0x8004) := by decide
theorem test_popR32_esp : after (put base 0x8000 [0, 0x50, 0, 0]) [0x5C] (fun t => t.esp) = some 0x5000 := by decide
theorem test_popRm32 : after (put base 0x8000 [0xAA, 0xAA, 0xAA, 0xAA]) [0x8F, 0x04, 0x24] (fun t => (t.esp, dword t 0x8004)) = some (0x8004, 0xAAAAAAAA) := by
  decide
-- Rule R226: the operand is written before ESP is.
theorem test_popRm32_esp : after (put base 0x8000 [0, 0x50, 0, 0]) [0x8F, 0xC4] (fun t => t.esp) = some 0x8004 := by decide
theorem test_popEs_null : after (put sys 0x8000 [3, 0, 7, 7]) [0x07] (fun t => (t.segs.es.sel, t.segs.es.cache.valid, t.esp)) = some (3, false, 0x8004) := by
  decide
theorem test_popSs : after (put sys 0x8000 [0x10, 0, 7, 7]) [0x17] (fun t => (t.segs.ss.sel, t.shadow, t.byteAt 0x815, t.esp)) = some (0x10, true, 0x93, 0x8004) := by
  decide
theorem test_popDs : after (put sys 0x8000 [0x23, 0, 7, 7]) [0x1F] (fun t => (t.segs.ds.sel, t.segs.ds.cache, t.byteAt 0x825)) =
    some (0x23, { flatData with priv := 3 }, 0xF3) := by decide
theorem test_popFs : after (put sys 0x8000 [0x08, 0, 7, 7]) [0x0F, 0xA1] (fun t => (t.segs.fs, t.shadow)) = some ({ sel := 8, cache := flatCode }, false) := by
  decide
theorem test_popGs : after (put sys 0x8000 [0x10, 0, 7, 7]) [0x0F, 0xA9] (fun t => (t.segs.gs, t.segs.fs)) = some ({ sel := 0x10, cache := flatData }, nullSeg) := by
  decide

/-- The registers of the PUSHA vector. -/
def eight : State := { base with regs := { eax := 0x10, ecx := 0x11, edx := 0x12, ebx := 0x13, esp := 0x2000, ebp := 0x15, esi := 0x16, edi := 0x17 } }

theorem test_pusha : after eight [0x60] (fun t => ([0x1FFC, 0x1FF8, 0x1FF4, 0x1FF0, 0x1FEC, 0x1FE8, 0x1FE4, 0x1FE0].map (dword t), t.esp)) =
    some ([0x10, 0x11, 0x12, 0x13, 0x2000, 0x15, 0x16, 0x17], 0x1FE0) := by decide
theorem test_popa : after (put base 0x8000 ([1, 2, 3, 4, 5, 6, 7, 8].flatMap fun b => [b, 0, 0, 0])) [0x61] (fun t => t.regs) =
    some { eax := 8, ecx := 7, edx := 6, ebx := 5, esp := 0x8020, ebp := 3, esi := 2, edi := 1 } := by decide

-- Section 2.5.
theorem test_jmpRel8 : after base [0xEB, 0xFE] (fun t => t.eip) = some 0x1000 := by decide
theorem test_jmpRel32 : after base [0xE9, 0xFB, 0xEF, 0xFF, 0xFF] (fun t => t.eip) = some 0 := by decide
theorem test_jmpRm32 : after (put (reg base .ebx 0x2000) 0x2000 [0, 0x40]) [0xFF, 0x23] (fun t => t.eip) = some 0x4000 := by decide
theorem test_callRel32 : after base [0xE8, 3, 0, 0, 0] (fun t => (t.eip, t.esp, dword t 0x7FFC)) = some (0x1008, 0x7FFC, 0x1005) := by decide
theorem test_callRm32 : after (reg base .ebx 0x3000) [0xFF, 0xD3] (fun t => (t.eip, t.esp, dword t 0x7FFC)) = some (0x3000, 0x7FFC, 0x1002) := by decide
theorem test_ret : after (put base 0x8000 [0x34, 0x12]) [0xC3] (fun t => (t.eip, t.esp)) = some (0x1234, 0x8004) := by decide
theorem test_retImm16 : after (put base 0x8000 [0x34, 0x12]) [0xC2, 8, 0] (fun t => (t.eip, t.esp)) = some (0x1234, 0x800C) := by decide

-- Section 2.6.
theorem test_jmpPtr1632 : after sys [0xEA, 0, 0x10, 0, 0, 8, 0] (fun t => (t.segs.cs, t.eip, t.byteAt 0x80D)) =
    some ({ sel := 8, cache := flatCode }, 0x1000, 0x9B) := by decide
theorem test_jmpPtr1632_tss : refusal (code sys [0xEA, 0, 0x10, 0, 0, 0x28, 0]) = some .systemDescriptor := by decide
theorem test_jmpM1632 : after (put sys 0x3000 [0x78, 0x56, 0x34, 0x12, 8, 0]) [0xFF, 0x2D, 0, 0x30, 0, 0] (fun t => (t.segs.cs.sel, t.eip)) =
    some (8, 0x12345678) := by decide
theorem test_callPtr1632 : after sys [0x9A, 0x00, 0x30, 0, 0, 8, 0] (fun t => (t.segs.cs.sel, t.eip, t.esp, t.written)) =
    some (8, 0x3000, 0x7FF8, [0x80D, 0x7FF8, 0x7FF9, 0x7FFA, 0x7FFB, 0x7FFC, 0x7FFD, 0x7FFE, 0x7FFF]) := by decide
theorem test_callM1632 : after (put (reg sys .ebx 0x3000) 0x3000 [0, 0x40, 0, 0, 8, 0]) [0xFF, 0x1B] (fun t => (t.segs.cs.sel, t.eip, t.esp)) =
    some (8, 0x4000, 0x7FF8) := by decide
theorem test_retFar : after (put sys 0x8000 [0, 0x30, 0, 0, 0x1B, 0, 0, 0, 0, 0x90, 0, 0, 0x23, 0, 0, 0]) [0xCB]
    (fun t => ((t.eip, t.segs.cs.sel, t.cpl), (t.segs.ss.sel, t.esp), (t.segs.ds.sel, t.segs.ds.cache.valid))) = some ((0x3000, 0x1B, 3), (0x23, 0x9000), (0, false)) := by
  decide
theorem test_retFarImm16 : after (put sys 0x8000 [0, 0x30, 0, 0, 8, 0, 0, 0]) [0xCA, 8, 0] (fun t => (t.eip, t.segs.cs.sel, t.cpl, t.esp)) =
    some (0x3000, 8, 0, 0x8010) := by decide
theorem test_movSregRm16 : after (reg sys .eax 0x23) [0x8E, 0xD8] (fun t => (t.segs.ds.sel, t.segs.ds.cache.priv, t.byteAt 0x825, t.shadow)) =
    some (0x23, 3, 0xF3, false) := by decide
theorem test_movSregRm16_ss : after (reg sys .eax 0x10) [0x8E, 0xD0] (fun t => (t.segs.ss.sel, t.shadow)) = some (0x10, true) := by decide
theorem test_movRm16Sreg : after (put base 0x3000 [1, 2, 3, 4]) [0x8C, 0x0D, 0, 0x30, 0, 0] (fun t => dword t 0x3000) = some 0x04030008 := by decide
theorem test_movRm16Sreg_reg : after base [0x8C, 0xC8] (fun t => (t.regs.ecx, t.freeCount, t.eip)) = some (0, 1, 0x1002) := by decide

-- Section 2.9.
theorem test_lgdt : after (put (reg base .ebx 0x700) 0x700 [0xFF, 0xFF, 0x78, 0x56, 0x34, 0x12]) [0x0F, 0x01, 0x13] (fun t => (t.gdtr, t.segs)) =
    some ({ base := 0x12345678, limit := 0xFFFF }, base.segs) := by decide
theorem test_lidt : after (put base 0x708 [0xFF, 7, 0, 0x20, 0, 0]) [0x0F, 0x01, 0x1D, 8, 7, 0, 0] (fun t => t.idtr) = some { base := 0x2000, limit := 0x7FF } := by
  decide
theorem test_ltr : after (reg sys .eax 0x28) [0x0F, 0x00, 0xD8] (fun t => (t.tr, t.byteAt 0x82D)) =
    some ({ sel := 0x28, base := 0xC00, limit := 0x67, g := false, p := true, dpl := 0, b := true, valid := true }, 0x8B) := by decide
theorem test_cli : after { base with eflags := 0x202 } [0xFA] (fun t => (t.eflags, t.shadow)) = some (2, false) := by decide
theorem test_sti : after base [0xFB] (fun t => (t.eflags, t.shadow)) = some (0x202, true) := by decide

-- Section 2.8: at level 0 with ESP = 00009000h, EFLAGS = 00000202h, EIP = 00010050h.
/-- The start of section 2.8's level-0 rows. -/
def sys28 : State := { reg (withTask sys) .esp 0x9000 with eip := 0x10050, eflags := 0x202 }

theorem test_intN : after (withGate sys28 0x30 trapGate) [0xCD, 0x30]
    (fun t => (dword t 0x8FFC, dword t 0x8FF8, dword t 0x8FF4, t.esp, t.eflags, t.eip)) = some (0x202, 8, 0x10052, 0x8FF4, 0x202, 0x10100) := by decide
-- Program P4: the gate of INT 21h has DPL 0, so that at level 3 exception 13 is taken with code 010Ah. The old SS slot has a free
-- upper word, so the registers alone are tested.
theorem test_intN_gate_dpl : after (withGate (withGate (withTask (user { sys with eip := 0x20000 })) 0x21 intGate) 13 intGate) [0xCD, 0x21]
    (fun t => (t.esp, t.eip, t.cpl, t.eflags, t.segs.ss.sel, t.segs.ds.sel)) = some (0x8FE8, 0x10300, 0, 2, 0x10, 0x23) := by decide
theorem test_int3 : after (withGate sys28 3 intGate) [0xCC] (fun t => (dword t 0x8FF4, t.esp, t.eflags, t.eip)) = some (0x10051, 0x8FF4, 2, 0x10300) := by decide
-- Rule R291: under the source's set of rule R7, INT 3 is checked as INT n is.
theorem test_int3_source_set : after
    { withGate (withGate (withTask (user { sys with eip := 0x20000 })) 3 intGate) 13 intGate with
      cfg := { Config.standard with gateDplCheckedFor := [.intN, .into, .bound] } } [0xCC]
    (fun t => (t.esp, t.eip, t.cpl)) = some (0x8FE8, 0x10300, 0) := by decide
-- Rule R374: an SS beyond the GDT limit stops the run.
theorem test_intN_bad_stack : stop (code (withGate (put (withTask (user { sys with eip := 0x20000 })) 0xC08 [0x78]) 0x30 trapGate) [0xCD, 0x30])
    = some .badInnerStack := by decide
-- Rule R374 and U34: so does a frame that does not fit the inner stack.
theorem test_intN_no_room : stop (code (withGate (put (withTask (user { sys with eip := 0x20000 })) 0xC04 [19, 0]) 0x30 trapGate) [0xCD, 0x30])
    = some (.duringDelivery 0x30) := by decide
theorem test_into : after (withGate { sys28 with eflags := 0x802 } 4 trapGate) [0xCE] (fun t => (dword t 0x8FF4, dword t 0x8FFC, t.eip)) = some (0x10051, 0x802, 0x10100) := by
  decide
theorem test_into_no_overflow : after base [0xCE] (fun t => (t.eip, t.esp)) = some (0x1001, 0x8000) := by decide

/-- BOUND's pair (0, 9) at DS:EBX (section 2.8). -/
def bounds (eax : Word) : State := put (reg (reg (withGate sys28 5 intGate) .eax eax) .ebx 0x3000) 0x3000 [0, 0, 0, 0, 9, 0, 0, 0]

theorem test_bound : after (bounds 9) [0x62, 0x03] (fun t => (t.eip, t.esp)) = some (0x10052, 0x9000) := by decide
theorem test_bound_below : after (bounds 0xFFFFFFFF) [0x62, 0x03] (fun t => (t.eip, t.esp, dword t 0x8FF4)) = some (0x10300, 0x8FF4, 0x10050) := by decide

/-- IRET's stack at level 0 with a return to 0008h:00003000h and an EFLAGS image. -/
def iretTo (image : List Byte) : State := put sys 0x8000 ([0, 0x30, 0, 0, 8, 0, 0, 0] ++ image)

theorem test_iret : after (iretTo [0xFF, 0x8A, 0xFC, 0xFF]) [0xCF] (fun t => (t.eip, t.esp, t.eflags)) = some (0x3000, 0x800C, 0xAD7) := by decide
theorem test_iret_vm : refusal (code (iretTo [2, 0, 2, 0]) [0xCF]) = some .virtual8086 := by decide

theorem test_movRm8R8 : after (reg (reg base .eax 0x11223344) .ebx 0xAA) [0x88, 0xDC] (fun t => t.regs.eax) = some 0x1122AA44 := by decide
theorem test_movRm32R32 : after (reg (reg base .ebp 0x4000) .eax 0x11223344) [0x89, 0x44, 0x65, 0x08] (fun t => dword t 0x4008) = some 0x11223344 := by decide
theorem test_movR8Rm8 : after (reg (reg base .eax 0x11223344) .ebx 0xAA) [0x8A, 0xE3] (fun t => t.regs.eax) = some 0x1122AA44 := by decide
theorem test_movR32Rm32 : after (put (reg (reg base .ebx 0x2000) .ecx 3) 0x200C [0x78, 0x56, 0x34, 0x12]) [0x8B, 0x04, 0x8B] (fun t => t.regs.eax) = some 0x12345678 := by
  decide
theorem test_movR8Imm8 : after (reg base .ebx 0x11223344) [0xB7, 0x5A] (fun t => t.regs.ebx) = some 0x11225A44 := by decide
theorem test_movR32Imm32 : after base [0xB9, 3, 0, 0, 0x80] (fun t => (t.regs.ecx, t.eip)) = some (0x80000003, 0x1005) := by decide
theorem test_movRm8Imm8 : after (reg (put base 0x7FF8 [1, 2, 3, 4]) .ebp 0x7FFD) [0xC6, 0x45, 0xFC, 0x7F] (fun t => dword t 0x7FF8) = some 0x04037F01 := by decide
theorem test_movRm32Imm32 : after base [0xC7, 5, 4, 0x0C, 0, 0, 0, 0x90, 0, 0] (fun t => (dword t 0xC04, t.eip)) = some (0x9000, 0x100A) := by decide
theorem test_lea : after (reg base .ecx 0x40000001) [0x8D, 0x04, 0x8D, 0xFF, 0xFF, 0xFF, 0xFF] (fun t => t.regs.eax) = some 3 := by decide

-- Section 2.7.
theorem test_addRm32R32 : after (reg (reg base .eax 0x7FFFFFFF) .ebx 1) [0x01, 0xD8] (fun t => (t.regs.eax, t.eflags)) = some (0x80000000, 0x896) := by decide
theorem test_addRm32R32_double : after (reg base .eax 0x80000000) [0x01, 0xC0] (fun t => (t.regs.eax, t.eflags)) = some (0, 0x847) := by decide
theorem test_addR32Rm32 : after (put (reg (reg base .esi 2) .eax 0x23) 0x3008 [0, 1]) [0x03, 0x04, 0xB5, 0, 0x30, 0, 0] (fun t => (t.regs.eax, t.eflags)) = some (0x123, 2) := by
  decide
theorem test_addRm32Imm32 : after (reg base .ebx 0x80000001) [0x81, 0xC3, 0, 0, 0, 0x80] (fun t => (t.regs.ebx, t.eflags)) = some (1, 0x803) := by decide
theorem test_addRm32Imm8 : after (reg base .eax 0x12345678) [0x83, 0xC0, 0xFF] (fun t => (t.regs.eax, t.eflags)) = some (0x12345677, 0x17) := by decide
theorem test_nop : after base [0x90] (fun t => (t.eip, t.regs)) = some (0x1001, base.regs) := by decide

theorem test_table_word : decodeTableWord 24 0x0F0118 = some (.lidt none (.base .eax .none)) := by decide
theorem test_table_word_fetched : fetchInstr (State.reset.withFetchWord 16 0x8300) = .ok (.addRm32Imm8 none (.mem (.base .eax .none)) 0) := by decide

/-! ### Interrupts, fetching and checks (sections 2.2 and 2.8) -/

theorem test_intr : after { withGate sys28 32 intGate with oracle := [[.intr 32]] } [0x90] (fun t => ((dword t 0x8FF4, t.esp), (t.eflags, t.eip), t.oracle)) =
    some ((0x10050, 0x8FF4), (2, 0x10300), []) := by decide
theorem test_intr_waits : after { sys28 with oracle := [[.intr 32]], eflags := 2 } [0x90] (fun t => (t.eip, t.oracle)) = some (0x10051, [[.intr 32]]) := by decide
theorem test_nmi_without_gate : stop (code { withGate sys28 32 intGate with oracle := [[.nmi]], eflags := 2 } [0x90]) = some (.duringDelivery 2) := by decide
theorem test_fetch_of_written_byte : refusal { code base [0x90] with written := [0x1000] } = some .fetchOfWrittenByte := by decide
theorem test_trap_flag : refusal (code { base with eflags := 0x102 } [0x90]) = some .singleStep := by decide
theorem test_trap_flag_at_stop : refusal { base with eflags := 0x102, cfg := { Config.standard with stopEip := some 0x1000 } } = some .singleStep := by
  decide

/-- The start state with a DS cache given (section 2.2). -/
def withDs (limit : BitVec 20) (g e b : Bool) : State :=
  base.setSeg .ds { sel := 0x10, cache := { flatData with limit := limit, g := g, ce := e, db := b } }

theorem test_check_flat : segCheck (withDs 0xFFFFF true false true) .ds 0xFFFFFFFC 4 .read = .ok () := by decide
theorem test_check_wrap : segCheck (withDs 0xFFFFF true false true) .ds 0xFFFFFFFD 4 .read = .error (.raise (.gp 0)) := by decide
theorem test_check_bytes : segCheck (withDs 0x00FFF false false true) .ds 0xFFC 4 .read = .ok () := by decide
theorem test_check_bytes_beyond : segCheck (withDs 0x00FFF false false true) .ds 0xFFD 4 .read = .error (.raise (.gp 0)) := by decide
theorem test_check_expand_down : segCheck (withDs 0x00FFF false true true) .ds 0x1000 4 .write = .ok () := by decide
theorem test_check_expand_down_below : segCheck (withDs 0x00FFF false true true) .ds 0xFFF 4 .write = .error (.raise (.gp 0)) := by decide
theorem test_check_expand_down_16 : segCheck (withDs 0x00FFF false true false) .ds 0xFFFD 4 .write = .error (.raise (.gp 0)) := by decide
theorem test_check_code_write : segCheck base .cs 0 1 .write = .error (.raise (.gp 0)) := by decide
theorem test_check_stack : segCheck base .ss 0xFFFFFFFE 4 .write = .error (.raise (.ss 0)) := by decide
theorem test_check_null : segCheck base .fs 0 1 .read = .error (.raise (.gp 0)) := by decide

/-! ### Witnesses: for each statement with hypotheses, a state and operands that meet all of them -/

/-- An instruction of many parts. -/
def longest : Instr := .movRm32Imm32 (some .gs) (.mem (.sib .ebp .x8 (some .esi) (.d32 0x80000000))) 0xFFFFFFFF

/-- Level 0, with the TSS loaded and the gates of INT 30h, INT 3, INTO and of every exception the statements name. -/
def gated : State :=
  withGate (withGate (withGate (withGate (withGate (withGate (withGate (withTask sys) 0x30 trapGate) 3 intGate) 4 intGate) 5 intGate)
    11 intGate) 12 intGate) 13 intGate

/-- The gates as doubleword pairs. -/
def trapGate64 : BitVec 64 := 0x0001EF0000080100
def intGate64 : BitVec 64 := 0x00018E0000080300

/-- The stack bytes of `n` doublewords. -/
def stackOf (s : State) (vs : List Word) : State := put s s.esp.toNat (vs.flatMap bytes32)

theorem witness_EncodeThenDecode : longest.wellFormed = true ∧ (encode longest).length = 12 := by decide
theorem witness_DecodeThenEncode : decode [0x2E, 0x8B, 0x03, 0xAA] = .ok (.movR32Rm32 (some .cs) .eax (.mem (.base .ebx .none)), [0xAA]) := by
  decide
theorem witness_FetchReadsTheEncoding : longest.wellFormed = true ∧ base.segs.cs.cache.db = true
    ∧ ∀ k (h : k < (encode longest).length), fetchByte (code base (encode longest)) k = .ok (encode longest)[k] := by decide
theorem witness_FetchReadsTheEncoding_past_end : 2 ^ 32 ≤ { base with eip := 0xFFFFFFFF }.eip.toNat + 1 := by decide
theorem witness_FetchReadsTheEncoding_byte : let s := { base with eip := 0xFFFFFFFE, written := [0xFFFFFFFE] }
    s.eip.toNat + 1 < 2 ^ 32 ∧ segCheck s .cs (s.eip + 1) 1 .fetch = .ok () ∧ physAddr s.cfg (s.segs.cs.cache.base + (s.eip + 1)) = .ok 0xFFFFFFFF
      ∧ physAddr s.cfg (s.segs.cs.cache.base + s.eip) = .ok 0xFFFFFFFE ∧ 0xFFFFFFFE ∈ s.written := by decide
theorem witness_FetchReadsTheEncoding_unpopulated : let s := { base with cfg := { Config.standard with populated := [] } }
    segCheck s .cs s.eip 1 .fetch = .ok () ∧ physAddr s.cfg (s.segs.cs.cache.base + s.eip) = .error (.refuse .unpopulated) := by decide
theorem witness_StepRunsTheInstruction : let s := code { base with shadow := true } [0x90]
    s.cfg.stopEip ≠ some s.eip ∧ flag s.eflags bitTF = false ∧ flag s.eflags bitVM = false ∧ boundary s = (none, { s with shadow := false })
      ∧ fetchInstr { s with shadow := false } = .ok (.nop none) ∧ s.oracle = [] := by decide
theorem witness_RunEndsAtStopEip : let s := { base with cfg := { Config.standard with stopEip := some 0x1000 } }
    s.cfg.stopEip = some s.eip ∧ flag s.eflags bitTF = false ∧ flag s.eflags bitVM = false := by decide
theorem witness_RunEndsAtStopEip_flags : flag 0x102 bitTF = true ∧ flag 0x20002 bitTF = false ∧ flag 0x20002 bitVM = true := by decide

/-- CS of 1000h bytes. -/
def shortCS : State := { base with segs := { base.segs with cs := { sel := 8, cache := { flatCode with limit := 0xFFF, g := false } } } }

/-- The premises of the statement on fetches that stop: a boundary that accepts nothing, and bytes at EIP that begin an instruction. -/
def Fetching (s : State) (bytes : List Byte) : Prop :=
  s.cfg.stopEip ≠ some s.eip ∧ flag s.eflags bitTF = false ∧ flag s.eflags bitVM = false ∧ boundary s = (none, s)
    ∧ s.segs.cs.cache.db = true ∧ bytes.length < 12 ∧ (∀ k (h : k < bytes.length), fetchByte s k = .ok bytes[k])
    ∧ decode bytes = .error .truncated

theorem witness_FetchStops_limit_first : Fetching shortCS [] ∧ shortCS.segs.cs.cache.valid = true ∧ shortCS.segs.cs.cache.kind = .code
    ∧ effLimit shortCS.segs.cs.cache.limit shortCS.segs.cs.cache.g < shortCS.eip := by unfold Fetching; decide
theorem witness_FetchStops_limit_second : let s := code { shortCS with eip := 0xFFF } [0x68]
    Fetching s [0x68] ∧ s.segs.cs.cache.valid = true ∧ s.segs.cs.cache.kind = .code
      ∧ effLimit s.segs.cs.cache.limit s.segs.cs.cache.g < s.eip + 1 := by unfold Fetching; decide
theorem witness_FetchStops_past_end : let s := code { base with eip := 0xFFFFFFFF } [0x68]
    Fetching s [0x68] ∧ 2 ^ 32 ≤ s.eip.toNat + 1 := by unfold Fetching; decide
theorem witness_FetchStops_written : let s := { code base [0x68] with written := [0x1001] }
    Fetching s [0x68] ∧ s.eip.toNat + 1 < 2 ^ 32 ∧ segCheck s .cs (s.eip + 1) 1 .fetch = .ok ()
      ∧ physAddr s.cfg (s.segs.cs.cache.base + (s.eip + 1)) = .ok 0x1001 ∧ 0x1001 ∈ s.written := by unfold Fetching; decide
theorem witness_LinearWriteReadsBack : MemInv sys ∧ backed sys 0xFFFFFFFC 8 = true := by unfold MemInv; decide
theorem witness_LinearWriteReadsBack_paging : Config.standard.paging = .off ∧ lookupPage [(1, 5)] 1 = some 5 ∧ lookupPage [(1, 5)] 0 = none := by
  decide
theorem witness_DescriptorFields_system : taskDesc.getLsbD 44 = false ∧ taskDesc.extractLsb' 40 4 = 9
    ∧ (0x000082000C000067 : BitVec 64).getLsbD 44 = false := by decide
theorem witness_DefaultSegments : readMem (put base 0xFFFFFFFC [1, 2, 3, 4]) none (.abs 0xFFFFFFF8) 4 4 = .ok 0x04030201#32 := by decide
theorem witness_MixedWidthReads : linRead (put (put base 0 [3, 4]) 0xFFFFFFFE [1, 2]) 0xFFFFFFFE 4 = .ok 0x04030201#32 := by decide
theorem witness_SegmentCheckOutcome_one_byte : segCheck (withDs 0 false false true) .ds 0 1 .read = .ok ()
    ∧ segCheck (withDs 0 false false true) .ds 1 1 .read = .error (.raise (.gp 0)) := by decide
theorem witness_AccessedBitOutcome : MemInv sys ∧ readDesc sys 0x23 = .ok userDataDesc ∧ descA userDataDesc = false := by
  unfold MemInv; decide
theorem witness_AccessedBitOutcome_set : let s := put sys 0x825 [0xF3]
    MemInv s ∧ readDesc s 0x23 = .ok 0x00CFF3000000FFFF ∧ descA 0x00CFF3000000FFFF = true := by unfold MemInv; decide

theorem witness_PushStoresDoubleword : MemInv base ∧ readRM32 base none (.reg .esp) = .ok 0x8000 ∧ Writable base .ss (base.esp - 4) 4 := by
  unfold MemInv Writable; decide
theorem witness_PushStoresDoubleword_top : let s := reg base .esp 0
    MemInv s ∧ readRM32 s none (.mem (.abs 0xFFFFFFFC)) = .ok 0 ∧ Writable s .ss (s.esp - 4) 4 := by unfold MemInv Writable; decide
theorem witness_PushStoresDoubleword_wrap : let s := reg base .esp 2
    segCheck s .ss (s.esp - 4) 4 .write = .error (.raise (.ss 0)) := by decide
theorem witness_PushSegmentStoresSelector : MemInv base ∧ Writable base .ss (base.esp - 4) 4 := by unfold MemInv Writable; decide
theorem witness_PopLoadsOperand : let s := stackOf base [0x11223344]
    segRead s .ss s.esp 4 = .ok 0x11223344#32 ∧ MemInv s
      ∧ Writable s (operandSeg s.cfg none (.sib .esp .x1 none .none)) (effAddr { s.regs with esp := s.esp + 4 } (.sib .esp .x1 none .none)) 4 := by
  unfold MemInv Writable; decide

/-- The stack of a POP Sreg. -/
def popping (v : Word) : State := stackOf sys [v]

theorem witness_PopDataSegment_null : MemInv (popping 3) ∧ segRead (popping 3) .ss (popping 3).esp 4 = .ok 3#32 ∧ isNull 3 = true := by
  unfold MemInv; decide
theorem witness_PopDataSegment : MemInv (popping 0x77770023) ∧ segRead (popping 0x77770023) .ss (popping 0x77770023).esp 4 = .ok 0x77770023#32
    ∧ DataLoadable (popping 0x77770023) 0x0023 userDataDesc := by unfold MemInv DataLoadable; decide
theorem witness_PopStackSegment : MemInv (popping 0x10) ∧ segRead (popping 0x10) .ss (popping 0x10).esp 4 = .ok 0x10#32
    ∧ StackLoadable (popping 0x10) 0x0010 dataDesc := by unfold MemInv StackLoadable; decide
theorem witness_PushaStoresAllRegisters : MemInv base ∧ Writable base .ss (base.esp - 32) 32 := by unfold MemInv Writable; decide
theorem witness_PushaStoresAllRegisters_wrap : let s := reg base .esp 28
    MemInv s ∧ 0 < s.esp.toNat ∧ s.esp.toNat < 32 ∧ s.esp.toNat % 4 = 0 ∧ Writable s .ss (s.esp - 32) (32 - s.esp.toNat)
      ∧ Writable s .ss 0 s.esp.toNat := by unfold MemInv Writable; decide
theorem witness_PushaStoresAllRegisters_wrap_low : let s := reg base .esp 4
    MemInv s ∧ 0 < s.esp.toNat ∧ s.esp.toNat < 32 ∧ s.esp.toNat % 4 = 0 ∧ Writable s .ss (s.esp - 32) (32 - s.esp.toNat)
      ∧ Writable s .ss 0 s.esp.toNat := by unfold MemInv Writable; decide
theorem witness_PopaLoadsAllRegisters : let s := stackOf base [1, 2, 3, 4, 5, 6, 7, 8]
    segCheck s .ss s.esp 32 .read = .ok () ∧ HoldsDwords s (s.linear .ss s.esp) [1, 2, 3, 4, 5, 6, 7, 8] := by
  simp only [HoldsDwords]; decide
theorem witness_PushaThenPopaRestores : MemInv eight ∧ Writable eight .ss (eight.esp - 32) 32 := by unfold MemInv Writable; decide

theorem witness_NearJumpCompletes : let s := { reg shortCS .ebx 0xFFF with eip := 0xF80 }
    s.nextEip (.jmpRel8 none 0x7D) + (0x7D : BitVec 8).signExtend 32 = 0xFFF ∧ s.nextEip (.jmpRel32 none 0x7A) + 0x7A = 0xFFF
      ∧ readRM32 s none (.reg .ebx) = .ok 0xFFF ∧ (0xFFF : Word) ≤ effLimit s.segs.cs.cache.limit s.segs.cs.cache.g := by decide
theorem witness_NearCallCompletes : let s := { reg shortCS .ebx 0xFFF with eip := 0xF80 }
    MemInv s ∧ s.nextEip (.callRel32 none 0x7A) + 0x7A = 0xFFF ∧ readRM32 s none (.reg .ebx) = .ok 0xFFF
      ∧ (0xFFF : Word) ≤ effLimit s.segs.cs.cache.limit s.segs.cs.cache.g ∧ Writable s .ss (s.esp - 4) 4 := by
  unfold MemInv Writable; decide
theorem witness_NearReturnCompletes : let s := stackOf shortCS [0xFFF]
    segRead s .ss s.esp 4 = .ok 0xFFF#32 ∧ (0xFFF : Word) ≤ effLimit s.segs.cs.cache.limit s.segs.cs.cache.g := by decide
theorem witness_NearTargetBeyondLimitRaises : let s := stackOf { reg shortCS .ebx 0x1000 with eip := 0xF80 } [0x1000]
    s.nextEip (.jmpRel8 none 0x7E) + (0x7E : BitVec 8).signExtend 32 = 0x1000 ∧ s.nextEip (.callRel32 none 0x7B) + 0x7B = 0x1000
      ∧ readRM32 s none (.reg .ebx) = .ok 0x1000 ∧ segRead s .ss s.esp 4 = .ok 0x1000#32
      ∧ effLimit s.segs.cs.cache.limit s.segs.cs.cache.g < (0x1000 : Word) := by decide

/-- A far pointer 0008h:FFFFFFFFh at 00003000h. -/
def farPtr : State := put sys 0x3000 [0xFF, 0xFF, 0xFF, 0xFF, 8, 0]

theorem witness_FarJumpCompletes : MemInv farPtr ∧ readMem farPtr none (.abs 0x3000) 0 4 = .ok 0xFFFFFFFF#32
    ∧ readMem farPtr none (.abs 0x3000) 4 2 = .ok 8#16 ∧ FarTargetOk farPtr 8 0xFFFFFFFF codeDesc := by
  unfold MemInv FarTargetOk; decide
theorem witness_FarCallCompletes : MemInv farPtr ∧ readMem farPtr none (.abs 0x3000) 0 4 = .ok 0xFFFFFFFF#32
    ∧ readMem farPtr none (.abs 0x3000) 4 2 = .ok 8#16 ∧ FarTargetOk farPtr 8 0xFFFFFFFF codeDesc ∧ Writable farPtr .ss (farPtr.esp - 8) 8 := by
  unfold MemInv FarTargetOk Writable; decide

/-- A far return to level 0. -/
def returning : State := stackOf sys [0x3000, 0x77770008]

/-- A far return to level 3. -/
def leaving : State := stackOf sys [0x20000, 0x1B, 0x30000, 0x23]

theorem witness_FarReturnSameLevel : MemInv returning ∧ segCheck returning .ss returning.esp 8 .read = .ok ()
    ∧ HoldsDwords returning (returning.linear .ss returning.esp) [0x3000, 0x77770008]
    ∧ ReturnTargetOk returning ((0x77770008 : Word).extractLsb' 0 16) 0x3000 codeDesc returning.cpl := by
  simp only [MemInv, ReturnTargetOk, HoldsDwords]; decide
theorem witness_FarReturnOuterLevel : MemInv leaving ∧ segCheck leaving .ss leaving.esp 8 .read = .ok ()
    ∧ HoldsDwords leaving (leaving.linear .ss leaving.esp) [0x20000, 0x1B] ∧ ReturnTargetOk leaving 0x1B 0x20000 userCodeDesc 3
    ∧ (3 : Level) ≠ leaving.cpl ∧ segCheck leaving .ss (leaving.esp + 8 + 0) 8 .read = .ok ()
    ∧ HoldsDwords leaving (leaving.linear .ss (leaving.esp + 8 + 0)) [0x30000, 0x23] ∧ ReturnStackOk leaving 3 0x23 userDataDesc := by
  simp only [MemInv, ReturnTargetOk, ReturnStackOk, HoldsDwords]; decide

theorem witness_MoveToSegment_null : MemInv (reg sys .eax 3) ∧ readRM16 (reg sys .eax 3) none (.reg .eax) = .ok 3 ∧ isNull 3 = true := by
  unfold MemInv; decide
theorem witness_MoveToSegment_data : MemInv (reg sys .eax 0x23) ∧ readRM16 (reg sys .eax 0x23) none (.reg .eax) = .ok 0x23
    ∧ DataLoadable (reg sys .eax 0x23) 0x23 userDataDesc := by unfold MemInv DataLoadable; decide
theorem witness_MoveToSegment_stack : MemInv (reg sys .eax 0x10) ∧ readRM16 (reg sys .eax 0x10) none (.reg .eax) = .ok 0x10
    ∧ StackLoadable (reg sys .eax 0x10) 0x10 dataDesc := by unfold MemInv StackLoadable; decide
/-- The data segment 0010h marked not present, the code segment 0008h too, and the TSS busy. -/
def absent : State := put (put (put sys 0x815 [0x12]) 0x80D [0x1A]) 0x82D [0x8B]

/-- The absent segments' descriptors. -/
def absentData : BitVec 64 := 0x00CF12000000FFFF
def absentCode : BitVec 64 := 0x00CF1A000000FFFF

theorem witness_SegmentLoadFaults_operand : readRM16 (reg sys .eax 0x78) none (.reg .eax) = .ok 0x78
    ∧ segRead (popping 0x78) .ss (popping 0x78).esp 4 = .ok 0x78#32 ∧ PopsSegment (.popGs none) .gs :=
  ⟨by decide, by decide, none, by simp⟩
theorem witness_StackLoadRaises_null : StackLoadRaises sys 3 (.gp 0) := .inl ⟨by decide, rfl⟩
theorem witness_StackLoadRaises_beyond : StackLoadRaises sys 0x30 (.gp 0x30) := .inr ⟨by decide, .inl ⟨⟨by decide, by decide⟩, rfl⟩⟩
theorem witness_StackLoadRaises_level : StackLoadRaises sys 0x23 (.gp 0x20) := .inr ⟨by decide, .inr ⟨userDataDesc, by decide, by decide⟩⟩
theorem witness_StackLoadRaises_absent : StackLoadRaises absent 0x10 (.ss 0x10) := .inr ⟨by decide, .inr ⟨absentData, by decide, by decide⟩⟩
theorem witness_DataLoadRaises_beyond : DataLoadRaises sys 0x30 (.gp 0x30) := ⟨by decide, .inl ⟨⟨by decide, by decide⟩, rfl⟩⟩
theorem witness_DataLoadRaises_level : DataLoadRaises sys 0x13 (.gp 0x10) := ⟨by decide, .inr ⟨dataDesc, by decide, by decide⟩⟩
theorem witness_DataLoadRaises_system : DataLoadRaises sys 0x28 (.gp 0x28) := ⟨by decide, .inr ⟨taskDesc, by decide, by decide⟩⟩
theorem witness_DataLoadRaises_absent : DataLoadRaises absent 0x10 (.np 0x10) := ⟨by decide, .inr ⟨absentData, by decide, by decide⟩⟩
theorem witness_FarPointer : FarPointer farPtr (.jmpM1632 none (.abs 0x3000)) false 0xFFFFFFFF 8 :=
  ⟨none, .inr (.inr ⟨_, .inl ⟨rfl, rfl⟩, by decide, by decide⟩)⟩
theorem witness_FarTargetRaises_null : FarTargetRaises sys 0 0 (.gp 0) := .inl ⟨by decide, rfl⟩
theorem witness_FarTargetRaises_beyond : FarTargetRaises sys 0x30 0 (.gp 0x30) := .inr ⟨by decide, .inl ⟨⟨by decide, by decide⟩, rfl⟩⟩
theorem witness_FarTargetRaises_data : FarTargetRaises sys 0x10 0 (.gp 0x10) := .inr ⟨by decide, .inr ⟨dataDesc, by decide, by decide⟩⟩
theorem witness_FarTargetRaises_level : FarTargetRaises sys 0x1B 0 (.gp 0x18) := .inr ⟨by decide, .inr ⟨userCodeDesc, by decide, by decide⟩⟩
theorem witness_FarTargetRaises_rpl : FarTargetRaises sys 0x09 0 (.gp 8) := .inr ⟨by decide, .inr ⟨codeDesc, by decide, by decide⟩⟩
theorem witness_FarTargetRaises_absent : FarTargetRaises absent 8 0 (.np 8) := .inr ⟨by decide, .inr ⟨absentCode, by decide, by decide⟩⟩
theorem witness_FarTargetRaises_limit : FarTargetRaises (put sys 0x808 [0xFE, 0xFF, 0, 0, 0, 0x9A, 0x4F]) 8 0xFFFFF (.gp 0) :=
  .inr ⟨by decide, .inr ⟨0x004F9A000000FFFE, by decide, by decide⟩⟩
theorem witness_FarReturnFrame : FarReturnFrame sys (.iret none) 0 0x20000 0x1B [0x20000, 0x1B, 0x202] :=
  .inr (.inr ⟨none, 0x202, rfl, by decide, rfl, rfl⟩)
theorem witness_ReturnTargetRaises_null : ReturnTargetRaises sys 3 0 (.gp 0) := .inl ⟨by decide, rfl⟩
theorem witness_ReturnTargetRaises_data : ReturnTargetRaises sys 0x10 0 (.gp 0x10) := .inr ⟨by decide, .inr ⟨dataDesc, by decide, by decide⟩⟩
theorem witness_ReturnTargetRaises_level : let s := stackOf sys [0x3000, 0x0B]
    FarReturnFrame s (.retFar none) 0 0x3000 0x0B [0x3000, 0x0B] ∧ segCheck s .ss s.esp 8 .read = .ok ()
      ∧ linRead s (s.linear .ss s.esp) 4 = .ok 0x3000#32 ∧ linRead s (s.linear .ss s.esp + 4) 4 = .ok 0x0B#32
      ∧ ReturnTargetRaises s 0x0B 0x3000 (.gp 8) :=
  ⟨.inl ⟨none, rfl, rfl, rfl⟩, by decide, by decide, by decide, .inr ⟨by decide, .inr ⟨codeDesc, by decide, by decide⟩⟩⟩
theorem witness_ReturnTargetRaises_absent : ReturnTargetRaises absent 8 0 (.np 8) := .inr ⟨by decide, .inr ⟨absentCode, by decide, by decide⟩⟩
/-- A far return to level 3 whose ESP and SS images lie across the end of the stack segment. -/
def cut : State := leaving.setSeg .ss { sel := 0x10, cache := { flatData with limit := 0x800E, g := false } }
theorem witness_FarReturn_cut : segCheck cut .ss cut.esp 8 .read = .ok () ∧ HoldsDwords cut (cut.linear .ss cut.esp) [0x20000, 0x1B]
    ∧ ReturnTargetOk cut 0x1B 0x20000 userCodeDesc 3 ∧ (3 : Level) ≠ cut.cpl ∧ segCheck cut .ss (cut.esp + 8 + 0) 8 .read = .error (.raise (.ss 0)) := by
  simp only [ReturnTargetOk, HoldsDwords]; decide
theorem witness_ReturnStackRaises_null : ReturnStackRaises sys 3 0 (.gp 0) := .inl ⟨by decide, rfl⟩
theorem witness_ReturnStackRaises_level : let s := stackOf sys [0x20000, 0x1B, 0x30000, 0x10]
    ReturnTargetOk s 0x1B 0x20000 userCodeDesc 3 ∧ segCheck s .ss (s.esp + 8 + 0) 8 .read = .ok ()
      ∧ linRead s (s.linear .ss (s.esp + 8 + 0) + 4) 4 = .ok 0x10#32 ∧ ReturnStackRaises s 3 0x10 (.gp 0x10) :=
  ⟨by unfold ReturnTargetOk; decide, by decide, by decide, .inr ⟨by decide, .inr ⟨dataDesc, by decide, by decide⟩⟩⟩
theorem witness_ReturnStackRaises_absent : ReturnStackRaises (put sys 0x825 [0x72]) 3 0x23 (.ss 0x20) :=
  .inr ⟨by decide, .inr ⟨0x00CF72000000FFFF, by decide, by decide⟩⟩
theorem witness_TaskLoadRaises_null : TaskLoadRaises sys 0 (.gp 0) := .inl ⟨by decide, rfl⟩
theorem witness_TaskLoadRaises_kind : TaskLoadRaises sys 0x10 (.gp 0x10) := .inr ⟨by decide, .inr ⟨dataDesc, by decide, by decide⟩⟩
theorem witness_TaskLoadRaises_busy : TaskLoadRaises absent 0x28 (.gp 0x28) := .inr ⟨by decide, .inr ⟨0x00008B000C000067, by decide, by decide⟩⟩
theorem witness_TaskLoadRaises_absent : TaskLoadRaises (put sys 0x82D [9]) 0x28 (.np 0x28) :=
  .inr ⟨by decide, .inr ⟨0x000009000C000067, by decide, by decide⟩⟩
theorem witness_MoveFromSegment : MemInv base ∧ Writable base (operandSeg base.cfg none (.abs 0xFFFFFFFE)) (base.ea (.abs 0xFFFFFFFE)) 2 := by
  unfold MemInv Writable; decide
theorem witness_TableRegistersLoad : let s := put base 0x700 [0xFF, 0xFF, 0x78, 0x56, 0x34, 0x12]
    s.cpl = 0 ∧ readMem s none (.abs 0x700) 0 2 = .ok 0xFFFF#16 ∧ readMem s none (.abs 0x700) 2 4 = .ok 0x12345678#32 := by decide
theorem witness_TaskRegisterLoads : MemInv (reg sys .eax 0x28) ∧ (reg sys .eax 0x28).cpl = 0
    ∧ readRM16 (reg sys .eax 0x28) none (.reg .eax) = .ok 0x28 ∧ TaskLoadable (reg sys .eax 0x28) 0x28 taskDesc := by
  unfold MemInv TaskLoadable; decide
theorem witness_TaskRegisterLoads_source : let s := { put (reg sys .eax 0x28) 0x82D [0x8B] with cfg := { Config.standard with ltrBusyRule := .source } }
    MemInv s ∧ s.cpl = 0 ∧ readRM16 s none (.reg .eax) = .ok 0x28 ∧ TaskLoadable s 0x28 0x00008B000C000067 := by
  unfold MemInv TaskLoadable; decide
theorem witness_PrivilegedLoadsFault : (user sys).cpl ≠ 0 := by decide
theorem witness_InterruptFlagInstructions : base.cpl ≤ iopl base.eflags
    ∧ { user sys with eflags := 0x3002 }.cpl ≤ iopl { user sys with eflags := 0x3002 }.eflags := by decide
theorem witness_InterruptFlagInstructions_denied : iopl { user sys with eflags := 0x2002 }.eflags < { user sys with eflags := 0x2002 }.cpl := by decide

theorem witness_SoftwareInterruptEntersHandler_same : MemInv gated ∧ GateAdmits gated .intN 0x30 trapGate64 ∧ GateAdmits gated .int3 3 intGate64
    ∧ EntryOk gated trapGate64 codeDesc ∧ EntryOk gated intGate64 codeDesc ∧ descDpl codeDesc = gated.cpl
    ∧ Writable gated .ss (gated.esp - 12) 12 := by unfold MemInv GateAdmits DplChecked EntryOk Writable; decide
theorem witness_SoftwareInterruptEntersHandler_into : let s := { gated with eflags := 0x802 }
    MemInv s ∧ flag s.eflags bitOF = true ∧ GateAdmits s .into 4 intGate64 ∧ EntryOk s intGate64 codeDesc
      ∧ Writable s .ss (s.esp - 12) 12 := by unfold MemInv GateAdmits DplChecked EntryOk Writable; decide
theorem witness_SoftwareInterruptEntersHandler_inner : MemInv (user gated) ∧ GateAdmits (user gated) .intN 0x30 trapGate64
    ∧ EntryOk (user gated) trapGate64 codeDesc ∧ descDpl codeDesc < (user gated).cpl
    ∧ InnerStackOk (user gated) (descDpl codeDesc) none 0x10 0x9000 dataDesc := by
  unfold MemInv GateAdmits DplChecked EntryOk InnerStackOk TaskGives ReturnStackOk DescHolds; decide
theorem witness_InnerStackStop_no_task : InnerStackStop (user sys) 0 .noTss := .inl ⟨by decide, rfl⟩
theorem witness_InnerStackStop_too_small : InnerStackStop { user gated with tr := { gated.tr with limit := 10 } } 0 .tssTooSmall :=
  .inr (.inl ⟨by decide, by decide, rfl⟩)
theorem witness_InnerStackStop_null : InnerStackStop (put (user gated) 0xC08 [3]) 0 .nullInnerStack :=
  .inr (.inr ⟨3, 0x9000, by unfold TaskGives; decide, .inl ⟨by decide, rfl⟩⟩)
theorem witness_InnerStackStop_beyond : let s := put (user gated) 0xC08 [0x30]
    GateAdmits s .intN 0x30 trapGate64 ∧ EntryOk s trapGate64 codeDesc ∧ descDpl codeDesc < s.cpl ∧ InnerStackStop s 0 .badInnerStack :=
  ⟨by unfold GateAdmits DplChecked; decide, by unfold EntryOk; decide, by decide,
    .inr (.inr ⟨0x30, 0x9000, by unfold TaskGives; decide, .inr ⟨by decide, .inl ⟨by decide, by decide⟩, rfl⟩⟩)⟩
theorem witness_InnerStackStop_level : InnerStackStop (put (user gated) 0xC08 [0x23]) 0 .badInnerStack :=
  .inr (.inr ⟨0x23, 0x9000, by unfold TaskGives; decide, .inr ⟨by decide, .inr ⟨userDataDesc, by decide, by unfold ReturnStackOk; decide⟩, rfl⟩⟩)
theorem witness_InnerFrameOutside : let s := put (user gated) 0xC04 [19, 0]
    GateAdmits s .intN 0x30 trapGate64 ∧ EntryOk s trapGate64 codeDesc ∧ InnerFrameOutside s 0 none :=
  ⟨by unfold GateAdmits DplChecked; decide, by unfold EntryOk; decide, 0x10, 19, dataDesc, by unfold TaskGives; decide, by unfold ReturnStackOk; decide, by unfold DescHolds; decide⟩
theorem witness_InnerStackOk_lowest : InnerStackOk (put (user gated) 0xC04 [20, 0]) 0 none 0x10 20 dataDesc := by
  unfold InnerStackOk TaskGives ReturnStackOk DescHolds; decide
theorem witness_SoftwareInterruptEntersHandler_no_room : let s := reg gated .esp 11
    GateAdmits s .intN 0x30 trapGate64 ∧ EntryOk s trapGate64 codeDesc ∧ descDpl codeDesc = s.cpl
      ∧ segCheck s .ss (s.esp - 12) 12 .write = .error (.raise (.ss 0)) := by unfold GateAdmits DplChecked EntryOk; decide
theorem witness_GatePrivilegeFault_int3_into : let s := { user gated with eflags := 0xA02, cfg := { Config.standard with gateDplCheckedFor := [.intN, .into] } }
    linRead s (s.idtr.base + 24) 8 = .ok intGate64 ∧ linRead s (s.idtr.base + 32) 8 = .ok intGate64 ∧ gateKind s.cfg intGate64 = .interrupt
      ∧ descDpl intGate64 < s.cpl ∧ EventKind.intN ∈ s.cfg.gateDplCheckedFor ∧ EventKind.int3 ∉ s.cfg.gateDplCheckedFor
      ∧ flag s.eflags bitOF = true ∧ EventKind.into ∈ s.cfg.gateDplCheckedFor := by decide
theorem witness_GatePrivilegeFault : let s := withGate (user gated) 0x21 intGate
    8 * (0x21 : Byte).toNat + 7 ≤ s.idtr.limit.toNat ∧ linRead s (s.idtr.base + BitVec.ofNat 32 (8 * (0x21 : Byte).toNat)) 8 = .ok intGate64
      ∧ gateKind s.cfg intGate64 = .interrupt ∧ EventKind.intN ∈ s.cfg.gateDplCheckedFor ∧ descDpl intGate64 < s.cpl := by decide
theorem witness_IntoAndBoundOutcomes : flag base.eflags bitOF = false ∧ readMem (bounds 9) none (.base .ebx .none) 0 4 = .ok 0#32
    ∧ readMem (bounds 9) none (.base .ebx .none) 4 4 = .ok 9#32 ∧ (0 : Word).toInt ≤ ((bounds 9).reg .eax).toInt
    ∧ ((bounds 9).reg .eax).toInt ≤ (9 : Word).toInt := by decide
theorem witness_IntoAndBoundOutcomes_outside : readMem (bounds 10) none (.base .ebx .none) 0 4 = .ok 0#32
    ∧ readMem (bounds 10) none (.base .ebx .none) 4 4 = .ok 9#32 ∧ ¬((bounds 10).reg .eax).toInt ≤ (9 : Word).toInt := by decide

theorem witness_ExceptionEntersHandler_same : MemInv gated ∧ GateAdmits gated .exception 13 intGate64 ∧ EntryOk gated intGate64 codeDesc
    ∧ descDpl codeDesc = gated.cpl ∧ pushedCode gated.cfg 13 (some 0x10) = some 0x10
    ∧ Writable gated .ss (gated.esp - BitVec.ofNat 32 (frameSize (some 0x10))) (frameSize (some 0x10)) := by
  unfold MemInv GateAdmits DplChecked EntryOk Writable; decide
theorem witness_ExceptionEntersHandler_vectors : GateAdmits gated .exception 12 intGate64 ∧ GateAdmits gated .exception 11 intGate64
    ∧ GateAdmits gated .bound 5 intGate64 ∧ pushedCode gated.cfg 5 none = none := by unfold GateAdmits DplChecked; decide
theorem witness_ExceptionEntersHandler_external : let s := withGate gated 0xFF intGate
    EventDelivered s (deliverOrStop s .external 0xFF none s.eip) .external 0xFF none ∧ GateAdmits s .external 0xFF intGate64
      ∧ EntryOk s intGate64 codeDesc ∧ pushedCode s.cfg 0xFF none = none :=
  ⟨.inr (.inr (.inr (.inr ⟨rfl, rfl, rfl⟩))), by unfold GateAdmits DplChecked; decide, by unfold EntryOk; decide, by decide⟩
theorem witness_ExceptionEntersHandler_no_gate : let s := { gated with idtr := { base := 0x2000, limit := 0x6E } }
    EventDelivered s (takeException s (.gp 0)) .exception 13 (some 0) ∧ s.idtr.limit.toNat < 8 * (13 : Byte).toNat + 7 :=
  ⟨.inl ⟨0, rfl, rfl, rfl, rfl⟩, by decide⟩
theorem witness_ExceptionEntersHandler_no_room : let s := reg gated .esp 15
    GateAdmits s .exception 13 intGate64 ∧ EntryOk s intGate64 codeDesc ∧ descDpl codeDesc = s.cpl
      ∧ segCheck s .ss (s.esp - BitVec.ofNat 32 (frameSize (some 0))) (frameSize (some 0)) .write = .error (.raise (.ss 0)) := by
  unfold GateAdmits DplChecked EntryOk; decide
theorem witness_ExceptionEntersHandler_inner : MemInv (user gated) ∧ GateAdmits (user gated) .exception 13 intGate64
    ∧ EntryOk (user gated) intGate64 codeDesc ∧ descDpl codeDesc < (user gated).cpl
    ∧ InnerStackOk (user gated) (descDpl codeDesc) (some 0) 0x10 0x9000 dataDesc := by
  unfold MemInv GateAdmits DplChecked EntryOk InnerStackOk TaskGives ReturnStackOk DescHolds; decide
theorem witness_HardwareInterrupts_intr : let s := { base with oracle := [[.intr 32]], eflags := 0x202 }
    s.cfg.stopEip ≠ some s.eip ∧ flag s.eflags bitTF = false ∧ flag s.eflags bitVM = false ∧ s.shadow = false
      ∧ flag s.eflags bitIF = true := by decide
theorem witness_HardwareInterrupts_nmi : let s := { base with oracle := [[.nmi]] }
    s.cfg.stopEip ≠ some s.eip ∧ flag s.eflags bitTF = false ∧ flag s.eflags bitVM = false ∧ s.shadow = false
      ∧ s.nmiBlocked = false := by decide
theorem witness_HardwareInterrupts_wait : let s := { base with oracle := [[.intr 32], []] }
    s.cfg.stopEip ≠ some s.eip ∧ flag s.eflags bitTF = false ∧ flag s.eflags bitVM = false ∧ [Request.intr 32] ≠ []
      ∧ flag s.eflags bitIF = false ∧ ∀ r ∈ [Request.intr 32], r ≠ .nmi := by decide

/-- IRET to level 0. -/
def iretSame : State := stackOf sys [0x3000, 0x77770008, 0x3202]

/-- IRET to level 3. -/
def iretOuter : State := stackOf sys [0x20000, 0x1B, 0x202, 0x30000, 0x23]

theorem witness_ReturnFromInterruptSameLevel : MemInv iretSame ∧ flag iretSame.eflags bitNT = false ∧ flag 0x3202 bitVM = false
    ∧ segCheck iretSame .ss iretSame.esp 12 .read = .ok ()
    ∧ HoldsDwords iretSame (iretSame.linear .ss iretSame.esp) [0x3000, 0x77770008, 0x3202]
    ∧ ReturnTargetOk iretSame ((0x77770008 : Word).extractLsb' 0 16) 0x3000 codeDesc iretSame.cpl := by
  simp only [MemInv, ReturnTargetOk, HoldsDwords]; decide
theorem witness_ReturnFromInterruptOuterLevel : MemInv iretOuter ∧ flag iretOuter.eflags bitNT = false ∧ flag 0x202 bitVM = false
    ∧ segCheck iretOuter .ss iretOuter.esp 12 .read = .ok () ∧ HoldsDwords iretOuter (iretOuter.linear .ss iretOuter.esp) [0x20000, 0x1B, 0x202]
    ∧ ReturnTargetOk iretOuter 0x1B 0x20000 userCodeDesc 3 ∧ (3 : Level) ≠ iretOuter.cpl
    ∧ segCheck iretOuter .ss (iretOuter.esp + 12) 8 .read = .ok ()
    ∧ HoldsDwords iretOuter (iretOuter.linear .ss (iretOuter.esp + 12)) [0x30000, 0x23] ∧ ReturnStackOk iretOuter 3 0x23 userDataDesc := by
  simp only [MemInv, ReturnTargetOk, ReturnStackOk, HoldsDwords]; decide

theorem witness_MoveToRegister : readRM32 base none (.mem (.abs 0xFFFFFFFC)) = .ok 0 ∧ readRM8 base none (.mem (.abs 0xFFFFFFFF)) = .ok 0 := by decide
theorem witness_MoveToOperand : MemInv base ∧ Writable base (operandSeg base.cfg none (.abs 0xFFFFFFFC)) (base.ea (.abs 0xFFFFFFFC)) 4
    ∧ Writable base (operandSeg base.cfg none (.abs 0xFFFFFFFF)) (base.ea (.abs 0xFFFFFFFF)) 1 := by unfold MemInv Writable; decide
theorem witness_AddCompletes : MemInv base ∧ readRM32 base none (.mem (.abs 0xFFFFFFFC)) = .ok 0 ∧ readRM32 base none (.reg .esp) = .ok 0x8000
    ∧ Writable base (operandSeg base.cfg none (.abs 0xFFFFFFFC)) (base.ea (.abs 0xFFFFFFFC)) 4 := by unfold MemInv Writable; decide


/-- The stack segment cut at a limit. -/
def withSs (limit : BitVec 20) (e : Bool) : State := base.setSeg .ss { sel := 0x10, cache := { flatData with limit := limit, g := false, ce := e } }

theorem witness_OperandChecksRaise_read : OperandReads (.movR8Rm8 (some .fs) .al (.mem (.abs 0))) (some .fs) (.abs 0) [(0, 1)]
    ∧ segCheck base (operandSeg base.cfg (some .fs) (.abs 0)) (base.ea (.abs 0) + 0) 1 .read = .error (.raise (.gp 0)) :=
  ⟨.inr (.inr (.inl ⟨rfl, .al, rfl⟩)), by decide⟩
theorem witness_OperandChecksRaise_second : let s := withDs 0x104 false false true
    OperandReads (.bound none .eax (.abs 0x100)) none (.abs 0x100) [(0, 4), (4, 4)] ∧ readMem s none (.abs 0x100) 0 4 = .ok 0#32
      ∧ segCheck s (operandSeg s.cfg none (.abs 0x100)) (s.ea (.abs 0x100) + 4) 4 .read = .error (.raise (.gp 0)) :=
  ⟨.inr (.inr (.inr (.inr (.inl ⟨rfl, .eax, rfl⟩)))), by decide, by decide⟩
theorem witness_OperandChecksRaise_privileged : let s := withDs 0x704 false false true
    OperandReads (.lgdt none (.abs 0x700)) none (.abs 0x700) [(0, 2), (2, 4)] ∧ Privileged (.lgdt none (.abs 0x700)) ∧ s.cpl = 0
      ∧ readMem s none (.abs 0x700) 0 2 = .ok 0#16 ∧ segCheck s (operandSeg s.cfg none (.abs 0x700)) (s.ea (.abs 0x700) + 2) 4 .read = .error (.raise (.gp 0)) :=
  ⟨.inr (.inr (.inr (.inr (.inr ⟨rfl, .inl rfl⟩)))), .inl ⟨none, _, .inl rfl⟩, by decide, by decide, by decide⟩
theorem witness_OperandChecksRaise_write : OperandWrite base (.addRm32Imm8 (some .cs) (.mem (.abs 0)) 1) (some .cs) (.abs 0) 4
    ∧ segCheck base (operandSeg base.cfg (some .cs) (.abs 0)) (base.ea (.abs 0)) 4 .write = .error (.raise (.gp 0)) :=
  ⟨.inr (.inr ⟨rfl, .inr (.inr ⟨⟨0, by decide⟩, .inr (.inr ⟨1, rfl⟩)⟩)⟩), by decide⟩
theorem witness_OperandChecksRaise_pop : segRead base .ss base.esp 4 = .ok 0#32
    ∧ segCheck (reg base .esp 0xFFFFFFF8) .ss (effAddr { (reg base .esp 0xFFFFFFF8).regs with esp := 0xFFFFFFFC } (.sib .esp .x1 none (.d8 1))) 4 .write
      = .error (.raise (.ss 0)) ∧ segRead (reg base .esp 0xFFFFFFF8) .ss 0xFFFFFFF8 4 = .ok 0#32 := by decide
theorem witness_OperandChecksRaise_stack_read : let s := reg base .esp 0xFFFFFFFD
    StackRead s (.ret none) 4 ∧ StackRead s (.retFar none) 8 ∧ StackRead s (.iret none) 12 ∧ StackRead s (.popa none) 32
      ∧ segCheck s .ss s.esp 4 .read = .error (.raise (.ss 0)) ∧ segCheck (reg base .esp 0xFFFFFFE1) .ss 0xFFFFFFE1 32 .read = .error (.raise (.ss 0)) :=
  ⟨.inl ⟨rfl, .inr (.inr (.inr ⟨none, .inl rfl⟩))⟩, .inr (.inl ⟨rfl, none, .inl rfl⟩), .inr (.inr (.inl ⟨rfl, by decide, none, rfl⟩)),
    .inr (.inr (.inr ⟨rfl, none, rfl⟩)), by decide, by decide⟩
theorem witness_OperandChecksRaise_pusha : segCheck (withSs 0x7FFE false) .ss ((withSs 0x7FFE false).esp - 32) 32 .write = .error (.raise (.ss 0))
    ∧ (let s := reg (withSs 0x7FFE false) .esp 28
      segCheck s .ss (s.esp - 32) (32 - s.esp.toNat) .write = .error (.raise (.ss 0)))
    ∧ (let s := reg (withSs 0xFFFFF true) .esp 4
      segCheck s .ss (s.esp - 32) (32 - s.esp.toNat) .write = .ok () ∧ segCheck s .ss 0 s.esp.toNat .write = .error (.raise (.ss 0))) := by decide
theorem witness_OperandChecksRaise_call : let s := reg (withSs 0x7FFE false) .eax 0x2000
    NearCall s (.callRm32 none (.reg .eax)) 0x2000 ∧ (0x2000 : Word) ≤ effLimit s.segs.cs.cache.limit s.segs.cs.cache.g
      ∧ segCheck s .ss (s.esp - 4) 4 .write = .error (.raise (.ss 0)) := ⟨⟨none, .inr ⟨_, rfl, by decide⟩⟩, by decide, by decide⟩
theorem witness_OperandChecksRaise_far_call : let s := withGdt (withSs 0x7FFE false)
    FarPointer s (.callPtr1632 none 0 8) true 0 8 ∧ FarTargetOk s 8 0 codeDesc ∧ segCheck s .ss (s.esp - 8) 8 .write = .error (.raise (.ss 0)) :=
  ⟨⟨none, .inr (.inl ⟨rfl, rfl⟩)⟩, by unfold FarTargetOk; decide, by decide⟩
theorem witness_OperandChecksRaise_push_segment : PushesSegment (.pushCs none) .cs ∧ segCheck (withSs 0x7FFC false) .ss 0x7FFC 2 .write = .error (.raise (.ss 0))
    ∧ Writable (withSs 0x7FFE false) .ss 0x7FFC 2 ∧ segCheck (withSs 0x7FFE false) .ss 0x7FFC 4 .write = .error (.raise (.ss 0)) :=
  ⟨⟨none, by simp⟩, by decide, by unfold Writable; decide, by decide⟩

theorem witness_MemoryFormKept : MemInv base ∧ after base [0x54] (fun t => t.mem.length) = some 2 := by unfold MemInv; decide
theorem witness_SegmentRegistersKept : SegInv sys ∧ after (reg sys .eax 0x23) [0x8E, 0xD8] (fun t => t.segs.ds.sel) = some 0x23 := by
  unfold SegInv; decide
theorem witness_ReservedFlagsKept : FlagsInv sys.eflags ∧ after base [0xFB] (fun t => t.eflags) = some 0x202 := by unfold FlagsInv; decide
theorem witness_PrivilegeChanges_by_return : after leaving [0xCB] (fun t => (leaving.cpl, t.cpl)) = some (0, 3) := by decide
theorem witness_PrivilegeChanges_by_gate : after (user gated) [0xCD, 0x30] (fun t => ((user gated).cpl, t.cpl)) = some (3, 0) := by decide
theorem witness_UserLeavesSystemRegistersAlone : (user sys).cpl ≠ 0 ∧ iopl (user sys).eflags < (user sys).cpl
    ∧ after (user { sys with eip := 0x20000 }) [0x90] (fun t => (t.eip, t.eflags)) = some (0x20001, 0x202) := by decide

end Sys2Proof.Tests
end

section
/-! SUPPORT. The part of the state that only system operations change, and what each instruction that completes has done to
it, said once: the invariants of the registers are read off `Effect`. -/

namespace Sys2Proof.Machine

open Sys2Proof

/-! ### Following a chain of operations -/

/-- Whatever the operation answers has the property. -/
def Yields {α : Type} (r : Res α) (P : α → Prop) : Prop := ∀ a, r = .ok a → P a

theorem Yields.ok {α : Type} {a : α} {P : α → Prop} (h : P a) : Yields (Except.ok a : Res α) P := by
  intro b hb
  cases hb
  exact h

/-- A chain has the property if its second part has it for everything the first part answers. -/
theorem Yields.bind {α β : Type} {x : Res α} {f : α → Res β} {P : β → Prop} (h : ∀ a, x = .ok a → Yields (f a) P) :
    Yields (x >>= f) P := by
  intro b hb
  obtain ⟨a, ha, hf⟩ := bind_eq_ok.1 hb
  exact h a ha b hf

/-! ### The system part of the state -/

/-- The segment registers, EFLAGS, GDTR, IDTR, TR and the parameters are the same: what an instruction of the carrier or
the stack leaves alone. -/
structure SameSystem (s t : State) : Prop where
  segs : t.segs = s.segs
  eflags : t.eflags = s.eflags
  gdtr : t.gdtr = s.gdtr
  idtr : t.idtr = s.idtr
  tr : t.tr = s.tr
  cfg : t.cfg = s.cfg

namespace SameSystem

variable {s t u : State}

theorem refl (s : State) : SameSystem s s := ⟨rfl, rfl, rfl, rfl, rfl, rfl⟩

theorem trans (h : SameSystem s t) (k : SameSystem t u) : SameSystem s u :=
  ⟨k.segs.trans h.segs, k.eflags.trans h.eflags, k.gdtr.trans h.gdtr, k.idtr.trans h.idtr, k.tr.trans h.tr,
    k.cfg.trans h.cfg⟩

theorem ofOnlyMem (h : OnlyMem s t) : SameSystem s t := ⟨h.segs, h.eflags, h.gdtr, h.idtr, h.tr, h.cfg⟩

/-- An update of a general register, of EIP or of the shadow keeps the system part. -/
theorem setReg (h : SameSystem s t) (r : Reg) (v : Word) : SameSystem s (t.setReg r v) := { h with }
theorem setReg8 (h : SameSystem s t) (r : Reg8) (v : Byte) : SameSystem s (t.setReg8 r v) := { h with }
theorem setEsp (h : SameSystem s t) (v : Word) : SameSystem s (t.setEsp v) := { h with }
theorem jump (h : SameSystem s t) (v : Word) : SameSystem s (t.jump v) := { h with }
theorem inShadow (h : SameSystem s t) : SameSystem s t.inShadow := { h with }
theorem freeHalf (h : SameSystem s t) : SameSystem s t.freeHalf.2 := { h with }

/-- The same write to the system part of both states. -/
theorem setSeg (h : SameSystem s t) (r : SReg) (v : SegReg) : SameSystem (s.setSeg r v) (t.setSeg r v) :=
  { h with segs := by simp only [State.setSeg_segs, h.segs] }

theorem setFlags (h : SameSystem s t) (f : Word) : SameSystem (s.setFlags f) (t.setFlags f) :=
  { h with eflags := rfl }

end SameSystem

/-! ### Stores keep it -/

theorem segWrite_same {s t : State} {r : SReg} {off : Word} {n : Nat} {v : BitVec (8 * n)}
    (h : segWrite s r off n v = .ok t) : SameSystem s t := .ofOnlyMem (segWrite_onlyMem h)

theorem setAccessed_same {s t : State} {sel : Half} {d : BitVec 64} (h : setAccessed s sel d = .ok t) : SameSystem s t :=
  .ofOnlyMem (setAccessed_onlyMem h)

theorem push32_same {s t : State} {v : Word} (h : push32 s v = .ok t) : SameSystem s t := by
  obtain ⟨u, hu, rfl⟩ := push32_ok.1 h
  exact (segWrite_same hu).setEsp _

theorem pop32_same {s t : State} {v : Word} (h : pop32 s = .ok (v, t)) : SameSystem s t := by
  obtain ⟨-, rfl⟩ := pop32_ok.1 h
  exact (SameSystem.refl s).setEsp _

theorem storeDown_same {s t : State} {top : Word} {vs : List Word} (h : storeDown s top vs = .ok t) : SameSystem s t := by
  induction vs generalizing s top with
  | nil => cases h; exact .refl _
  | cons v vs ih =>
    obtain ⟨u, hu, ht⟩ := bind_eq_ok.1 h
    exact (segWrite_same hu).trans (ih ht)

theorem storeSelSlot_same {s t : State} {off : Word} {sel : Half} (h : storeSelSlot s off sel = .ok t) :
    SameSystem s t := by
  obtain ⟨u, hu, -, ht⟩ := storeSelSlot_ok.1 h
  exact (segWrite_same hu).freeHalf.trans (segWrite_same ht)

theorem writeRM32_same {s t : State} {ov : Option SReg} {op : RM Reg} {v : Word} (h : writeRM32 s ov op v = .ok t) :
    SameSystem s t := by
  cases op with
  | reg r => cases h; exact (SameSystem.refl s).setReg r v
  | mem m => exact segWrite_same h

theorem writeRM8_same {s t : State} {ov : Option SReg} {op : RM Reg8} {v : Byte} (h : writeRM8 s ov op v = .ok t) :
    SameSystem s t := by
  cases op with
  | reg r => cases h; exact (SameSystem.refl s).setReg8 r v
  | mem m => exact segWrite_same h

theorem storeSelector_same {s t : State} {ov : Option SReg} {op : RM Reg} {sel : Half}
    (h : storeSelector s ov op sel = .ok t) : SameSystem s t := by
  cases op with
  | reg r => cases h; exact (SameSystem.refl s).freeHalf.setReg r _
  | mem m => exact segWrite_same h

theorem markBusy_same {s t : State} {sel : Half} (h : markBusy s sel = .ok t) : SameSystem s t := by
  unfold markBusy at h
  split at h
  · exact .ofOnlyMem (orAccessByte_onlyMem h)
  · cases h; exact .refl s

/-! ### What an instruction does to the system part -/

/-- What the instruction `i`, completing, has done to the system part of the state: nothing; new arithmetic flags or a new
IF; a load of a segment register; a transfer to another code segment of the same level; a far return; a load of GDTR, IDTR
or TR, at level 0; or it has delivered an interrupt or exception. -/
inductive Effect (i : Instr) (s t : State) : Prop where
  | same (h : SameSystem s t)
  | add (a b : Word) (h : SameSystem (s.setFlags (addFlags s.eflags a b)) t)
  | interruptFlag (b : Bool) (priv : s.cpl ≤ iopl s.eflags) (h : SameSystem (s.setFlags (setFlag s.eflags bitIF b)) t)
  | segLoad (r : SReg) (sel : Half) (u : State) (load : loadSeg s r sel = .ok u) (h : SameSystem u t)
  | farTransfer (sel : Half) (off : Word) (d : BitVec 64) (u w : State) (target : farTarget s sel off = .ok d)
      (store : SameSystem s u) (load : loadCS u sel d s.cpl = .ok w) (h : SameSystem w t)
  | retFar (extra : Word) (hi : ∃ ov, i = .retFar ov ∨ ∃ imm, i = .retFarImm16 ov imm)
      (h : farReturn s false extra = .ok t)
  | iret (u : State) (hi : ∃ ov, i = .iret ov) (ret : farReturn s true 0 = .ok u) (h : SameSystem u t)
  | system (priv : s.cpl = 0) (segs : t.segs = s.segs) (eflags : t.eflags = s.eflags) (cfg : t.cfg = s.cfg)
  | delivery (k : EventKind) (v : Byte) (e : Option Half) (p : Word) (h : deliver s k v e p = .ok t)

/-- An instruction that raised has delivered an exception; one that did not is judged by its own work. -/
theorem settle_effect {i : Instr} {s t : State} {r : Res State} (h : settle s r = .next t)
    (own : Yields r (Effect i s)) : Effect i s t := by
  obtain hr | ⟨x, -, hx⟩ := settle_eq_next h
  · exact own t hr
  · exact .delivery _ _ _ _ (deliverOrStop_eq_next hx)

section Parts

variable {i : Instr} {s : State}

theorem pushSeg_yields {r : SReg} {next : Word} : Yields (pushSeg s r next) (Effect i s) :=
  .bind fun _ hu => .ok (.same (((storeSelSlot_same hu).setEsp _).jump next))

theorem popSeg_loads {r : SReg} {next : Word} :
    Yields (popSeg s r next) fun t => ∃ sel u, loadSeg s r sel = .ok u ∧ SameSystem u t :=
  .bind fun _ _ => .bind fun u hu => .ok ⟨_, u, hu, ((SameSystem.refl u).setEsp _).jump next⟩

theorem popSeg_yields {r : SReg} {next : Word} : Yields (popSeg s r next) (Effect i s) := fun t ht => by
  obtain ⟨sel, u, hu, hs⟩ := popSeg_loads t ht
  exact .segLoad r sel u hu hs

theorem nearJump_yields {target : Word} : Yields (nearJump s target) (Effect i s) :=
  .bind fun _ _ => .ok (.same ((SameSystem.refl s).jump target))

theorem nearCall_yields {target ret : Word} : Yields (nearCall s target ret) (Effect i s) :=
  .bind fun _ _ => .bind fun _ hu => .ok (.same ((push32_same hu).jump target))

theorem nearRet_yields {extra : Word} : Yields (nearRet s extra) (Effect i s) :=
  .bind fun target _ => .bind fun _ _ => .ok (.same (((SameSystem.refl s).setEsp _).jump target))

theorem farJump_yields {off : Word} {sel : Half} : Yields (farJump s off sel) (Effect i s) :=
  .bind fun d hd => .bind fun w hw => .ok (.farTransfer sel off d s w hd (.refl s) hw ((SameSystem.refl w).jump off))

theorem farCall_yields {off : Word} {sel : Half} {ret : Word} : Yields (farCall s off sel ret) (Effect i s) :=
  .bind fun d hd => .bind fun _ _ => .bind fun _ h1 => .bind fun _ h2 => .bind fun w hw =>
    .ok (.farTransfer sel off d _ w hd (((storeSelSlot_same h1).trans (segWrite_same h2)).setEsp _) hw
      ((SameSystem.refl w).jump off))

theorem addToRM_yields {ov : Option SReg} {op : RM Reg} {b next : Word} : Yields (addToRM s ov op b next) (Effect i s) :=
  .bind fun a _ => .bind fun _ hu => .ok (.add a b (((writeRM32_same hu).setFlags _).jump next))

theorem deliver_yields {k : EventKind} {v : Byte} {e : Option Half} {p : Word} :
    Yields (deliver s k v e p) (Effect i s) := fun _ h => .delivery k v e p h

/-- LTR's load writes TR and memory alone (rule R278). -/
theorem loadTask_frame {sel : Half} :
    Yields (loadTask s sel) fun t => t.segs = s.segs ∧ t.eflags = s.eflags ∧ t.cfg = s.cfg :=
  .bind fun _ _ => .bind fun _ _ => .bind fun _ _ => .bind fun _ _ => .bind fun _ _ => .bind fun _ hm =>
    .ok ⟨(markBusy_same hm).segs, (markBusy_same hm).eflags, (markBusy_same hm).cfg⟩

end Parts

/-- The check of a privileged instruction passes at level 0 only (rule R275). -/
theorem level_zero {s : State} {x : Exc} {u : Unit} (h : raiseIf (decide (s.cpl ≠ 0)) x = .ok u) : s.cpl = 0 := by
  simpa using h

/-- The check of CLI and STI passes at a level that IOPL covers (rules R280, R281). -/
theorem iopl_covers {s : State} {x : Exc} {u : Unit} (h : raiseIf (decide (iopl s.eflags < s.cpl)) x = .ok u) :
    s.cpl ≤ iopl s.eflags := by
  simpa [BitVec.not_lt] using h

/-- The one case split over the instructions: each, completing, has one of the effects. -/
theorem exec_effect {i : Instr} {s t : State} (h : exec i s = .next t) : Effect i s t := by
  have same := SameSystem.refl s
  cases i with
  | pushR32 ov r => exact settle_effect h <| .bind fun _ hu => .ok (.same ((push32_same hu).jump _))
  | pushRm32 ov op => exact settle_effect h <| .bind fun _ _ => .bind fun _ hu => .ok (.same ((push32_same hu).jump _))
  | pushImm32 ov imm => exact settle_effect h <| .bind fun _ hu => .ok (.same ((push32_same hu).jump _))
  | pushImm8 ov imm => exact settle_effect h <| .bind fun _ hu => .ok (.same ((push32_same hu).jump _))
  | pushEs ov => exact settle_effect h pushSeg_yields
  | pushCs ov => exact settle_effect h pushSeg_yields
  | pushSs ov => exact settle_effect h pushSeg_yields
  | pushDs ov => exact settle_effect h pushSeg_yields
  | pushFs ov => exact settle_effect h pushSeg_yields
  | pushGs ov => exact settle_effect h pushSeg_yields
  | popR32 ov r => exact settle_effect h <| .bind fun _ hu => .ok (.same (((pop32_same hu).setReg r _).jump _))
  | popRm32 ov op =>
    exact settle_effect h <| .bind fun _ hu => .bind fun _ hw =>
      .ok (.same ((((pop32_same hu).trans (writeRM32_same hw)).setEsp _).jump _))
  | popEs ov => exact settle_effect h popSeg_yields
  | popSs ov =>
    exact settle_effect h <| .bind fun _ hu => .ok <| by
      obtain ⟨sel, w, hw, hs⟩ := popSeg_loads _ hu
      exact .segLoad .ss sel w hw hs.inShadow
  | popDs ov => exact settle_effect h popSeg_yields
  | popFs ov => exact settle_effect h popSeg_yields
  | popGs ov => exact settle_effect h popSeg_yields
  | pusha ov =>
    exact settle_effect h <| .bind fun _ _ => .bind fun _ hu => .ok (.same (((storeDown_same hu).setEsp _).jump _))
  | popa ov =>
    exact settle_effect h <| .bind fun _ _ => .bind fun _ _ => .bind fun _ _ => .bind fun _ _ => .bind fun _ _ =>
      .bind fun _ _ => .bind fun _ _ => .bind fun _ _ => .ok (.same { same with })
  | jmpRel8 ov rel => exact settle_effect h nearJump_yields
  | jmpRel32 ov rel => exact settle_effect h nearJump_yields
  | jmpRm32 ov op => exact settle_effect h <| .bind fun _ _ => nearJump_yields
  | jmpM1632 ov m => exact settle_effect h <| .bind fun _ _ => farJump_yields
  | jmpPtr1632 ov off sel => exact settle_effect h farJump_yields
  | callRel32 ov rel => exact settle_effect h nearCall_yields
  | callRm32 ov op => exact settle_effect h <| .bind fun _ _ => nearCall_yields
  | callM1632 ov m => exact settle_effect h <| .bind fun _ _ => farCall_yields
  | callPtr1632 ov off sel => exact settle_effect h farCall_yields
  | ret ov => exact settle_effect h nearRet_yields
  | retImm16 ov imm => exact settle_effect h nearRet_yields
  | retFar ov => exact settle_effect h fun _ hr => .retFar 0 ⟨ov, .inl rfl⟩ hr
  | retFarImm16 ov imm => exact settle_effect h fun _ hr => .retFar _ ⟨ov, .inr ⟨imm, rfl⟩⟩ hr
  | movSregRm16 ov sr op =>
    exact settle_effect h <| .bind fun v _ => .bind fun u hu => .ok <| by
      have hj := (SameSystem.refl u).jump (s.nextEip (.movSregRm16 ov sr op))
      split
      · exact .segLoad sr v u hu hj.inShadow
      · exact .segLoad sr v u hu hj
  | movRm16Sreg ov op sr => exact settle_effect h <| .bind fun _ hu => .ok (.same ((storeSelector_same hu).jump _))
  | lgdt ov m => exact settle_effect h <| .bind fun _ hp => .bind fun _ _ => .ok (.system (level_zero hp) rfl rfl rfl)
  | lidt ov m => exact settle_effect h <| .bind fun _ hp => .bind fun _ _ => .ok (.system (level_zero hp) rfl rfl rfl)
  | ltr ov op =>
    exact settle_effect h <| .bind fun _ hp => .bind fun _ _ => .bind fun u hu => .ok <| by
      obtain ⟨hsegs, hflags, hcfg⟩ := loadTask_frame u hu
      exact .system (level_zero hp) hsegs hflags hcfg
  | cli ov =>
    exact settle_effect h <| .bind fun _ hp => .ok (.interruptFlag false (iopl_covers hp) ((same.setFlags _).jump _))
  | sti ov =>
    exact settle_effect h <| .bind fun _ hp =>
      .ok (.interruptFlag true (iopl_covers hp) ((same.setFlags _).jump _).inShadow)
  | intN ov n => exact settle_effect h deliver_yields
  | int3 ov => exact settle_effect h deliver_yields
  | into ov =>
    refine settle_effect h ?_
    split
    · exact deliver_yields
    · exact .ok (.same (same.jump _))
  | bound ov r m =>
    exact settle_effect h <| .bind fun _ _ => .bind fun _ _ => .bind fun _ _ => .ok (.same (same.jump _))
  | iret ov =>
    exact settle_effect h <| .bind fun _ _ => .bind fun u hu => .ok (.iret u ⟨ov, rfl⟩ hu { SameSystem.refl u with })
  | movRm8R8 ov op r => exact settle_effect h <| .bind fun _ hu => .ok (.same ((writeRM8_same hu).jump _))
  | movRm32R32 ov op r => exact settle_effect h <| .bind fun _ hu => .ok (.same ((writeRM32_same hu).jump _))
  | movR8Rm8 ov r op => exact settle_effect h <| .bind fun _ _ => .ok (.same ((same.setReg8 r _).jump _))
  | movR32Rm32 ov r op => exact settle_effect h <| .bind fun _ _ => .ok (.same ((same.setReg r _).jump _))
  | movR8Imm8 ov r imm => cases h; exact .same ((same.setReg8 r imm).jump _)
  | movR32Imm32 ov r imm => cases h; exact .same ((same.setReg r imm).jump _)
  | movRm8Imm8 ov op imm => exact settle_effect h <| .bind fun _ hu => .ok (.same ((writeRM8_same hu).jump _))
  | movRm32Imm32 ov op imm => exact settle_effect h <| .bind fun _ hu => .ok (.same ((writeRM32_same hu).jump _))
  | lea ov r m => cases h; exact .same ((same.setReg r _).jump _)
  | addRm32R32 ov op r => exact settle_effect h addToRM_yields
  | addR32Rm32 ov r op =>
    exact settle_effect h <| .bind fun b _ => .ok (.add (s.reg r) b (((same.setReg r _).setFlags _).jump _))
  | addRm32Imm32 ov op imm => exact settle_effect h addToRM_yields
  | addRm32Imm8 ov op imm => exact settle_effect h addToRM_yields
  | nop ov => cases h; exact .same (same.jump _)

/-- What the system part decides, and every delivery and every effect keeps, every step keeps. -/
theorem step_keeps {P : State → Prop} (same : ∀ {s t}, SameSystem s t → P s → P t)
    (delivery : ∀ {s t k v e p}, deliver s k v e p = .ok t → P s → P t)
    (effect : ∀ {i s t}, Effect i s t → P s → P t) {s t : State} (hs : P s) (h : step s = .next t) : P t := by
  obtain rfl | ⟨o, b, hstep⟩ := step_eq_next h
  · exact hs
  have hu : P { s with shadow := false, oracle := o, nmiBlocked := b } := same { SameSystem.refl s with } hs
  obtain ⟨k, v, e, p, hd⟩ | ⟨i, -, hi⟩ := hstep
  · exact delivery hd hu
  · exact effect (exec_effect hi) hu

end Sys2Proof.Machine
end

section
/-! SUPPORT. The segment registers and EFLAGS after a load, a far transfer, an entry through a gate and a far return. -/

namespace Sys2Proof.Machine

open Sys2Proof

/-! ### Loads of a segment register (rules R100, R104) -/

/-- The load of CS writes CS and memory alone. -/
theorem loadCS_same {s t : State} {sel : Half} {d : BitVec 64} {lvl : Level} (h : loadCS s sel d lvl = .ok t) :
    descDB d = true ∧ SameSystem (s.setSeg .cs (loadedCS s.cfg sel d lvl)) t := by
  obtain ⟨hdb, u, hu, rfl⟩ := loadCS_ok.1 h
  have hs := setAccessed_same hu
  refine ⟨hdb, ?_⟩
  rw [hs.cfg]
  exact hs.setSeg .cs _

/-- The load of SS writes SS and memory alone, from a descriptor that may be the stack of the current level. -/
theorem loadSeg_ss_same {s t : State} {sel : Half} (h : loadSeg s .ss sel = .ok t) :
    ∃ d, ReturnStackOk s s.cpl sel d ∧ SameSystem (s.setSeg .ss { sel := sel, cache := cacheOf d s.cpl }) t := by
  obtain ⟨hn, d, u, hd, hc, hu, rfl⟩ := loadSeg_ss_ok.1 h
  have hstack := checkStackDesc_ok.1 hc
  have ⟨_, _, _, hdpl, _⟩ := hstack
  refine ⟨d, ⟨hn, hd, hstack⟩, ?_⟩
  rw [hdpl]
  exact (setAccessed_same hu).setSeg .ss _

/-- The load of DS, ES, FS or GS writes that register and memory alone. -/
theorem loadSeg_data_same {s t : State} {r : SReg} {sel : Half} (hcs : r ≠ .cs) (hss : r ≠ .ss)
    (h : loadSeg s r sel = .ok t) :
    ∃ v, SameSystem (s.setSeg r v) t ∧ (isNull sel = true ∧ v = { sel := sel, cache := { (s.seg r).cache with valid := false } }
      ∨ ∃ d, DataLoadable s sel d ∧ v = { sel := sel, cache := cacheOf d (descDpl d) }) := by
  obtain ⟨hn, rfl⟩ | ⟨hn, d, u, hd, hc, hu, rfl⟩ := (loadSeg_data_ok hcs hss).1 h
  · exact ⟨_, .refl _, .inl ⟨hn, rfl⟩⟩
  · exact ⟨_, (setAccessed_same hu).setSeg r _, .inr ⟨d, ⟨hn, hd, checkDataDesc_ok.1 hc⟩, rfl⟩⟩

/-! ### Entry through a gate (rule R370) -/

/-- SS after entry at level `lvl`: as it was if that is the current level, else the stack segment of `lvl`
(rules R370, R374). -/
def EntrySS (s : State) (lvl : Level) (ss : SegReg) : Prop :=
  lvl = s.cpl ∧ ss = s.segs.ss ∨ ∃ sel ds, ReturnStackOk s lvl sel ds ∧ ss = { sel := sel, cache := cacheOf ds lvl }

/-- The frame of an entry writes SS, memory and ESP. -/
theorem entryFrame_same {s t : State} {lvl : Level} {v : Byte} {p : Word} {code : Option Half}
    (h : entryFrame s lvl v p code = .ok t) : ∃ ss, EntrySS s lvl ss ∧ SameSystem (s.setSeg .ss ss) t := by
  unfold entryFrame at h
  split at h
  · next hl =>
    obtain ⟨-, u, hu, rfl⟩ := sameLevelFrame_ok.1 h
    exact ⟨s.segs.ss, .inl ⟨hl, rfl⟩, (storeDown_same hu).setEsp _⟩
  · obtain ⟨nSS, nEsp, ds, u, w, x, hn, -, hu, hw, hx, rfl⟩ := innerFrame_ok.1 h
    obtain ⟨-, hstack⟩ := newStack_iff.1 hn
    have hs := (setAccessed_same hu).setSeg .ss { sel := nSS, cache := cacheOf ds lvl }
    exact ⟨_, .inr ⟨nSS, ds, hstack, rfl⟩, (((hs.trans (storeSelSlot_same hw)).trans (storeDown_same hx)).setEsp _)⟩

/-- Everything a delivery does to the system part: the entry flags, and CS and SS of the target's level. -/
theorem deliver_system {s t : State} {k : EventKind} {v : Byte} {e : Option Half} {p : Word}
    (h : deliver s k v e p = .ok t) :
    ∃ g d ss, EntryOk s g d ∧ EntrySS s (descDpl d) ss ∧ SameSystem ((entered s g d).setSeg .ss ss) t := by
  obtain ⟨g, d, u, w, -, hd, hu, hw, rfl⟩ := deliver_ok.1 h
  obtain ⟨ss, hss, hsame⟩ := entryFrame_same hu
  obtain ⟨hdb, hcs⟩ := loadCS_same hw
  obtain ⟨hn, hr, hk, hce, hdpl, hp, hoff⟩ := checkGateTarget_ok.1 hd
  refine ⟨g, d, ss, ⟨hn, hr, hk, hce, hdpl, hp, hoff, hdb⟩, hss, ?_⟩
  rw [State.setFlags_cfg, hsame.cfg, hsame.eflags] at hcs
  have hs := ((hsame.setFlags _).setSeg .cs _).trans hcs
  exact { hs with }

/-! ### Far returns (rules R256, R301) -/

/-- The segment registers after a return to level `lvl` through `sel` (rule R256): CS alone at the same level; at an outer
one SS too, and the registers that held more privileged segments emptied. -/
def ReturnedSegs (s : State) (sel : Half) (d : BitVec 64) (lvl : Level) (g : SegRegs) : Prop :=
  lvl = s.cpl ∧ g = { s.segs with cs := loadedCS s.cfg sel d lvl }
    ∨ ∃ ssSel ds, ReturnStackOk s lvl ssSel ds
      ∧ g = emptyInner lvl
        { s.segs with cs := loadedCS s.cfg sel d lvl, ss := { sel := ssSel, cache := cacheOf ds lvl } }

theorem returnTo_system {s t : State} {eip : Word} {sel : Half} {d : BitVec 64} {lvl : Level} {above extra : Word}
    (h : returnTo s eip sel d lvl above extra = .ok t) :
    descDB d = true ∧ ∃ g, ReturnedSegs s sel d lvl g ∧ SameSystem { s with segs := g } t := by
  unfold returnTo at h
  split at h
  · next hl =>
    obtain ⟨u, hu, rfl⟩ := returnSame_ok.1 h
    obtain ⟨hdb, hcs⟩ := loadCS_same hu
    subst hl
    exact ⟨hdb, _, .inl ⟨rfl, rfl⟩, (hcs.jump eip).setEsp above⟩
  · obtain ⟨-, nEsp, slot, ds, u, w, -, -, hn, hr, hc, hu, hw, rfl⟩ := returnOuter_ok.1 h
    have hstack := checkReturnSS_ok.1 hc
    have ⟨_, _, _, hdpl, _⟩ := hstack
    obtain ⟨hdb, hcs⟩ := loadCS_same hu
    have hs := (((hcs.jump eip).trans (setAccessed_same hw)).setSeg .ss
      { sel := slot.extractLsb' 0 16, cache := cacheOf ds (descDpl ds) }).setEsp (nEsp + extra)
    refine ⟨hdb, _, .inr ⟨_, ds, ⟨hn, hr, hstack⟩, rfl⟩, { hs with segs := ?_ }⟩
    rw [hdpl] at hs ⊢
    exact congrArg (emptyInner lvl) hs.segs

theorem returnTargetOk_of_check {s : State} {sel : Half} {off : Word} {d : BitVec 64} (hn : isNull sel = false)
    (hr : readDesc s sel = .ok d) (hc : checkReturnCS s sel d off = .ok ()) (hdb : descDB d = true) :
    ReturnTargetOk s sel off d (returnLevel s.cfg sel d) := by
  obtain ⟨hk, hce, hlvl, hdpl, hp, hoff⟩ := checkReturnCS_ok.1 hc
  refine ⟨hn, hr, hk, hce, ?_, hlvl, hdpl, hp, hoff, hdb⟩
  unfold returnLevel
  split <;> rfl

/-- EFLAGS after a far return: far RET keeps them, IRET restores some from the frame's image (rules R253, R301). -/
def ReturnedFlags (s : State) (isIret : Bool) (f : Word) : Prop :=
  if isIret then ∃ n, f = restoredFlags s.eflags n s.cpl else f = s.eflags

/-- Everything a far return does to the system part. -/
theorem farReturn_system {s t : State} {isIret : Bool} {extra : Word} (h : farReturn s isIret extra = .ok t) :
    ∃ sel off d lvl g f, ReturnTargetOk s sel off d lvl ∧ ReturnedSegs s sel d lvl g ∧ ReturnedFlags s isIret f
      ∧ SameSystem { s with segs := g, eflags := f } t := by
  cases isIret with
  | false =>
    obtain ⟨-, off, slot, d, -, -, hn, hr, hc, ht⟩ := farReturn_ret_ok.1 h
    obtain ⟨hdb, g, hg, hs⟩ := returnTo_system ht
    exact ⟨_, off, d, _, g, _, returnTargetOk_of_check hn hr hc hdb, hg, rfl, hs⟩
  | true =>
    obtain ⟨-, off, slot, n, d, u, -, -, -, hn, hr, hc, hu, ht⟩ := farReturn_iret_ok.1 h
    obtain ⟨hdb, g, hg, hs⟩ := returnTo_system hu
    obtain ⟨-, rfl⟩ := restoreFlags_ok.1 ht
    refine ⟨_, off, d, _, g, _, returnTargetOk_of_check hn hr hc hdb, hg, ⟨n, rfl⟩, ?_⟩
    rw [hs.eflags]
    exact hs.setFlags _

end Sys2Proof.Machine
end

section
/-! SUPPORT. What every step keeps of the segment registers. -/

namespace Sys2Proof.Machine

open Sys2Proof

/-! ### What makes each register lawful -/

theorem segInv_iff {s : State} :
    SegInv s ↔ launchCS s = true ∧ launchSS s = true ∧ ∀ r, r ≠ .cs → r ≠ .ss → dataSegOk s.cpl (s.seg r) = true := by
  constructor
  · rintro ⟨hcs, hss, hes, hds, hfs, hgs⟩
    refine ⟨hcs, hss, fun r hr hr' => ?_⟩
    cases r with
    | es => exact hes
    | cs => exact absurd rfl hr
    | ss => exact absurd rfl hr'
    | ds => exact hds
    | fs => exact hfs
    | gs => exact hgs
  · rintro ⟨hcs, hss, hdata⟩
    exact ⟨hcs, hss, hdata .es (by decide) (by decide), hdata .ds (by decide) (by decide),
      hdata .fs (by decide) (by decide), hdata .gs (by decide) (by decide)⟩

/-- The invariant reads the segment registers and `rpl_rule` alone. -/
theorem SegInv.congr {s t : State} (h : SegInv s) (hsegs : t.segs = s.segs) (hcfg : t.cfg = s.cfg) : SegInv t := by
  simp only [SegInv, launchCS, launchSS, State.cpl, hsegs, hcfg] at h ⊢
  exact h

theorem SameSystem.segInv {s t : State} (h : SameSystem s t) (hs : SegInv s) : SegInv t := hs.congr h.segs h.cfg

/-- The descriptor `d` of the selector `sel` is that of a present 32-bit non-conforming code segment. -/
def CodeSegment (s : State) (sel : Half) (d : BitVec 64) : Prop :=
  readDesc s sel = .ok d ∧ descKind d = .code ∧ descCE d = false ∧ descP d = true ∧ descDB d = true

theorem EntryOk.codeSegment {s : State} {g d : BitVec 64} (h : EntryOk s g d) : CodeSegment s (gateSel g) d := by
  obtain ⟨-, hr, hk, hce, -, hp, -, hdb⟩ := h
  exact ⟨hr, hk, hce, hp, hdb⟩

theorem ReturnTargetOk.codeSegment {s : State} {sel : Half} {off : Word} {d : BitVec 64} {lvl : Level}
    (h : ReturnTargetOk s sel off d lvl) : CodeSegment s sel d := by
  obtain ⟨-, hr, hk, hce, -, -, -, hp, -, hdb⟩ := h
  exact ⟨hr, hk, hce, hp, hdb⟩

theorem codeSegment_of_farTarget {s : State} {sel : Half} {off : Word} {d : BitVec 64}
    (h : farTarget s sel off = .ok d) (hdb : descDB d = true) : CodeSegment s sel d := by
  obtain ⟨-, hr, hk, hce, -, -, hp, -⟩ := farTarget_ok.1 h
  exact ⟨hr, hk, hce, hp, hdb⟩

theorem tiClear_iff {sel : Half} : tiClear sel = true ↔ sel.getLsbD 2 = false := by
  rw [tiClear, Bool.not_eq_true']

/-- Only a selector with TI = 0 has a descriptor (rule R85). -/
theorem tiClear_of_readDesc {s : State} {sel : Half} {d : BitVec 64} (h : readDesc s sel = .ok d) : tiClear sel = true := by
  obtain ⟨hti, -⟩ := readDesc_ok.1 h
  exact tiClear_iff.2 hti

theorem isNull_zero : isNull 0 = true := by decide

/-- A null selector has TI = 0. -/
theorem tiClear_of_isNull {sel : Half} (h : isNull sel = true) : tiClear sel = true := by
  have h0 : sel.extractLsb' 2 14 = 0 := by simpa [isNull] using h
  have hbit : (sel.extractLsb' 2 14).getLsbD 0 = sel.getLsbD 2 := BitVec.getLsbD_extractLsb' ..
  rw [tiClear_iff, ← hbit, h0]
  rfl

theorem csSelector_rpl {c : Config} {sel : Half} {lvl : Level} (h : hardwareRpl c = true) :
    (csSelector c sel lvl).extractLsb' 0 2 = lvl := by
  rw [csSelector, if_pos h]
  apply BitVec.eq_of_getLsbD_eq
  intro i hi
  rw [BitVec.getLsbD_extractLsb', Nat.zero_add, BitVec.getLsbD_append, if_pos hi, decide_eq_true hi, Bool.true_and]

theorem tiClear_csSelector {c : Config} {sel : Half} {lvl : Level} (h : tiClear sel = true) :
    tiClear (csSelector c sel lvl) = true := by
  unfold csSelector
  split
  · rw [tiClear_iff] at h ⊢
    rw [BitVec.getLsbD_append, if_neg (by decide), BitVec.getLsbD_extractLsb']
    exact h
  · exact h

/-- CS is lawful after `LoadCS` of a code segment, at any level (rules R33, R104). -/
theorem launchCS_loaded {s t : State} {sel : Half} {d : BitVec 64} {lvl : Level} (h : CodeSegment s sel d)
    (hcs : t.segs.cs = loadedCS t.cfg sel d lvl) : launchCS t = true := by
  obtain ⟨hr, hk, hce, hp, hdb⟩ := h
  have hkind : (cacheOf d lvl).kind = .code := cacheOf_kind_code hk
  have hti : tiClear (csSelector t.cfg sel lvl) = true := tiClear_csSelector (tiClear_of_readDesc hr)
  have hrpl : (!hardwareRpl t.cfg || decide ((csSelector t.cfg sel lvl).extractLsb' 0 2 = lvl)) = true := by
    cases hw : hardwareRpl t.cfg
    · rfl
    · simp [csSelector_rpl hw]
  simp only [launchCS, State.cpl, hcs, loadedCS, hkind, hti]
  simp only [cacheOf, hce, hp, hdb]
  simpa using hrpl

/-- SS is lawful after a load of a stack segment of the level that CS holds (rules R34, R100, R256, R374). -/
theorem launchSS_loaded {s t : State} {sel : Half} {ds : BitVec 64} {lvl : Level} (h : ReturnStackOk s lvl sel ds)
    (hss : t.segs.ss = { sel := sel, cache := cacheOf ds lvl }) (hcpl : t.cpl = lvl) : launchSS t = true := by
  obtain ⟨hn, hr, -, hk, hrw, -, hp, hdb⟩ := h
  have hkind : (cacheOf ds lvl).kind = .data := cacheOf_kind_data hk
  simp only [launchSS, hss, hcpl, hkind, hn, tiClear_of_readDesc hr]
  simp [cacheOf, hrw, hp, hdb]

theorem launchCS_congr {s t : State} (hcs : t.segs.cs = s.segs.cs) (hcfg : t.cfg = s.cfg) : launchCS t = launchCS s := by
  unfold launchCS State.cpl
  rw [hcs, hcfg]

theorem launchSS_congr {s t : State} (hss : t.segs.ss = s.segs.ss) (hcpl : t.cpl = s.cpl) : launchSS t = launchSS s := by
  simp only [launchSS, hss, hcpl]

/-- Stated field by field: null and unusable, or usable by level `cpl` (rules R77, R100). -/
theorem dataSegOk_iff {cpl : Level} {r : SegReg} :
    dataSegOk cpl r = true ↔ tiClear r.sel = true ∧ (isNull r.sel = true ∧ r.cache.valid = false
      ∨ r.cache.valid = true ∧ r.cache.p = true ∧ (r.cache.kind = .data ∨ r.cache.rw = true)
        ∧ (r.cache.kind = .code ∧ r.cache.ce = true ∨ cpl ≤ r.cache.priv)) := by
  simp only [dataSegOk, Bool.and_eq_true, Bool.or_eq_true, Bool.not_eq_true', decide_eq_true_eq]
  tauto

/-- What a level may use, a more privileged level may use. -/
theorem dataSegOk_inner {cpl lvl : Level} {r : SegReg} (hl : lvl ≤ cpl) (h : dataSegOk cpl r = true) :
    dataSegOk lvl r = true := by
  rw [dataSegOk_iff] at h ⊢
  obtain ⟨hti, hnull | ⟨hv, hp, hrw, hpriv⟩⟩ := h
  · exact ⟨hti, .inl hnull⟩
  · exact ⟨hti, .inr ⟨hv, hp, hrw, hpriv.imp_right (BitVec.le_trans hl)⟩⟩

theorem dataSegOk_null {cpl : Level} {r : SegReg} (hn : isNull r.sel = true) (hv : r.cache.valid = false) :
    dataSegOk cpl r = true := dataSegOk_iff.2 ⟨tiClear_of_isNull hn, .inl ⟨hn, hv⟩⟩

/-- A return empties what its outer level may not use (rule R256). -/
theorem dataSegOk_emptyIfInner {cpl lvl : Level} {r : SegReg} (h : dataSegOk cpl r = true) :
    dataSegOk lvl (emptyIfInner lvl r) = true := by
  obtain ⟨hti, hnull | ⟨hv, hp, hrw, -⟩⟩ := dataSegOk_iff.1 h
  · obtain ⟨hn, hv⟩ := hnull
    rw [emptyIfInner, if_neg (by simp [hv])]
    exact dataSegOk_null hn hv
  · unfold emptyIfInner
    split
    · exact dataSegOk_null isNull_zero rfl
    · next hkeep =>
      refine dataSegOk_iff.2 ⟨hti, .inr ⟨hv, hp, hrw, ?_⟩⟩
      cases hk : r.cache.kind with
      | data => exact .inr (BitVec.not_lt.1 (by simpa [hv, hk] using hkeep))
      | code =>
        cases hce : r.cache.ce with
        | true => exact .inl ⟨rfl, rfl⟩
        | false => exact .inr (BitVec.not_lt.1 (by simpa [hv, hk, hce] using hkeep))

/-- The load of a data-segment register leaves it lawful at the current level (rule R100). -/
theorem dataSegOk_loaded {s : State} {sel : Half} {d : BitVec 64} (h : DataLoadable s sel d) :
    dataSegOk s.cpl { sel := sel, cache := cacheOf d (descDpl d) } = true := by
  obtain ⟨-, hr, hkind, hlevel, hp⟩ := h
  refine dataSegOk_iff.2 ⟨tiClear_of_readDesc hr, .inr ⟨rfl, hp, ?_, ?_⟩⟩
  · exact hkind.imp cacheOf_kind_data And.right
  · obtain hk | ⟨hk, -⟩ := hkind
    · exact .inr (hlevel (.inl hk)).1
    · cases hce : descCE d with
      | true => exact .inl ⟨cacheOf_kind_code hk, hce⟩
      | false => exact .inr (hlevel (.inr hce)).1

/-! ### What each effect keeps -/

theorem SegInv.loadSeg {s t : State} {r : SReg} {sel : Half} (hs : SegInv s) (h : loadSeg s r sel = .ok t) : SegInv t := by
  obtain ⟨hcs, hss, hdata⟩ := segInv_iff.1 hs
  by_cases hrc : r = .cs
  · subst hrc; cases h
  by_cases hrs : r = .ss
  · subst hrs
    obtain ⟨d, hstack, hsame⟩ := loadSeg_ss_same h
    exact hsame.segInv (segInv_iff.2 ⟨hcs, launchSS_loaded hstack rfl rfl, fun q hq hq' => by
      rw [State.seg_setSeg, if_neg hq']
      exact hdata q hq hq'⟩)
  · obtain ⟨v, hsame, hv⟩ := loadSeg_data_same hrc hrs h
    have hok : dataSegOk s.cpl v = true := by
      obtain ⟨hn, rfl⟩ | ⟨d, hd, rfl⟩ := hv
      · exact dataSegOk_null hn rfl
      · exact dataSegOk_loaded hd
    have hkept : ∀ q, q ≠ r → (s.setSeg r v).seg q = s.seg q := fun q hq => by rw [State.seg_setSeg, if_neg hq]
    have hcs' : (s.setSeg r v).segs.cs = s.segs.cs := hkept .cs (Ne.symm hrc)
    have hss' : (s.setSeg r v).segs.ss = s.segs.ss := hkept .ss (Ne.symm hrs)
    have hcpl : (s.setSeg r v).cpl = s.cpl := by simp only [State.cpl, hcs']
    refine hsame.segInv (segInv_iff.2 ⟨?_, ?_, fun q hq hq' => ?_⟩)
    · rwa [launchCS_congr hcs' rfl]
    · rwa [launchSS_congr hss' hcpl]
    · rw [hcpl]
      by_cases hqr : q = r
      · rwa [hqr, State.seg_setSeg, if_pos rfl]
      · rw [hkept q hqr]; exact hdata q hq hq'

/-- Entry to a level that is not less privileged, with SS as `EntrySS` says, keeps the invariant (rules R33, R34). -/
theorem SegInv.enter {s t : State} {sel : Half} {d : BitVec 64} {lvl : Level} {ss : SegReg} (hs : SegInv s)
    (hd : CodeSegment s sel d) (hlvl : lvl ≤ s.cpl) (hss : EntrySS s lvl ss)
    (hsegs : t.segs = { s.segs with cs := loadedCS s.cfg sel d lvl, ss := ss }) (hcfg : t.cfg = s.cfg) : SegInv t := by
  obtain ⟨-, hss0, hdata⟩ := segInv_iff.1 hs
  have hcpl : t.cpl = lvl := by simp only [State.cpl, hsegs]; rfl
  refine segInv_iff.2 ⟨launchCS_loaded hd (by rw [hsegs, hcfg]), ?_, fun r hr hr' => ?_⟩
  · obtain ⟨hl, rfl⟩ | ⟨nSS, ds, hstack, rfl⟩ := hss
    · rwa [launchSS_congr (by rw [hsegs]) (hcpl.trans hl)]
    · exact launchSS_loaded hstack (by rw [hsegs]) hcpl
  · have hseg : t.seg r = s.seg r := by
      cases r with
      | cs => exact absurd rfl hr
      | ss => exact absurd rfl hr'
      | _ => simp only [State.seg, SegRegs.get, hsegs]
    rw [hcpl, hseg]
    exact dataSegOk_inner hlvl (hdata r hr hr')

theorem SegInv.deliver {s t : State} {k : EventKind} {v : Byte} {e : Option Half} {p : Word} (hs : SegInv s)
    (h : deliver s k v e p = .ok t) : SegInv t := by
  obtain ⟨g, d, ss, hentry, hss, hsame⟩ := deliver_system h
  have hcode := hentry.codeSegment
  obtain ⟨-, -, -, -, hdpl, -⟩ := hentry
  exact hsame.segInv (hs.enter hcode hdpl hss rfl rfl)

theorem SegInv.farTransfer {s t u : State} {sel : Half} {off : Word} {d : BitVec 64} (hs : SegInv s)
    (htarget : farTarget s sel off = .ok d) (hstore : SameSystem s u) (h : loadCS u sel d s.cpl = .ok t) : SegInv t := by
  obtain ⟨hdb, hsame⟩ := loadCS_same h
  rw [hstore.cfg] at hsame
  exact ((hstore.setSeg .cs _).trans hsame).segInv
    (hs.enter (codeSegment_of_farTarget htarget hdb) (BitVec.le_refl _) (.inl ⟨rfl, rfl⟩) rfl rfl)

theorem SegInv.farReturn {s t : State} {isIret : Bool} {extra : Word} (hs : SegInv s)
    (h : farReturn s isIret extra = .ok t) : SegInv t := by
  obtain ⟨sel, off, d, lvl, g, f, htarget, hg, -, hsame⟩ := farReturn_system h
  have hcode := htarget.codeSegment
  refine hsame.segInv ?_
  obtain ⟨rfl, rfl⟩ | ⟨nSS, ds, hstack, rfl⟩ := hg
  · exact hs.enter hcode (BitVec.le_refl _) (.inl ⟨rfl, rfl⟩) rfl rfl
  · obtain ⟨-, -, hdata⟩ := segInv_iff.1 hs
    refine segInv_iff.2 ⟨launchCS_loaded hcode rfl, launchSS_loaded hstack rfl rfl, fun r hr hr' => ?_⟩
    have hkept := dataSegOk_emptyIfInner (lvl := lvl) (hdata r hr hr')
    cases r with
    | cs => exact absurd rfl hr
    | ss => exact absurd rfl hr'
    | _ => exact hkept

theorem Effect.segInv {i : Instr} {s t : State} (h : Effect i s t) (hs : SegInv s) : SegInv t := by
  cases h with
  | same h => exact h.segInv hs
  | add a b h => exact h.segInv (hs.congr rfl rfl)
  | interruptFlag b priv h => exact h.segInv (hs.congr rfl rfl)
  | segLoad r sel u load h => exact h.segInv (hs.loadSeg load)
  | farTransfer sel off d u w target store load h => exact h.segInv (hs.farTransfer target store load)
  | retFar extra hi h => exact hs.farReturn h
  | iret u hi ret h => exact h.segInv (hs.farReturn ret)
  | system priv segs eflags cfg => exact hs.congr segs cfg
  | delivery k v e p h => exact hs.deliver h

/-- Settles O56: each effect of an instruction keeps the invariant, and so does a delivery at a boundary. -/
theorem segmentRegistersKept : Obligations.SegmentRegistersKept :=
  fun _ _ hs h => step_keeps (P := SegInv) SameSystem.segInv (fun hd hs => hs.deliver hd) Effect.segInv hs h

end Sys2Proof.Machine
end

section
/-! SUPPORT. What every step keeps of EFLAGS (rule R27). -/

namespace Sys2Proof.Machine

open Sys2Proof

/-! ### Writes to EFLAGS -/

theorem setFlag_getLsbD {f : Word} {i j : Nat} {b : Bool} (hj : j < 32) :
    (setFlag f i b).getLsbD j = if i = j then b else f.getLsbD j := by
  cases b <;> by_cases h : i = j <;> simp [-BitVec.getLsbD_eq_getElem, setFlag, BitVec.getLsbD_twoPow, h, hj]

theorem restoredFlags_getLsbD {f n : Word} {old : Level} {j : Nat} (hj : j < 32) :
    (restoredFlags f n old).getLsbD j = if (restoreMask f old).getLsbD j then n.getLsbD j else f.getLsbD j := by
  cases h : (restoreMask f old).getLsbD j <;> simp [-BitVec.getLsbD_eq_getElem, restoredFlags, h, hj]

/-- The invariant reads the fixed bits alone. -/
theorem FlagsInv.congr {f g : Word} (h : FlagsInv f)
    (hfixed : ∀ j < 32, (0xFFFE802A#32).getLsbD j = true → g.getLsbD j = f.getLsbD j) : FlagsInv g := by
  have key : g &&& 0xFFFE802A#32 = f &&& 0xFFFE802A#32 := by
    apply BitVec.eq_of_getLsbD_eq
    intro j hj
    rw [BitVec.getLsbD_and, BitVec.getLsbD_and]
    cases hm : (0xFFFE802A#32).getLsbD j with
    | false => rw [Bool.and_false, Bool.and_false]
    | true => rw [hfixed j hj hm]
  exact key.trans h

/-- A write of a bit that is not fixed keeps the invariant. -/
theorem FlagsInv.setFlag {f : Word} {i : Nat} (h : FlagsInv f) (hi : (0xFFFE802A#32).getLsbD i = false) (b : Bool) :
    FlagsInv (setFlag f i b) := by
  refine h.congr fun j hj hm => ?_
  have hne : i ≠ j := by
    rintro rfl
    rw [hi] at hm
    cases hm
  rw [setFlag_getLsbD hj, if_neg hne]

/-- IRET restores none of the fixed bits (rule R301). -/
theorem restoreMask_fixed (f : Word) (old : Level) : restoreMask f old &&& 0xFFFE802A#32 = 0#32 := by
  unfold restoreMask
  dsimp only
  split_ifs <;> decide

theorem FlagsInv.restoredFlags {f : Word} (h : FlagsInv f) (n : Word) (old : Level) :
    FlagsInv (restoredFlags f n old) := by
  refine h.congr fun j hj hm => ?_
  have hmask : (restoreMask f old).getLsbD j = false := by
    have hbit := congrArg (BitVec.getLsbD · j) (restoreMask_fixed f old)
    simpa only [BitVec.getLsbD_and, hm, Bool.and_true, BitVec.getLsbD_zero] using hbit
  rw [restoredFlags_getLsbD hj, hmask, if_neg Bool.false_ne_true]

theorem FlagsInv.addFlags {f : Word} (h : FlagsInv f) (a b : Word) : FlagsInv (addFlags f a b) :=
  (((((h.setFlag (i := bitCF) rfl _).setFlag (i := bitPF) rfl _).setFlag (i := bitAF) rfl _).setFlag (i := bitZF) rfl
    _).setFlag (i := bitSF) rfl _).setFlag (i := bitOF) rfl _

theorem FlagsInv.entryFlags {f : Word} (h : FlagsInv f) (b : Bool) : FlagsInv (entryFlags f b) := by
  have key : ∀ g, FlagsInv g → FlagsInv (Machine.setFlag (Machine.setFlag g bitTF false) bitNT false) :=
    fun g hg => (hg.setFlag (i := bitTF) rfl _).setFlag (i := bitNT) rfl _
  cases b with
  | false => exact key f h
  | true => exact key (Machine.setFlag f bitIF false) (h.setFlag (i := bitIF) rfl _)

/-! ### What each effect keeps -/

theorem FlagsInv.deliver {s t : State} {k : EventKind} {v : Byte} {e : Option Half} {p : Word} (hs : FlagsInv s.eflags)
    (h : deliver s k v e p = .ok t) : FlagsInv t.eflags := by
  obtain ⟨g, d, ss, -, -, hsame⟩ := deliver_system h
  rw [hsame.eflags]
  exact hs.entryFlags _

theorem loadSeg_eflags {s t : State} {r : SReg} {sel : Half} (h : loadSeg s r sel = .ok t) : t.eflags = s.eflags := by
  by_cases hrc : r = .cs
  · subst hrc; cases h
  by_cases hrs : r = .ss
  · subst hrs
    obtain ⟨d, -, hsame⟩ := loadSeg_ss_same h
    exact hsame.eflags
  · obtain ⟨v, hsame, -⟩ := loadSeg_data_same hrc hrs h
    exact hsame.eflags

theorem FlagsInv.farReturn {s t : State} {isIret : Bool} {extra : Word} (hs : FlagsInv s.eflags)
    (h : farReturn s isIret extra = .ok t) : FlagsInv t.eflags := by
  obtain ⟨sel, off, d, lvl, g, f, -, -, hf, hsame⟩ := farReturn_system h
  rw [hsame.eflags]
  cases isIret with
  | false => rwa [show f = s.eflags from hf]
  | true =>
    obtain ⟨n, rfl⟩ := hf
    exact hs.restoredFlags n s.cpl

theorem Effect.flagsInv {i : Instr} {s t : State} (h : Effect i s t) (hs : FlagsInv s.eflags) : FlagsInv t.eflags := by
  cases h with
  | same h => rwa [h.eflags]
  | add a b h => rw [h.eflags]; exact hs.addFlags a b
  | interruptFlag b priv h => rw [h.eflags]; exact hs.setFlag rfl b
  | segLoad r sel u load h => rwa [h.eflags, loadSeg_eflags load]
  | farTransfer sel off d u w target store load h =>
    obtain ⟨-, hload⟩ := loadCS_same load
    rw [h.eflags, hload.eflags, State.setSeg_eflags, store.eflags]
    exact hs
  | retFar extra hi h => exact hs.farReturn h
  | iret u hi ret h => rw [h.eflags]; exact hs.farReturn ret
  | system priv segs eflags cfg => rwa [eflags]
  | delivery k v e p h => exact hs.deliver h

/-- Settles O57: no effect of an instruction, and no delivery at a boundary, writes a fixed bit. -/
theorem reservedFlagsKept : Obligations.ReservedFlagsKept :=
  fun _ _ hs h => step_keeps (P := fun s => FlagsInv s.eflags) (fun hsame hs => by rwa [hsame.eflags])
    (fun hd hs => hs.deliver hd) Effect.flagsInv hs h

end Sys2Proof.Machine
end

section
/-! SUPPORT. The 8-bit registers as bytes of the general registers (rule R22), and the step that runs an instruction. -/

namespace Sys2Proof.Machine

open Sys2Proof

/-! ### Bytes of a doubleword -/

/-- The number of the lowest bit of the low byte of a doubleword, or of its second byte (rule R22). -/
def byteStart (high : Bool) : Nat := if high then 8 else 0

theorem State.reg8_eq (s : State) (r : Reg8) :
    s.reg8 r = (s.reg (Reg8.whole r)).extractLsb' (byteStart (Reg8.high r)) 8 := by
  unfold State.reg8 byteStart
  split <;> rfl

/-- The bits of the upper part of a doubleword. -/
theorem getLsbD_upperPart (w : Word) {start len j : Nat} (hw : start + len = 32) (hj : start ≤ j) :
    (w.extractLsb' start len).getLsbD (j - start) = w.getLsbD j := by
  rw [BitVec.getLsbD_extractLsb', Nat.add_sub_cancel' hj]
  by_cases hlt : j < 32
  · rw [decide_eq_true (by omega), Bool.true_and]
  · rw [BitVec.getLsbD_of_ge _ _ (by omega), Bool.and_false]

/-- Writing a byte replaces the eight bits from its start on and no other. -/
theorem putByte_getLsbD (w : Word) (high : Bool) (v : Byte) (j : Nat) :
    (putByte w high v).getLsbD j =
      if byteStart high ≤ j ∧ j < byteStart high + 8 then v.getLsbD (j - byteStart high) else w.getLsbD j := by
  cases high with
  | false =>
    simp only [putByte, byteStart, Bool.false_eq_true, if_false]
    rw [BitVec.getLsbD_append]
    by_cases hj : j < 8
    · rw [if_pos hj, if_pos ⟨Nat.zero_le j, by omega⟩, Nat.sub_zero]
    · rw [if_neg hj, if_neg (by omega), getLsbD_upperPart w rfl (by omega)]
  | true =>
    simp only [putByte, byteStart, if_true]
    rw [BitVec.getLsbD_append, BitVec.getLsbD_append]
    by_cases hlow : j < 8
    · rw [if_pos hlow, if_neg (by omega), BitVec.getLsbD_extractLsb', Nat.zero_add, decide_eq_true hlow, Bool.true_and]
    by_cases hmid : j < 16
    · rw [if_neg hlow, if_pos (by omega), if_pos ⟨by omega, hmid⟩]
    · rw [if_neg hlow, if_neg (by omega), if_neg (by omega), Nat.sub_sub, getLsbD_upperPart w rfl (by omega)]

theorem byteStart_apart {a b : Bool} (h : a ≠ b) : byteStart a + 8 ≤ byteStart b ∨ byteStart b + 8 ≤ byteStart a := by
  cases a <;> cases b <;> simp_all [byteStart]

theorem extractByte_putByte_same (w : Word) (high : Bool) (v : Byte) :
    (putByte w high v).extractLsb' (byteStart high) 8 = v := by
  apply BitVec.eq_of_getLsbD_eq
  intro i hi
  rw [BitVec.getLsbD_extractLsb', putByte_getLsbD, if_pos (by omega), Nat.add_sub_cancel_left, decide_eq_true hi,
    Bool.true_and]

/-- Bits outside the byte written are as before. -/
theorem extract_putByte_apart (w : Word) (high : Bool) (v : Byte) {start len : Nat}
    (h : start + len ≤ byteStart high ∨ byteStart high + 8 ≤ start) :
    (putByte w high v).extractLsb' start len = w.extractLsb' start len := by
  apply BitVec.eq_of_getLsbD_eq
  intro i hi
  rw [BitVec.getLsbD_extractLsb', BitVec.getLsbD_extractLsb', putByte_getLsbD, if_neg (by omega)]

/-! ### The 8-bit registers (rule R22) -/

theorem Reg8.eq_of_whole_high {r q : Reg8} (hw : Reg8.whole q = Reg8.whole r) (hh : Reg8.high q = Reg8.high r) : q = r := by
  cases r <;> cases q <;> simp [Reg8.whole, Reg8.high] at hw hh ⊢

theorem Reg8.whole_ne {r : Reg8} {x : Reg} (ha : x ≠ .eax) (hc : x ≠ .ecx) (hd : x ≠ .edx) (hb : x ≠ .ebx) :
    x ≠ Reg8.whole r := by
  cases r <;> assumption

theorem State.reg_setReg8 (s : State) (r : Reg8) (v : Byte) (x : Reg) :
    (s.setReg8 r v).reg x = if x = Reg8.whole r then putByte (s.reg x) (Reg8.high r) v else s.reg x := by
  rw [State.setReg8, State.reg_setReg]
  split
  · next h => rw [h]
  · rfl

theorem State.reg8_setReg8 (s : State) (r q : Reg8) (v : Byte) :
    (s.setReg8 r v).reg8 q = if q = r then v else s.reg8 q := by
  rw [State.reg8_eq, State.reg8_eq, State.reg_setReg8]
  by_cases hw : Reg8.whole q = Reg8.whole r
  · rw [if_pos hw]
    by_cases hh : Reg8.high q = Reg8.high r
    · rw [if_pos (Reg8.eq_of_whole_high hw hh), hh, extractByte_putByte_same]
    · rw [if_neg (fun h => hh (by rw [h])), extract_putByte_apart _ _ _ (byteStart_apart hh)]
  · rw [if_neg hw, if_neg (fun h => hw (by rw [h]))]

theorem State.reg_setReg8_upper (s : State) (r : Reg8) (v : Byte) (x : Reg) :
    ((s.setReg8 r v).reg x).extractLsb' 16 16 = (s.reg x).extractLsb' 16 16 := by
  rw [State.reg_setReg8]
  split
  · exact extract_putByte_apart _ _ v (.inr (by cases Reg8.high r <;> decide))
  · rfl

/-- Settles O15: a write replaces one byte of one register, read back through `getByte`. -/
theorem byteRegisterViews : Obligations.ByteRegisterViews := by
  intro s v
  refine ⟨⟨rfl, rfl, rfl, rfl, rfl, rfl, rfl, rfl⟩, fun r => ⟨?_, fun q hq => ?_, fun x => ?_, fun x ha hc hd hb => ?_, rfl⟩⟩
  · rw [State.reg8_setReg8, if_pos rfl]
  · rw [State.reg8_setReg8, if_neg hq]
  · exact State.reg_setReg8_upper s r v x
  · rw [State.reg_setReg8, if_neg (Reg8.whole_ne ha hc hd hb)]

/-! ### One instruction (rules R25, R425) -/

/-- A boundary where no request waits accepts none (rule R351). -/
theorem boundary_idle {s : State} (h : s.oracle = []) : boundary s = (none, { s with shadow := false }) := by
  rw [boundary, h]

/-- A step that passes the boundary runs the instruction fetched behind it. -/
theorem step_eq_exec {s s' : State} {i : Instr} (hstop : s.cfg.stopEip ≠ some s.eip) (htf : flag s.eflags bitTF = false)
    (hvm : flag s.eflags bitVM = false) (hb : boundary s = (none, s')) (hi : fetchInstr s' = .ok i) :
    step s = exec i s' := by
  simp only [step, htf, hvm, Bool.false_eq_true, if_false, if_neg hstop, hb, hi]

/-- Settles O5, by the two lemmas before it. -/
theorem stepRunsTheInstruction : Obligations.StepRunsTheInstruction :=
  ⟨fun _ _ _ hstop htf hvm hb hi => step_eq_exec hstop htf hvm hb hi, fun _ h => boundary_idle h⟩

end Sys2Proof.Machine
end

section
/-! SUPPORT. The canonical form of memory: each operation that answers keeps it, and so does every step. -/

namespace Sys2Proof.Machine

open Sys2Proof

/-! ### Stores

The form is about memory and the record of written addresses alone: a proof of it for one state is one for every state that
differs in other fields only. -/

section Operations

variable {s : State} (hs : MemInv s)

include hs

theorem MemInv.segWrite {r : SReg} {off : Word} {n : Nat} {v : BitVec (8 * n)} : Yields (segWrite s r off n v) MemInv :=
  fun _ h => linWrite_memInv (segWrite_ok.1 h).2 hs

theorem MemInv.setAccessed {sel : Half} {d : BitVec 64} : Yields (setAccessed s sel d) MemInv :=
  fun _ h => setAccessed_memInv h hs

theorem MemInv.push32 {v : Word} : Yields (push32 s v) MemInv := .bind fun u hu => .ok (hs.segWrite u hu)

theorem MemInv.pop32 : Yields (pop32 s) fun p => MemInv p.2 := .bind fun _ _ => .ok hs

theorem MemInv.storeDown {top : Word} {vs : List Word} : Yields (storeDown s top vs) MemInv := by
  induction vs generalizing s top with
  | nil => exact .ok hs
  | cons v vs ih => exact .bind fun u hu => ih (hs.segWrite u hu)

theorem MemInv.storeSelSlot {off : Word} {sel : Half} : Yields (storeSelSlot s off sel) MemInv :=
  fun _ h => (storeSelSlot_spec h hs).2.2

theorem MemInv.writeRM32 {ov : Option SReg} {op : RM Reg} {v : Word} : Yields (writeRM32 s ov op v) MemInv := by
  cases op with
  | reg r => exact .ok hs
  | mem m => exact hs.segWrite

theorem MemInv.writeRM8 {ov : Option SReg} {op : RM Reg8} {v : Byte} : Yields (writeRM8 s ov op v) MemInv := by
  cases op with
  | reg r => exact .ok hs
  | mem m => exact hs.segWrite

theorem MemInv.storeSelector {ov : Option SReg} {op : RM Reg} {sel : Half} : Yields (storeSelector s ov op sel) MemInv := by
  cases op with
  | reg r => exact .ok hs
  | mem m => exact hs.segWrite

/-! ### Loads of segment registers and TR -/

theorem MemInv.loadSeg {r : SReg} {sel : Half} : Yields (loadSeg s r sel) MemInv := by
  intro t h
  by_cases hcs : r = .cs
  · subst hcs; cases h
  by_cases hss : r = .ss
  · subst hss
    obtain ⟨-, d, u, -, -, hu, rfl⟩ := loadSeg_ss_ok.1 h
    exact hs.setAccessed u hu
  · obtain ⟨-, rfl⟩ | ⟨-, d, u, -, -, hu, rfl⟩ := (loadSeg_data_ok hcs hss).1 h
    · exact hs
    · exact hs.setAccessed u hu

theorem MemInv.loadCS {sel : Half} {d : BitVec 64} {lvl : Level} : Yields (loadCS s sel d lvl) MemInv :=
  .bind fun _ _ => .bind fun u hu => .ok (hs.setAccessed u hu)

theorem MemInv.markBusy {sel : Half} : Yields (markBusy s sel) MemInv := by
  unfold Machine.markBusy
  split
  · exact fun _ h => orAccessByte_memInv h hs
  · exact .ok hs

theorem MemInv.loadTask {sel : Half} : Yields (loadTask s sel) MemInv :=
  .bind fun _ _ => .bind fun _ _ => .bind fun _ _ => .bind fun _ _ => .bind fun _ _ => .bind fun u hu =>
    .ok (hs.markBusy u hu)

/-! ### Entry through a gate, and far returns -/

theorem MemInv.sameLevelFrame {p : Word} {code : Option Half} : Yields (sameLevelFrame s p code) MemInv :=
  .bind fun _ _ => .bind fun u hu => .ok (hs.storeDown u hu)

theorem MemInv.innerFrame {lvl : Level} {v : Byte} {p : Word} {code : Option Half} :
    Yields (innerFrame s lvl v p code) MemInv := by
  intro t h
  obtain ⟨nSS, nEsp, ds, u, w, x, -, -, hu, hw, hx, rfl⟩ := innerFrame_ok.1 h
  have hu' : MemInv (u.setSeg .ss { sel := nSS, cache := cacheOf ds lvl }) := hs.setAccessed u hu
  exact (hu'.storeSelSlot w hw).storeDown x hx

theorem MemInv.entryFrame {lvl : Level} {v : Byte} {p : Word} {code : Option Half} :
    Yields (entryFrame s lvl v p code) MemInv := by
  unfold Machine.entryFrame
  split
  · exact hs.sameLevelFrame
  · exact hs.innerFrame

theorem MemInv.deliver {k : EventKind} {v : Byte} {e : Option Half} {p : Word} : Yields (deliver s k v e p) MemInv := by
  intro t h
  obtain ⟨g, d, u, w, -, -, hu, hw, rfl⟩ := deliver_ok.1 h
  have hf : MemInv (u.setFlags (entryFlags u.eflags (decide (gateKind s.cfg g = .interrupt)))) := hs.entryFrame u hu
  exact hf.loadCS w hw

theorem MemInv.returnSame {eip esp : Word} {sel : Half} {d : BitVec 64} : Yields (returnSame s eip sel d esp) MemInv :=
  .bind fun u hu => .ok (hs.loadCS u hu)

theorem MemInv.returnOuter {eip above extra : Word} {sel : Half} {d : BitVec 64} {lvl : Level} :
    Yields (returnOuter s eip sel d lvl above extra) MemInv := by
  intro t h
  obtain ⟨-, _, _, _, u, w, -, -, -, -, -, hu, hw, rfl⟩ := returnOuter_ok.1 h
  have hj : MemInv (u.jump eip) := hs.loadCS u hu
  exact hj.setAccessed w hw

theorem MemInv.returnTo {eip above extra : Word} {sel : Half} {d : BitVec 64} {lvl : Level} :
    Yields (returnTo s eip sel d lvl above extra) MemInv := by
  unfold Machine.returnTo
  split
  · exact hs.returnSame
  · exact hs.returnOuter

theorem MemInv.restoreFlags {n : Word} {old : Level} : Yields (restoreFlags s n old) MemInv :=
  .bind fun _ _ => .ok hs

theorem MemInv.farReturn {isIret : Bool} {extra : Word} : Yields (farReturn s isIret extra) MemInv := by
  intro t h
  cases isIret with
  | false =>
    obtain ⟨-, _, _, _, -, -, -, -, -, ht⟩ := farReturn_ret_ok.1 h
    exact hs.returnTo t ht
  | true =>
    obtain ⟨-, _, _, _, _, u, -, -, -, -, -, -, hu, ht⟩ := farReturn_iret_ok.1 h
    exact (hs.returnTo u hu).restoreFlags t ht

/-! ### What instructions share -/

theorem MemInv.pushSeg {r : SReg} {next : Word} : Yields (pushSeg s r next) MemInv :=
  .bind fun u hu => .ok (hs.storeSelSlot u hu)

theorem MemInv.popSeg {r : SReg} {next : Word} : Yields (popSeg s r next) MemInv :=
  .bind fun _ _ => .bind fun u hu => .ok (hs.loadSeg u hu)

theorem MemInv.nearJump {target : Word} : Yields (nearJump s target) MemInv := .bind fun _ _ => .ok hs

theorem MemInv.nearCall {target ret : Word} : Yields (nearCall s target ret) MemInv :=
  .bind fun _ _ => .bind fun u hu => .ok (hs.push32 u hu)

theorem MemInv.nearRet {extra : Word} : Yields (nearRet s extra) MemInv := .bind fun _ _ => .bind fun _ _ => .ok hs

theorem MemInv.farJump {off : Word} {sel : Half} : Yields (farJump s off sel) MemInv :=
  .bind fun _ _ => .bind fun u hu => .ok (hs.loadCS u hu)

theorem MemInv.farCall {off ret : Word} {sel : Half} : Yields (farCall s off sel ret) MemInv :=
  .bind fun _ _ => .bind fun _ _ => .bind fun u hu => .bind fun w hw => .bind fun x hx =>
    have hw' : MemInv (w.setEsp (s.esp - 8)) := (hs.storeSelSlot u hu).segWrite w hw
    .ok (hw'.loadCS x hx)

theorem MemInv.addToRM {ov : Option SReg} {op : RM Reg} {b next : Word} : Yields (addToRM s ov op b next) MemInv :=
  .bind fun _ _ => .bind fun u hu => .ok (hs.writeRM32 u hu)

/-- An instruction that raised has delivered an exception; one that did not is judged by its own work. -/
theorem MemInv.settle {r : Res State} {t : State} (h : settle s r = .next t) (own : Yields r MemInv) : MemInv t := by
  obtain hr | ⟨x, -, hx⟩ := settle_eq_next h
  · exact own t hr
  · exact hs.deliver t (deliverOrStop_eq_next hx)

/-- The one case split over the instructions. -/
theorem MemInv.exec {i : Instr} {t : State} (h : exec i s = .next t) : MemInv t := by
  cases i with
  | pushR32 ov r => exact hs.settle h <| .bind fun u hu => .ok (hs.push32 u hu)
  | pushRm32 ov op => exact hs.settle h <| .bind fun _ _ => .bind fun u hu => .ok (hs.push32 u hu)
  | pushImm32 ov imm => exact hs.settle h <| .bind fun u hu => .ok (hs.push32 u hu)
  | pushImm8 ov imm => exact hs.settle h <| .bind fun u hu => .ok (hs.push32 u hu)
  | pushEs ov => exact hs.settle h hs.pushSeg
  | pushCs ov => exact hs.settle h hs.pushSeg
  | pushSs ov => exact hs.settle h hs.pushSeg
  | pushDs ov => exact hs.settle h hs.pushSeg
  | pushFs ov => exact hs.settle h hs.pushSeg
  | pushGs ov => exact hs.settle h hs.pushSeg
  | popR32 ov r => exact hs.settle h <| .bind fun p hp => .ok (hs.pop32 p hp)
  | popRm32 ov op => exact hs.settle h <| .bind fun p hp => .bind fun u hu => .ok ((hs.pop32 p hp).writeRM32 u hu)
  | popEs ov => exact hs.settle h hs.popSeg
  | popSs ov => exact hs.settle h <| .bind fun u hu => .ok (hs.popSeg u hu)
  | popDs ov => exact hs.settle h hs.popSeg
  | popFs ov => exact hs.settle h hs.popSeg
  | popGs ov => exact hs.settle h hs.popSeg
  | pusha ov => exact hs.settle h <| .bind fun _ _ => .bind fun u hu => .ok (hs.storeDown u hu)
  | popa ov =>
    exact hs.settle h <| .bind fun _ _ => .bind fun _ _ => .bind fun _ _ => .bind fun _ _ => .bind fun _ _ =>
      .bind fun _ _ => .bind fun _ _ => .bind fun _ _ => .ok hs
  | jmpRel8 ov rel => exact hs.settle h hs.nearJump
  | jmpRel32 ov rel => exact hs.settle h hs.nearJump
  | jmpRm32 ov op => exact hs.settle h <| .bind fun _ _ => hs.nearJump
  | jmpM1632 ov m => exact hs.settle h <| .bind fun _ _ => hs.farJump
  | jmpPtr1632 ov off sel => exact hs.settle h hs.farJump
  | callRel32 ov rel => exact hs.settle h hs.nearCall
  | callRm32 ov op => exact hs.settle h <| .bind fun _ _ => hs.nearCall
  | callM1632 ov m => exact hs.settle h <| .bind fun _ _ => hs.farCall
  | callPtr1632 ov off sel => exact hs.settle h hs.farCall
  | ret ov => exact hs.settle h hs.nearRet
  | retImm16 ov imm => exact hs.settle h hs.nearRet
  | retFar ov => exact hs.settle h hs.farReturn
  | retFarImm16 ov imm => exact hs.settle h hs.farReturn
  | movSregRm16 ov sr op =>
    exact hs.settle h <| .bind fun _ _ => .bind fun u hu => .ok (by split <;> exact hs.loadSeg u hu)
  | movRm16Sreg ov op sr => exact hs.settle h <| .bind fun u hu => .ok (hs.storeSelector u hu)
  | lgdt ov m => exact hs.settle h <| .bind fun _ _ => .bind fun _ _ => .ok hs
  | lidt ov m => exact hs.settle h <| .bind fun _ _ => .bind fun _ _ => .ok hs
  | ltr ov op => exact hs.settle h <| .bind fun _ _ => .bind fun _ _ => .bind fun u hu => .ok (hs.loadTask u hu)
  | cli ov => exact hs.settle h <| .bind fun _ _ => .ok hs
  | sti ov => exact hs.settle h <| .bind fun _ _ => .ok hs
  | intN ov n => exact hs.settle h hs.deliver
  | int3 ov => exact hs.settle h hs.deliver
  | into ov =>
    refine hs.settle h ?_
    split
    · exact hs.deliver
    · exact .ok hs
  | bound ov r m => exact hs.settle h <| .bind fun _ _ => .bind fun _ _ => .bind fun _ _ => .ok hs
  | iret ov => exact hs.settle h <| .bind fun _ _ => .bind fun u hu => .ok (hs.farReturn u hu)
  | movRm8R8 ov op r => exact hs.settle h <| .bind fun u hu => .ok (hs.writeRM8 u hu)
  | movRm32R32 ov op r => exact hs.settle h <| .bind fun u hu => .ok (hs.writeRM32 u hu)
  | movR8Rm8 ov r op => exact hs.settle h <| .bind fun _ _ => .ok hs
  | movR32Rm32 ov r op => exact hs.settle h <| .bind fun _ _ => .ok hs
  | movR8Imm8 ov r imm => cases h; exact hs
  | movR32Imm32 ov r imm => cases h; exact hs
  | movRm8Imm8 ov op imm => exact hs.settle h <| .bind fun u hu => .ok (hs.writeRM8 u hu)
  | movRm32Imm32 ov op imm => exact hs.settle h <| .bind fun u hu => .ok (hs.writeRM32 u hu)
  | lea ov r m => cases h; exact hs
  | addRm32R32 ov op r => exact hs.settle h hs.addToRM
  | addR32Rm32 ov r op => exact hs.settle h <| .bind fun _ _ => .ok hs
  | addRm32Imm32 ov op imm => exact hs.settle h hs.addToRM
  | addRm32Imm8 ov op imm => exact hs.settle h hs.addToRM
  | nop ov => cases h; exact hs

end Operations

/-- Settles O55: a boundary leaves memory alone, and what follows it is a delivery or one instruction. -/
theorem memoryFormKept : Obligations.MemoryFormKept := by
  intro s t hs h
  obtain rfl | ⟨o, b, hstep⟩ := step_eq_next h
  · exact hs
  have hu : MemInv { s with shadow := false, oracle := o, nmiBlocked := b } := hs
  obtain ⟨k, v, e, p, hd⟩ | ⟨i, -, hi⟩ := hstep
  · exact hu.deliver t hd
  · exact hu.exec hi

end Sys2Proof.Machine
end

section
/-! SUPPORT. Linear memory: where a linear address leads, and the parts of what has been read. -/

namespace Sys2Proof.Machine

open Sys2Proof

/-! ### Where a linear address leads (rules R68 to R70) -/

theorem populatedAt_iff {c : Config} {a : Nat} :
    populatedAt c a = true ↔ ∃ r ∈ c.populated, r.1 ≤ a ∧ a ≤ r.2 := by
  simp [populatedAt, List.any_eq_true]

theorem translate_off {c : Config} (h : c.paging = .off) (lin : Word) : translate c lin = some lin := by
  simp only [translate, h]

/-- With paging on the upper 20 bits go through the map and the low 12 stay. -/
theorem translate_on {c : Config} {map : List (BitVec 20 × BitVec 20)} (h : c.paging = .on map) (page : BitVec 20)
    (low : BitVec 12) : translate c (page ++ low) = (lookupPage map page).map (· ++ low) := by
  have hpage : (page ++ low : Word).extractLsb' 12 20 = page := by
    rw [BitVec.extractLsb'_append_eq_of_le (by omega)]; simp
  have hlow : (page ++ low : Word).extractLsb' 0 12 = low := by
    rw [BitVec.extractLsb'_append_eq_of_add_le (by omega)]; simp
  simp only [translate, h, hpage, hlow]

/-- A translated address is the physical one if there is memory behind it, and is refused otherwise. -/
theorem physAddr_of_translate {c : Config} {lin p : Word} (h : translate c lin = some p) :
    physAddr c lin = if populatedAt c p.toNat then .ok p.toNat else .error (.refuse .unpopulated) := by
  simp only [physAddr, h]

/-- Settles O8: `linWrite` answers where memory is and its law says what it does; a physical address by cases of paging. -/
theorem linearWriteReadsBack : Obligations.LinearWriteReadsBack := by
  refine ⟨fun s lin n v hs hn hb => ?_, fun c page low => ?_⟩
  · obtain ⟨t, ht⟩ := (linWrite_ok_iff (v := v)).2 hb
    obtain ⟨hst, ho, -⟩ := linWrite_spec ht hs hn
    exact ⟨t, ht, hst, ho⟩
  · simp only [← populatedAt_iff]
    refine ⟨fun hoff => physAddr_of_translate (translate_off hoff _),
      fun map hon => ⟨fun frame hf => ?_, fun hf => ?_⟩⟩
    · exact physAddr_of_translate (by rw [translate_on hon, hf]; rfl)
    · simp only [physAddr, translate_on hon, hf, Option.map_none]

/-! ### Parts of what has been read (rules R62, R64) -/

theorem extractLsb'_extractLsb' {w i n j m : Nat} (v : BitVec w) (h : j + m ≤ n) :
    (v.extractLsb' i n).extractLsb' j m = v.extractLsb' (i + j) m := by
  apply BitVec.eq_of_getLsbD_eq
  intro b hb
  rw [BitVec.getLsbD_extractLsb', BitVec.getLsbD_extractLsb', BitVec.getLsbD_extractLsb', Nat.add_assoc,
    decide_eq_true (show j + b < n by omega), Bool.true_and]

/-- The bytes from the `k`th on of what a read answers are what a read from there answers. -/
theorem linRead_part {s : State} {lin : Word} {n : Nat} {v : BitVec (8 * n)} (h : linRead s lin n = .ok v) {k m : Nat}
    (hk : k + m ≤ n) : linRead s (lin + BitVec.ofNat 32 k) m = .ok (v.extractLsb' (8 * k) (8 * m)) := by
  refine linRead_bytes.2 fun j hj => ?_
  obtain ⟨a, ha, hb⟩ := linRead_bytes.1 h (k + j) (by omega)
  refine ⟨a, by rwa [add_ofNat_add], ?_⟩
  rw [hb, extractLsb'_extractLsb' v (by omega), Nat.mul_add]

/-- Settles O9: each part is `linRead_part` at its place. -/
theorem mixedWidthReads : Obligations.MixedWidthReads := by
  intro s a v h
  have part {k m : Nat} (hk : k + m ≤ 4) := linRead_part (n := 4) h hk
  have first : a + BitVec.ofNat 32 0 = a := BitVec.add_zero a
  exact ⟨first ▸ part (k := 0) (m := 2) (by omega), part (k := 2) (m := 2) (by omega),
    first ▸ part (k := 0) (m := 1) (by omega), part (k := 1) (m := 1) (by omega), part (k := 2) (m := 1) (by omega),
    part (k := 3) (m := 1) (by omega)⟩

/-- Settles O14: the byte that is rewritten lies in the descriptor that has been read. -/
theorem accessedBitOutcome : Obligations.AccessedBitOutcome := by
  intro s sel d hs hd
  obtain ⟨t, ht⟩ := setAccessed_completes hd rfl rfl
  obtain ⟨hacc, -, -⟩ := setAccessed_spec ht hs
  exact ⟨t, ht, hacc⟩

end Sys2Proof.Machine
end

section
/-! SUPPORT. The limit and rights check, outcome by outcome (rules R82, R90, R91). -/

namespace Sys2Proof.Machine

open Sys2Proof

theorem effLimit_bytes (limit : BitVec 20) : (effLimit limit false).toNat = limit.toNat := by
  simp only [effLimit, Bool.false_eq_true, if_false, BitVec.toNat_setWidth]
  omega

theorem effLimit_pages (limit : BitVec 20) : (effLimit limit true).toNat = limit.toNat * 4096 + 4095 := by
  have hshift : (limit.setWidth 32 <<< 12 : Word).toNat = limit.toNat <<< 12 := by
    rw [BitVec.toNat_shiftLeft, BitVec.toNat_setWidth, Nat.shiftLeft_eq, Nat.shiftLeft_eq]
    omega
  rw [effLimit, if_pos rfl, BitVec.toNat_or, hshift, show (0x00000FFF : Word).toNat = 4095 from rfl,
    ← Nat.shiftLeft_add_eq_or_of_lt (by decide), Nat.shiftLeft_eq]

/-- Settles O10. -/
theorem effectiveLimit : Obligations.EffectiveLimit := fun limit => ⟨effLimit_bytes limit, effLimit_pages limit⟩

/-! ### SegCheck (rule R90) -/

/-- A condition of the pseudocode in front of a chain. -/
theorem raiseIf_bind {α : Type} (c : Bool) (x : Exc) (f : Unit → Res α) :
    (raiseIf c x >>= f) = if c then .error (.raise x) else f () := by cases c <;> rfl

theorem refuseIf_bind {α : Type} (c : Bool) (r : Refusal) (f : Unit → Res α) :
    (refuseIf c r >>= f) = if c then .error (.refuse r) else f () := by cases c <;> rfl

/-- A violation raises exception 12 through SS and 13 otherwise (rule R91). -/
theorem accessFault_eq (r : SReg) : accessFault r = if r = .ss then .ss 0 else .gp 0 := by cases r <;> rfl

/-- The accesses that the rights forbid. -/
theorem rightsOk_eq_false {c : Cache} {k : Access} : rightsOk c k = false ↔
    k = .write ∧ (c.kind = .code ∨ c.rw = false) ∨ k = .read ∧ c.kind = .code ∧ c.rw = false := by
  cases k <;> cases hk : c.kind <;> simp [rightsOk, hk]

/-- The ranges that lie outside the segment. -/
theorem limitOk_eq_false {c : Cache} {off : Word} {n : Nat} : limitOk c off n = false ↔
    0xFFFFFFFF < off.toNat + n - 1 ∨
      if c.kind = .code ∨ c.ce = false then (effLimit c.limit c.g).toNat < off.toNat + n - 1
      else off.toNat ≤ (effLimit c.limit c.g).toNat ∨ (if c.db then 0xFFFFFFFF else 0xFFFF) < off.toNat + n - 1 := by
  unfold limitOk
  by_cases hc : c.kind = .code ∨ c.ce = false
  · have hb : (decide (c.kind = .code) || !c.ce) = true := by simpa using hc
    simp only [hb, hc, if_true, Bool.and_eq_false_iff, decide_eq_false_iff_not, not_le]
  · have hb : (decide (c.kind = .code) || !c.ce) = false := by simpa using hc
    simp only [hb, hc, if_false, Bool.false_eq_true, Bool.and_eq_false_iff, decide_eq_false_iff_not, not_le, not_lt]

/-- The check as a chain of conditions, in the order of the rule. -/
theorem segCheck_eq (s : State) (r : SReg) (off : Word) (n : Nat) (k : Access) :
    segCheck s r off n k =
      if (s.seg r).cache.valid = false then .error (.raise (.gp 0))
      else if rightsOk (s.seg r).cache k = false then .error (.raise (accessFault r))
      else if k = .fetch ∧ r ≠ .cs then .error (.refuse .fetchNotThroughCs)
      else if limitOk (s.seg r).cache off n = false then .error (.raise (accessFault r))
      else .ok () := by
  simp only [segCheck, raiseIf_bind, refuseIf_bind]
  simp only [raiseIf, Bool.not_eq_true', Bool.and_eq_true, decide_eq_true_eq]

/-- A choice between two conditions, as a chain. -/
theorem ite_ite_cond {α : Type} {p q r : Prop} [Decidable p] [Decidable q] [Decidable r] [Decidable (if p then q else r)]
    (a b : α) :
    (if if p then q else r then a else b) = if p then (if q then a else b) else if r then a else b := by
  by_cases hp : p <;> simp only [hp, if_true, if_false]

/-- Settles O11: `segCheck_eq` with the rights and the limit spelled out, one condition at a time. -/
theorem segmentCheckOutcome : Obligations.SegmentCheckOutcome := by
  intro s r off n k _
  simp only [segCheck_eq, accessFault_eq, rightsOk_eq_false, limitOk_eq_false, ite_ite_cond,
    ite_or (P := k = .write ∧ _), ite_or (P := 0xFFFFFFFF < _)]

end Sys2Proof.Machine
end

section
/-! SUPPORT. The fields of selectors, descriptors and gates, as their layouts give them (rules R75, R80, R81, R365). -/

namespace Sys2Proof.Machine

open Sys2Proof

/-! ### Fields of a concatenation -/

theorem getLsbD_append_low {n m i : Nat} (x : BitVec n) (y : BitVec m) (h : i < m) :
    (x ++ y).getLsbD i = y.getLsbD i := by rw [BitVec.getLsbD_append, if_pos h]

theorem getLsbD_append_high {n m i : Nat} (x : BitVec n) (y : BitVec m) (h : m ≤ i) :
    (x ++ y).getLsbD i = x.getLsbD (i - m) := by rw [BitVec.getLsbD_append, if_neg (by omega)]

theorem getLsbD_ofBool_zero (b : Bool) : (BitVec.ofBool b).getLsbD 0 = b := by cases b <;> rfl

/-! ### Selectors (rules R75, R76) -/

/-- A selector laid out as index, TI and RPL. -/
def packSelector (index : BitVec 13) (ti : Bool) (rpl : BitVec 2) : Half := index ++ BitVec.ofBool ti ++ rpl

theorem packSelector_ti (index : BitVec 13) (ti : Bool) (rpl : BitVec 2) : (packSelector index ti rpl).getLsbD 2 = ti := by
  rw [packSelector, getLsbD_append_high _ _ (by omega), getLsbD_append_low _ _ (by omega), getLsbD_ofBool_zero]

/-- The part of a selector that counts bytes of the table. -/
theorem packSelector_offset (index : BitVec 13) (ti : Bool) (rpl : BitVec 2) :
    packSelector index ti rpl &&& 0xFFF8 = index ++ (0 : BitVec 3) := by
  have hmask : (0xFFF8 : Half) = BitVec.allOnes 13 ++ 0#1 ++ 0#2 := by decide
  rw [packSelector, hmask, BitVec.and_append, BitVec.and_append, BitVec.and_allOnes, BitVec.and_zero, BitVec.and_zero,
    BitVec.append_assoc]
  rfl

/-- The error code of a selector is the selector with RPL 0 (rule R361). -/
theorem selCode_packSelector (index : BitVec 13) (rpl : BitVec 2) :
    selCode (packSelector index false rpl) = index ++ (0 : BitVec 3) := by
  have hmask : (0xFFFC : Half) = BitVec.allOnes 13 ++ BitVec.allOnes 1 ++ 0#2 := by decide
  rw [selCode, packSelector, hmask, BitVec.and_append, BitVec.and_append, BitVec.and_allOnes, BitVec.and_allOnes,
    BitVec.and_zero, BitVec.append_assoc]
  rfl

theorem toNat_index_append (index : BitVec 13) : (index ++ (0 : BitVec 3) : Half).toNat = 8 * index.toNat := by
  rw [BitVec.toNat_append, show (0 : BitVec 3).toNat = 0 from rfl, Nat.or_zero, Nat.shiftLeft_eq, Nat.mul_comm]

theorem descAddr_packSelector (s : State) (index : BitVec 13) (ti : Bool) (rpl : BitVec 2) :
    descAddr s (packSelector index ti rpl) = s.gdtr.base + BitVec.ofNat 32 (8 * index.toNat) := by
  rw [descAddr, packSelector_offset, ← BitVec.ofNat_toNat, toNat_index_append]

/-- Settles O13: the two conditions of `ReadDesc`, read off the selector's fields. -/
theorem readDescriptorOutcome : Obligations.ReadDescriptorOutcome := by
  intro s index ti rpl
  show readDesc s (packSelector index ti rpl) = _
  simp only [readDesc, refuseIf_bind, raiseIf_bind, packSelector_ti, packSelector_offset, toNat_index_append,
    descAddr_packSelector, decide_eq_true_eq]
  cases ti
  · rw [selCode_packSelector]
  · rfl

/-! ### Segment descriptors (rules R80, R81, R86) -/

/-- A descriptor of a code or data segment, laid out as Fig. 8.2 and Fig. 8.3 give it. -/
def packSegment (baseHi : BitVec 8) (baseLo : BitVec 24) (limHi : BitVec 4) (limLo : BitVec 16) (dpl : BitVec 2)
    (g db avl p code ce rw a : Bool) : BitVec 64 :=
  baseHi ++ BitVec.ofBool g ++ BitVec.ofBool db ++ (0 : BitVec 1) ++ BitVec.ofBool avl ++ limHi ++ BitVec.ofBool p ++ dpl
    ++ (1 : BitVec 1) ++ BitVec.ofBool code ++ BitVec.ofBool ce ++ BitVec.ofBool rw ++ BitVec.ofBool a ++ baseLo ++ limLo

/-- A gate, laid out as rule R365 gives it. -/
def packGate (offHi offLo : BitVec 16) (sel : Half) (low : BitVec 8) (type : BitVec 5) (dpl : BitVec 2) (p : Bool) :
    BitVec 64 := offHi ++ BitVec.ofBool p ++ dpl ++ type ++ low ++ sel ++ offLo

/-- The bits of the type field, number 40 up, of any descriptor. -/
theorem getLsbD_type {d : BitVec 64} {i : Nat} (h : i < 4) : (d.extractLsb' 40 4).getLsbD i = d.getLsbD (40 + i) := by
  rw [BitVec.getLsbD_extractLsb', decide_eq_true h, Bool.true_and]

/-- Of the system descriptors, types 9 and 11 are a 32-bit TSS (rules R86, R392). -/
theorem descKind_system {d : BitVec 64} (h : d.getLsbD 44 = false) :
    descKind d = if d.extractLsb' 40 4 = 9 ∨ d.extractLsb' 40 4 = 11 then .tss else .other := by
  have types : ∀ t : BitVec 4, (t.getLsbD 3 && !t.getLsbD 2 && t.getLsbD 0) = decide (t = 9 ∨ t = 11) := by decide
  have hbits := types (d.extractLsb' 40 4)
  rw [getLsbD_type (by omega), getLsbD_type (by omega), getLsbD_type (by omega)] at hbits
  simp only [descKind, h, Bool.false_eq_true, if_false, hbits, decide_eq_true_eq]

section Fields

variable (baseHi : BitVec 8) (baseLo : BitVec 24) (limHi : BitVec 4) (limLo : BitVec 16) (dpl : BitVec 2)
  (g db avl p code ce rw a : Bool)

/-- A field that lies in one part of the layout is that part; the base and the limit are put together again. -/
theorem packSegment_fields :
    let d := packSegment baseHi baseLo limHi limLo dpl g db avl p code ce rw a
    descBase d = baseHi ++ baseLo ∧ descLimit d = limHi ++ limLo ∧ descG d = g ∧ descDB d = db ∧ descP d = p
      ∧ descDpl d = dpl ∧ descCE d = ce ∧ descRW d = rw ∧ descA d = a ∧ d.getLsbD 43 = code ∧ d.getLsbD 44 = true := by
  have hbase : baseHi ++ baseLo.extractLsb' 16 8 ++ baseLo.extractLsb' 0 16 = baseHi ++ baseLo := by
    rw [BitVec.append_assoc, BitVec.extractLsb'_append_extractLsb'_eq_extractLsb' (by rfl), BitVec.extractLsb'_eq_self]
    rfl
  simp only [descBase, descLimit, descG, descDB, descP, descDpl, descCE, descRW, descA, packSegment]
  simp (disch := decide) only [BitVec.extractLsb'_append_eq_of_le, BitVec.extractLsb'_append_eq_of_add_le,
    getLsbD_append_low, getLsbD_append_high]
  simp only [Nat.reduceSub, BitVec.extractLsb'_eq_self, getLsbD_ofBool_zero, hbase, true_and]
  rfl

theorem descKind_packSegment : descKind (packSegment baseHi baseLo limHi limLo dpl g db avl p code ce rw a) =
    if code then .code else .data := by
  obtain ⟨-, -, -, -, -, -, -, -, -, hcode, hseg⟩ :=
    packSegment_fields baseHi baseLo limHi limLo dpl g db avl p code ce rw a
  rw [descKind, if_pos hseg, hcode]

theorem cacheOf_packSegment (lvl : Level) : cacheOf (packSegment baseHi baseLo limHi limLo dpl g db avl p code ce rw a) lvl =
    { base := baseHi ++ baseLo, limit := limHi ++ limLo, g := g, db := db, p := p, priv := lvl, ce := ce, rw := rw
      a := true, kind := if code then .code else .data, valid := true } := by
  obtain ⟨hbase, hlimit, hg, hdb, hp, -, hce, hrw, -, hcode, -⟩ :=
    packSegment_fields baseHi baseLo limHi limLo dpl g db avl p code ce rw a
  rw [cacheOf, hbase, hlimit, hg, hdb, hp, hce, hrw, hcode]

end Fields

/-! ### Gates (rules R365, R367) -/

section Gate

variable (offHi offLo : BitVec 16) (sel : Half) (low : BitVec 8) (type : BitVec 5) (dpl : BitVec 2) (p : Bool)

theorem packGate_fields : let g := packGate offHi offLo sel low type dpl p
    gateSel g = sel ∧ gateOff g = offHi ++ offLo ∧ descDpl g = dpl ∧ descP g = p ∧ g.extractLsb' 40 5 = type := by
  simp only [gateSel, gateOff, descDpl, descP, packGate]
  simp (disch := decide) only [BitVec.extractLsb'_append_eq_of_le, BitVec.extractLsb'_append_eq_of_add_le,
    getLsbD_append_low, getLsbD_append_high]
  simp only [Nat.reduceSub, BitVec.extractLsb'_eq_self, getLsbD_ofBool_zero, and_self]

theorem gateKind_packGate (c : Config) : gateKind c (packGate offHi offLo sel low type dpl p) =
    if type = 0b01111 then .trap
    else if c.intGateType = .hardware then
      if type = 0b01110 then .interrupt else if type = 0b00101 then .task else .none
    else if type = 0b00101 then .interrupt else .none := by
  obtain ⟨-, -, -, -, htype⟩ := packGate_fields offHi offLo sel low type dpl p
  rw [gateKind, htype]
  cases hc : c.intGateType <;> rfl

end Gate

/-- Settles O12: the fields of the two layouts, and the types of system descriptors. -/
theorem descriptorFields : Obligations.DescriptorFields := by
  refine ⟨fun baseHi baseLo limHi limLo dpl g db avl p code ce rw a lvl => ?_, fun d h => descKind_system h,
    fun c offHi offLo sel low type dpl p => ?_⟩
  · obtain ⟨hbase, hlimit, hg, hdb, hp, hdpl, hce, hrw, ha, -, -⟩ :=
      packSegment_fields baseHi baseLo limHi limLo dpl g db avl p code ce rw a
    exact ⟨descKind_packSegment .., hbase, hlimit, hg, hdb, hp, hdpl, hce, hrw, ha, cacheOf_packSegment ..⟩
  · obtain ⟨hsel, hoff, hdpl, hp, -⟩ := packGate_fields offHi offLo sel low type dpl p
    exact ⟨hsel, hoff, hdpl, hp, gateKind_packGate ..⟩

end Sys2Proof.Machine
end

section
/-! SUPPORT. Where an instruction raises: each is a chain of operations, and the first of them to raise decides (rule R360). -/

namespace Sys2Proof.Machine

open Sys2Proof

/-! ### Following a chain to what it raises -/

section Chains

variable {α β γ : Type} {e : Abort}

theorem bind_first_error {r : Res α} {f : α → Res β} (h : r = .error e) : (r >>= f) = .error e := by rw [h]; rfl

theorem bind_next_error {r : Res α} {f : α → Res β} {a : α} (h : r = .ok a) (hf : f a = .error e) :
    (r >>= f) = .error e := by rw [h]; exact hf

/-- Two chains with the same first part: the second raises what the first one raises, if its rest does. -/
theorem bind_error_of {r : Res α} {g : α → Res β} {f : α → Res γ} (h : (r >>= g) = .error e)
    (hf : ∀ a, g a = .error e → f a = .error e) : (r >>= f) = .error e := by
  cases r with
  | error e' => cases h; rfl
  | ok a => exact hf a h

theorem settle_raises {s : State} {r : Res State} {x : Exc} (h : r = .error (.raise x)) :
    settle s r = takeException s x := by rw [h]; rfl

end Chains

/-! ### Accesses -/

section Accesses

variable {s : State} {x : Exc}

theorem segRead_raises {r : SReg} {off : Word} {n : Nat} (h : segCheck s r off n .read = .error (.raise x)) :
    segRead s r off n = .error (.raise x) := bind_first_error h

theorem segWrite_raises {r : SReg} {off : Word} {n : Nat} {v : BitVec (8 * n)}
    (h : segCheck s r off n .write = .error (.raise x)) : segWrite s r off n v = .error (.raise x) := bind_first_error h

theorem push32_raises {v : Word} (h : segCheck s .ss (s.esp - 4) 4 .write = .error (.raise x)) :
    push32 s v = .error (.raise x) := bind_first_error (segWrite_raises h)

theorem pop32_raises (h : segCheck s .ss s.esp 4 .read = .error (.raise x)) : pop32 s = .error (.raise x) :=
  bind_first_error (segRead_raises h)

/-- A selector slot is checked for two bytes, then as a whole. -/
theorem storeSelSlot_raises {off : Word} {sel : Half} (h : segCheck s .ss off 2 .write = .error (.raise x)
    ∨ Writable s .ss off 2 ∧ segCheck s .ss off 4 .write = .error (.raise x)) :
    storeSelSlot s off sel = .error (.raise x) := by
  obtain h | ⟨hw, h⟩ := h
  · exact bind_first_error (segWrite_raises h)
  · obtain ⟨u, hu⟩ := segWrite_of_writable (n := 2) sel hw
    refine bind_next_error hu (bind_first_error ?_)
    rwa [(segWrite_onlyMem hu).segCheck]

/-- Part of what may be read as a whole can be read. -/
theorem segRead_part {r : SReg} {off : Word} {n k : Nat} {v : Word} (h : segCheck s r off n .read = .ok ())
    (hk : k + 4 ≤ n) (hv : linRead s (s.linear r off + BitVec.ofNat 32 k) 4 = .ok v) :
    segRead s r (off + BitVec.ofNat 32 k) 4 = .ok v :=
  segRead_ok.2 ⟨segCheck_sub h (by omega) hk, by rwa [linear_add]⟩

/-- The range of PUSHA that does not wrap is checked as a whole (rule R228). -/
theorem checkPushaRange_whole {t : Word} (h : ¬(0 < t.toNat ∧ t.toNat < 32)) :
    checkPushaRange s t = segCheck s .ss (t - 32) 32 .write :=
  if_neg fun ⟨hlt, hne⟩ => h ⟨Nat.pos_of_ne_zero fun h0 => hne (BitVec.eq_of_toNat_eq h0), hlt⟩

/-- The range of PUSHA that wraps is checked in two pieces (rule R228; log entry 22). -/
theorem checkPushaRange_pieces {t : Word} (hpos : 0 < t.toNat) (hlt : t.toNat < 32) :
    checkPushaRange s t = (segCheck s .ss (t - 32) (32 - t.toNat) .write >>= fun _ => segCheck s .ss 0 t.toNat .write) :=
  if_pos ⟨hlt, by rintro rfl; exact absurd hpos (by decide)⟩

/-! ### Operand 2 -/

variable {ov : Option SReg} {m : MemRef}

theorem ea_add_zero : s.ea m + 0 = s.ea m := BitVec.add_zero _

theorem readRM32_mem : readRM32 s ov (.mem m) = readMem s ov m 0 4 := by
  rw [readRM32, readMem, ea_add_zero]

theorem readRM16_mem : readRM16 s ov (.mem m) = readMem s ov m 0 2 := by
  rw [readRM16, readMem, ea_add_zero]

theorem readRM8_mem : readRM8 s ov (.mem m) = readMem s ov m 0 1 := by
  rw [readRM8, readMem, ea_add_zero]

theorem addToRM_raises {b next a : Word} (ha : readMem s ov m 0 4 = .ok a)
    (h : segCheck s (operandSeg s.cfg ov m) (s.ea m) 4 .write = .error (.raise x)) :
    addToRM s ov (.mem m) b next = .error (.raise x) :=
  bind_next_error (readRM32_mem.trans ha) (bind_first_error (segWrite_raises h))

/-- The reads of a memory operand at these displacements, in order, with what they answer left aside. -/
def readAll (s : State) (ov : Option SReg) (m : MemRef) : List (Word × Nat) → Res Unit
  | [] => .ok ()
  | (d, n) :: reads => do
    let _ ← readMem s ov m d n
    readAll s ov m reads

/-- The first read whose check raises decides. -/
theorem readAll_raises {before rest : List (Word × Nat)} {d : Word} {n : Nat}
    (hbefore : ∀ q ∈ before, ∃ v, readMem s ov m q.1 q.2 = .ok v)
    (h : segCheck s (operandSeg s.cfg ov m) (s.ea m + d) n .read = .error (.raise x)) :
    readAll s ov m (before ++ (d, n) :: rest) = .error (.raise x) := by
  induction before with
  | nil => exact bind_first_error (segRead_raises h)
  | cons q before ih =>
    obtain ⟨v, hv⟩ := hbefore q List.mem_cons_self
    exact bind_next_error hv (ih fun p hp => hbefore p (List.mem_cons_of_mem q hp))

variable {e : Abort}

theorem readMem_of_readAll {d : Word} {n : Nat} (h : readAll s ov m [(d, n)] = .error e) :
    readMem s ov m d n = .error e := by
  cases hr : readMem s ov m d n with
  | error e' => rw [readAll, hr] at h; cases h; rfl
  | ok v => rw [readAll, hr] at h; cases h

theorem readFarPtr_of_readAll (h : readAll s ov m [(0, 4), (4, 2)] = .error e) : readFarPtr s ov m = .error e :=
  bind_error_of h fun _ h => bind_first_error (readMem_of_readAll h)

theorem readTableOperand_of_readAll (h : readAll s ov m [(0, 2), (2, 4)] = .error e) :
    readTableOperand s ov m = .error e :=
  bind_error_of h fun _ h => bind_first_error (readMem_of_readAll h)

end Accesses

/-! ### Instructions by what they do first -/

section Instructions

variable {s : State} {i : Instr} {x : Exc}

/-- The check of a privileged instruction lets level 0 pass (rule R275). -/
theorem privileged_passes (h : s.cpl = 0) : raiseIf (decide (s.cpl ≠ 0)) (.gp 0) = .ok () := raiseIf_not (by simp [h])

/-- What the reads of its memory operand raise, the instruction raises. -/
theorem exec_operandReads_raise {ov : Option SReg} {m : MemRef} {reads : List (Word × Nat)} (hi : OperandReads i ov m reads)
    (hp : Privileged i → s.cpl = 0) (h : readAll s ov m reads = .error (.raise x)) : exec i s = takeException s x := by
  obtain ⟨rfl, hi⟩ | ⟨rfl, hi⟩ | ⟨rfl, r, rfl⟩ | ⟨rfl, hi⟩ | ⟨rfl, r, rfl⟩ | ⟨rfl, hi⟩ := hi
  · have hr : readRM32 s ov (.mem m) = .error (.raise x) := readRM32_mem.trans (readMem_of_readAll h)
    obtain rfl | rfl | rfl | ⟨r, rfl | rfl | rfl⟩ | ⟨v, rfl⟩ | ⟨v, rfl⟩ := hi <;>
      exact settle_raises (bind_first_error hr)
  · have hr : readRM16 s ov (.mem m) = .error (.raise x) := readRM16_mem.trans (readMem_of_readAll h)
    obtain rfl | ⟨r, rfl⟩ := hi
    · exact settle_raises (bind_next_error (privileged_passes (hp (.inr ⟨_, _, rfl⟩))) (bind_first_error hr))
    · exact settle_raises (bind_first_error hr)
  · exact settle_raises (bind_first_error (readRM8_mem.trans (readMem_of_readAll h)))
  · have hr := readFarPtr_of_readAll h
    obtain rfl | rfl := hi <;> exact settle_raises (bind_first_error hr)
  · exact settle_raises (bind_error_of h fun _ h => bind_first_error (readMem_of_readAll h))
  · have hr := readTableOperand_of_readAll h
    obtain rfl | rfl := hi
    · exact settle_raises (bind_next_error (privileged_passes (hp (.inl ⟨_, _, .inl rfl⟩))) (bind_first_error hr))
    · exact settle_raises (bind_next_error (privileged_passes (hp (.inl ⟨_, _, .inr rfl⟩))) (bind_first_error hr))

/-- What the check of its memory destination raises, the instruction raises. -/
theorem exec_operandWrite_raises {ov : Option SReg} {m : MemRef} {n : Nat} (hi : OperandWrite s i ov m n)
    (h : segCheck s (operandSeg s.cfg ov m) (s.ea m) n .write = .error (.raise x)) : exec i s = takeException s x := by
  obtain ⟨rfl, ⟨r, rfl⟩ | ⟨v, rfl⟩⟩ | ⟨rfl, r, rfl⟩ | ⟨rfl, ⟨r, rfl⟩ | ⟨v, rfl⟩ | ⟨⟨a, ha⟩, hadd⟩⟩ := hi
  · exact settle_raises (bind_first_error (segWrite_raises h))
  · exact settle_raises (bind_first_error (segWrite_raises h))
  · exact settle_raises (bind_first_error (segWrite_raises h))
  · exact settle_raises (bind_first_error (segWrite_raises h))
  · exact settle_raises (bind_first_error (segWrite_raises h))
  · obtain ⟨r, rfl⟩ | ⟨v, rfl⟩ | ⟨v, rfl⟩ := hadd <;> exact settle_raises (addToRM_raises ha h)

/-- A POP of a segment register raises what its pop and load raise. -/
theorem exec_popsSegment_raises {r : SReg} (hi : PopsSegment i r) (h : ∀ next, popSeg s r next = .error (.raise x)) :
    exec i s = takeException s x := by
  obtain ⟨ov, ⟨rfl, rfl⟩ | ⟨rfl, rfl⟩ | ⟨rfl, rfl⟩ | ⟨rfl, rfl⟩ | ⟨rfl, rfl⟩⟩ := hi
  · exact settle_raises (h _)
  · exact settle_raises (bind_first_error (h _))
  · exact settle_raises (h _)
  · exact settle_raises (h _)
  · exact settle_raises (h _)

/-- A PUSH of a segment register raises what its slot raises. -/
theorem exec_pushesSegment_raises {r : SReg} (hi : PushesSegment i r) (h : ∀ next, pushSeg s r next = .error (.raise x)) :
    exec i s = takeException s x := by
  obtain ⟨ov, ⟨rfl, rfl⟩ | ⟨rfl, rfl⟩ | ⟨rfl, rfl⟩ | ⟨rfl, rfl⟩ | ⟨rfl, rfl⟩ | ⟨rfl, rfl⟩⟩ := hi <;>
    exact settle_raises (h _)

/-- What the check of the stack raises, an instruction that reads the stack first raises. -/
theorem exec_stackRead_raises {n : Nat} (hi : StackRead s i n) (h : segCheck s .ss s.esp n .read = .error (.raise x)) :
    exec i s = takeException s x := by
  obtain ⟨rfl, hi⟩ | ⟨rfl, ov, rfl | ⟨v, rfl⟩⟩ | ⟨rfl, hnt, ov, rfl⟩ | ⟨rfl, ov, rfl⟩ := hi
  · obtain ⟨ov, r, rfl⟩ | ⟨ov, op, rfl⟩ | ⟨r, hi⟩ | ⟨ov, rfl | ⟨v, rfl⟩⟩ := hi
    · exact settle_raises (bind_first_error (pop32_raises h))
    · exact settle_raises (bind_first_error (pop32_raises h))
    · exact exec_popsSegment_raises hi fun _ => bind_first_error (segRead_raises h)
    · exact settle_raises (bind_first_error (segRead_raises h))
    · exact settle_raises (bind_first_error (segRead_raises h))
  · exact settle_raises (bind_first_error h)
  · exact settle_raises (bind_first_error h)
  · exact settle_raises (bind_next_error (show refuseIf _ _ = .ok () from refuseIf_ok.2 hnt)
      (bind_first_error (bind_first_error h)))
  · exact settle_raises (bind_first_error h)

/-- A far JMP or CALL goes on with the pointer it names. -/
theorem exec_farPointer {call : Bool} {off : Word} {sel : Half} (hi : FarPointer s i call off sel) :
    ∃ ret, exec i s = settle s (if call then farCall s off sel ret else farJump s off sel) := by
  obtain ⟨ov, ⟨rfl, rfl⟩ | ⟨rfl, rfl⟩ | ⟨m, hi, hoff, hsel⟩⟩ := hi
  · exact ⟨0, rfl⟩
  · exact ⟨_, rfl⟩
  · have hptr : readFarPtr s ov m = .ok (off, sel) := by
      rw [readFarPtr, hoff, ok_bind, hsel, ok_bind, pure_eq_ok]
    obtain ⟨rfl, rfl⟩ | ⟨rfl, rfl⟩ := hi
    · exact ⟨0, by simp only [exec, execJmpM1632, hptr, ok_bind]; rfl⟩
    · exact ⟨_, by simp only [exec, execCallM1632, hptr, ok_bind]; rfl⟩

/-- A near CALL goes on with its target. -/
theorem exec_nearCall {target : Word} (hi : NearCall s i target) :
    ∃ ret, exec i s = settle s (nearCall s target ret) := by
  obtain ⟨ov, ⟨rel, rfl, rfl⟩ | ⟨op, rfl, ht⟩⟩ := hi
  · exact ⟨_, rfl⟩
  · exact ⟨_, by simp only [exec, execCallRm32, ht, ok_bind]; rfl⟩

end Instructions

/-- Settles O60: each check is the first part of its instruction's chain, or stands behind parts that have answered. -/
theorem operandChecksRaise : Obligations.OperandChecksRaise := by
  intro s i x
  refine ⟨?_, fun _ _ _ hi h => exec_operandWrite_raises hi h, ?_, fun _ hi h => exec_stackRead_raises hi h,
    ?_, ?_, ?_, ?_⟩
  · rintro ov m _ before d n rest hi hp rfl hbefore h
    exact exec_operandReads_raise hi hp (readAll_raises hbefore h)
  · rintro ov m v rfl hv h
    exact settle_raises (bind_next_error (pop32_ok.2 ⟨hv, rfl⟩) (bind_first_error (segWrite_raises h)))
  · rintro ov rfl
    refine ⟨fun hesp h => settle_raises (bind_first_error ?_), fun hpos hlt h => settle_raises (bind_first_error ?_)⟩
    · rwa [checkPushaRange_whole hesp]
    · rw [checkPushaRange_pieces hpos hlt]
      obtain h | ⟨hlow, h⟩ := h
      · exact bind_first_error h
      · exact bind_next_error hlow h
  · intro target hi ht h
    obtain ⟨ret, hexec⟩ := exec_nearCall hi
    rw [hexec]
    exact settle_raises (bind_next_error (checkTarget_ok (u := ()).2 ht) (bind_first_error (push32_raises h)))
  · intro off sel d hi hd h
    obtain ⟨ret, hexec⟩ := exec_farPointer hi
    obtain ⟨hn, hr, hk, hce, hdpl, hrpl, hp, hoff, -⟩ := hd
    rw [hexec]
    exact settle_raises (bind_next_error (farTarget_ok.2 ⟨hn, hr, hk, hce, hdpl, hrpl, hp, hoff⟩) (bind_first_error h))
  · exact fun r hi h => exec_pushesSegment_raises hi fun _ => bind_first_error (storeSelSlot_raises h)

end Sys2Proof.Machine
end

section
/-! SUPPORT. What loads of segment registers and TR raise on the selector and its descriptor (rules R100, R252, R256,
R278). -/

namespace Sys2Proof.Machine

open Sys2Proof

/-! ### The parts of a far return (rule R256) -/

/-- What FarReturn does once it has read its frame: `sel`:`off` with `above` as the offset above the frame. -/
def returnThrough (s : State) (sel : Half) (off above extra : Word) : Res State := do
  raiseIf (isNull sel) (.gp 0)
  let d ← readDesc s sel
  checkReturnCS s sel d off
  returnTo s off sel d (returnLevel s.cfg sel d) above extra

section FarReturn

variable {s : State} {extra off slot above : Word} {sel : Half} {x : Exc}

/-- The lowest two doublewords of `n` bytes of the stack that may be read. -/
theorem segRead_pair {t a b : Word} {n : Nat} {vs : List Word} (hc : segCheck s .ss t n .read = .ok ()) (hn : 8 ≤ n)
    (h : HoldsDwords s (s.linear .ss t) (a :: b :: vs)) :
    segRead s .ss t 4 = .ok a ∧ segRead s .ss (t + 4) 4 = .ok b := by
  obtain ⟨ha, hb, -⟩ := h
  refine ⟨?_, segRead_part (k := 4) hc hn hb⟩
  have hfirst := segRead_part (k := 0) hc (by omega) (v := a) (by rwa [BitVec.add_zero])
  rwa [BitVec.add_zero] at hfirst

theorem farReturn_ret_raises (hc : segCheck s .ss s.esp 8 .read = .ok ())
    (hf : HoldsDwords s (s.linear .ss s.esp) [off, slot])
    (h : returnThrough s (slot.extractLsb' 0 16) off (s.esp + 8 + extra) extra = .error (.raise x)) :
    farReturn s false extra = .error (.raise x) := by
  obtain ⟨hoff, hslot⟩ := segRead_pair hc le_rfl hf
  refine bind_next_error hc (bind_next_error hoff (bind_next_error hslot (bind_next_error rfl ?_)))
  exact bind_error_of h fun _ h => bind_error_of h fun _ h => bind_error_of h fun _ h => bind_first_error h

theorem farReturn_iret_raises {image : Word} (hc : segCheck s .ss s.esp 12 .read = .ok ())
    (hf : HoldsDwords s (s.linear .ss s.esp) [off, slot, image])
    (h : returnThrough s (slot.extractLsb' 0 16) off (s.esp + 12 + extra) extra = .error (.raise x)) :
    farReturn s true extra = .error (.raise x) := by
  obtain ⟨hoff, hslot⟩ := segRead_pair hc (by omega) hf
  have himage : segRead s .ss (s.esp + 8) 4 = .ok image := by
    obtain ⟨-, -, hi, -⟩ := hf
    exact segRead_part (k := 8) hc le_rfl (by rw [← add_ofNat_add _ 4 4]; exact hi)
  refine bind_next_error hc (bind_next_error hoff (bind_next_error hslot (bind_next_error himage ?_)))
  exact bind_error_of h fun _ h => bind_error_of h fun _ h => bind_error_of h fun _ h => bind_first_error h

/-- A far return through a frame that may be read raises what it raises behind the frame. -/
theorem exec_farReturnFrame_raises {i : Instr} {frame : List Word} (hi : FarReturnFrame s i extra off slot frame)
    (hc : segCheck s .ss s.esp (4 * frame.length) .read = .ok ()) (hf : HoldsDwords s (s.linear .ss s.esp) frame)
    (h : returnThrough s (slot.extractLsb' 0 16) off (s.esp + BitVec.ofNat 32 (4 * frame.length) + extra) extra
      = .error (.raise x)) : exec i s = takeException s x := by
  obtain ⟨ov, rfl, rfl, rfl⟩ | ⟨ov, imm, rfl, rfl, rfl⟩ | ⟨ov, image, rfl, hnt, rfl, rfl⟩ := hi
  · exact settle_raises (farReturn_ret_raises hc hf h)
  · exact settle_raises (farReturn_ret_raises hc hf h)
  · exact settle_raises (bind_next_error (refuseIf_ok (u := ()).2 hnt) (bind_first_error (farReturn_iret_raises hc hf h)))

/-- The CS image, or its descriptor, raises. -/
theorem returnThrough_target_raises (h : ReturnTargetRaises s sel off x) :
    returnThrough s sel off above extra = .error (.raise x) := by
  obtain ⟨hn, rfl⟩ | h := h
  · exact bind_first_error (raiseIf_of hn)
  · have ⟨hn, _⟩ := h
    exact bind_next_error (raiseIf_not hn) (descRaises_bind h fun d _ hd => bind_first_error (checkReturnCS_raises hd))

/-- Where the CS image passes and names an outer level, what the return to that level raises. -/
theorem returnThrough_outer_raises {d : BitVec 64} {lvl : Level} (hd : ReturnTargetOk s sel off d lvl) (hl : lvl ≠ s.cpl)
    (h : returnOuter s off sel d lvl above extra = .error (.raise x)) :
    returnThrough s sel off above extra = .error (.raise x) := by
  obtain ⟨hn, hr, hk, hce, hlvl, hcpl, hdpl, hp, hoff, -⟩ := hd
  have hlevel : returnLevel s.cfg sel d = lvl := by
    unfold returnLevel
    split at hlvl
    · next hh => rw [if_pos hh, hlvl]
    · next hh => rw [if_neg hh, hlvl]
  have hcheck : checkReturnCS s sel d off = .ok () :=
    checkReturnCS_ok.2 (by rw [hlevel]; exact ⟨hk, hce, hcpl, hdpl, hp, hoff⟩)
  refine bind_next_error (raiseIf_not hn) (bind_next_error hr (bind_next_error hcheck ?_))
  rw [hlevel, returnTo, if_neg hl]
  exact h

end FarReturn

/-! ### Loads by MOV and POP, and far transfers -/

section Loads

variable {s : State} {i : Instr} {x : Exc} {r : SReg} {sel : Half}

theorem loadSeg_raises (h : r = .ss ∧ StackLoadRaises s sel x ∨ r ≠ .cs ∧ r ≠ .ss ∧ DataLoadRaises s sel x) :
    loadSeg s r sel = .error (.raise x) := by
  obtain ⟨rfl, h⟩ | ⟨hcs, hss, h⟩ := h
  · exact loadSeg_ss_raises h
  · exact loadSeg_data_raises hcs hss h

/-- What the load of a segment register by MOV or POP raises, the instruction raises (rules R270, R227). -/
theorem exec_segmentLoad_raises (hi : (∃ ov op, i = .movSregRm16 ov r op ∧ readRM16 s ov op = .ok sel)
      ∨ PopsSegment i r ∧ ∃ v, segRead s .ss s.esp 4 = .ok v ∧ sel = v.extractLsb' 0 16)
    (h : loadSeg s r sel = .error (.raise x)) : exec i s = takeException s x := by
  obtain ⟨ov, op, rfl, hsel⟩ | ⟨hi, v, hv, rfl⟩ := hi
  · exact settle_raises (bind_next_error hsel (bind_first_error h))
  · exact exec_popsSegment_raises hi fun _ => bind_next_error hv (bind_first_error h)

theorem exec_farPointer_raises {call : Bool} {off : Word} (hi : FarPointer s i call off sel)
    (h : farTarget s sel off = .error (.raise x)) : exec i s = takeException s x := by
  obtain ⟨ret, hexec⟩ := exec_farPointer hi
  rw [hexec]
  cases call
  · exact settle_raises (bind_first_error h)
  · exact settle_raises (bind_first_error h)

end Loads

/-- Settles O35: what each operation raises on a selector is in Laws/Faults.lean; no part of the chain before it raises. -/
theorem segmentLoadFaults : Obligations.SegmentLoadFaults := by
  intro s i x
  refine ⟨fun r sel hi h => exec_segmentLoad_raises hi (loadSeg_raises h),
    fun call off sel hi h => exec_farPointer_raises hi (farTarget_raises h),
    fun extra off slot frame hi hc hf => ?_, ?_⟩
  · have through := exec_farReturnFrame_raises (x := x) hi hc hf
    refine ⟨fun h => through (returnThrough_target_raises h), fun d lvl hd hl => ?_⟩
    have outer := fun h => through (returnThrough_outer_raises hd hl h)
    refine ⟨fun h => outer (returnOuter_raises (.inl h)), fun esp ssSlot hc' hf' h => ?_⟩
    obtain ⟨hesp, hslot⟩ := segRead_pair hc' le_rfl hf'
    exact outer (returnOuter_raises (.inr ⟨hc', esp, ssSlot, hesp, hslot, h⟩))
  · rintro ov op sel rfl hcpl hsel h
    exact settle_raises (bind_next_error (privileged_passes hcpl)
      (bind_next_error hsel (bind_first_error (loadTask_raises h))))

end Sys2Proof.Machine
end

section
/-! SUPPORT. The decoder reads back what the encoder wrote, part by part (rules R130 to R167). -/

namespace Sys2Proof

@[simp] theorem read_ok_bind {α β : Type} (a : α) (f : α → Read β) : ((Except.ok a : Read α) >>= f) = f a := rfl

@[simp] theorem read_pure {α : Type} (a : α) : (pure a : Read α) = .ok a := rfl

/-! ### Displacements and S-I-B bytes (rules R133, R147 to R152) -/

@[simp] theorem Disp.mod_ne_register (d : Disp) : ¬d.mod = 3#2 := by cases d <;> simp [Disp.mod]

/-- MOD = 00 stands for no displacement. -/
@[simp] theorem Disp.mod_eq_zero {d : Disp} : d.mod = 0#2 ↔ d = .none := by cases d <;> simp [Disp.mod]

@[simp] theorem Reg.code_eq_ebp {b : Reg} : b.code = 5#3 ↔ b = .ebp := by cases b <;> decide

@[simp] theorem Reg.code_eq_esp {b : Reg} : b.code = 4#3 ↔ b = .esp := by cases b <;> decide

@[simp] theorem decodeDisp_bytes (d : Disp) (rest : List Byte) : decodeDisp d.mod (d.bytes ++ rest) = .ok (d, rest) := by
  cases d with
  | none => rfl
  | d8 v => rfl
  | d32 v => simp [Disp.bytes, Disp.mod, decodeDisp]

@[simp] theorem scale_sibByte (sc : Scale) (index base : BitVec 3) : (sibByte sc index base).extractLsb' 6 2 = sc.code := by
  revert index base; cases sc <;> decide

@[simp] theorem index_sibByte (sc : Scale) (index base : BitVec 3) : (sibByte sc index base).extractLsb' 3 3 = index := by
  revert index base; cases sc <;> decide

@[simp] theorem base_sibByte (sc : Scale) (index base : BitVec 3) : (sibByte sc index base).extractLsb' 0 3 = base := by
  revert index base; cases sc <;> decide

theorem decodeSib_sib {b : Reg} {sc : Scale} {ix : Option Reg} {d : Disp} (hb : d = .none → b ≠ .ebp)
    (hix : ix ≠ some .esp) (rest : List Byte) :
    decodeSib d.mod (sibByte sc (indexCode ix) b.code :: (d.bytes ++ rest)) = .ok (.sib b sc ix d, rest) := by
  have hbase : ¬(d = .none ∧ b = .ebp) := fun ⟨hd, h5⟩ => hb hd h5
  simp [decodeSib, indexOf_indexCode hix, hbase]

theorem decodeSib_abs {sc : Scale} {ix : Option Reg} (hix : ix ≠ some .esp) (v : BitVec 32) (rest : List Byte) :
    decodeSib 0#2 (sibByte sc (indexCode ix) 5#3 :: (bytes32 v ++ rest)) = .ok (.sibAbs sc ix v, rest) := by
  simp [decodeSib, indexOf_indexCode hix]

/-! ### Operand 2 (rules R140 to R150) -/

/-- The bytes of operand 2 are a MOD R/M byte with `reg` in its REG field, and bytes from which the decoder reads the
operand back. -/
def ReadsBack {ρ : Type} (ofCode : BitVec 3 → ρ) (reg : BitVec 3) (op : RM ρ) (bytes : List Byte) : Prop :=
  ∃ m tail, bytes = m :: tail ∧ regField m = reg ∧ ∀ rest, decodeOperand ofCode m (tail ++ rest) = .ok (op, rest)

theorem MemRef.readsBack {ρ : Type} (ofCode : BitVec 3 → ρ) (reg : BitVec 3) {m : MemRef} (h : m.wellFormed = true) :
    ReadsBack ofCode reg (.mem m) (m.encode reg) := by
  cases m with
  | base b d =>
    obtain ⟨hesp, hebp⟩ : b ≠ .esp ∧ (d = .none → b ≠ .ebp) := by
      simpa [MemRef.wellFormed, or_iff_not_imp_right] using h
    refine ⟨_, _, rfl, by simp, fun rest => ?_⟩
    have habs : ¬(d = .none ∧ b = .ebp) := fun ⟨hd, hb⟩ => hebp hd hb
    simp [decodeOperand, hesp, habs]
  | abs v => exact ⟨_, _, rfl, by simp, fun rest => by simp [decodeOperand]⟩
  | sib b sc ix d =>
    obtain ⟨hebp, hix⟩ : (d = .none → b ≠ .ebp) ∧ ix ≠ some .esp := by
      simpa [MemRef.wellFormed, or_iff_not_imp_right] using h
    exact ⟨_, _, rfl, by simp, fun rest => by simp [decodeOperand, decodeSib_sib hebp hix]⟩
  | sibAbs sc ix v =>
    have hix : ix ≠ some .esp := by simpa [MemRef.wellFormed] using h
    exact ⟨_, _, rfl, by simp, fun rest => by simp [decodeOperand, decodeSib_abs hix]⟩

theorem RM.readsBack {ρ : Type} {ofCode : BitVec 3 → ρ} {code : ρ → BitVec 3} (hcode : ∀ r, ofCode (code r) = r)
    (reg : BitVec 3) {op : RM ρ} (h : op.wellFormed = true) : ReadsBack ofCode reg op (op.encode code reg) := by
  cases op with
  | reg r => exact ⟨_, _, rfl, by simp, fun rest => by simp [decodeOperand, hcode]⟩
  | mem m => exact MemRef.readsBack ofCode reg h

theorem RM.reads32 (reg : BitVec 3) {op : RM Reg} (h : op.wellFormed = true) :
    ReadsBack Reg.ofCode reg op (op.encode Reg.code reg) := RM.readsBack Reg.ofCode_code reg h

theorem RM.reads8 (reg : BitVec 3) {op : RM Reg8} (h : op.wellFormed = true) :
    ReadsBack Reg8.ofCode reg op (op.encode Reg8.code reg) := RM.readsBack Reg8.ofCode_code reg h

/-! ### Rows with an operand 2 -/

section Rows

variable {bytes rest : List Byte} {ov : Option SReg} {op : RM Reg} {m : MemRef}

theorem decodeRegRm_of {mk : Reg → RM Reg → Instr} {r : Reg} (h : ReadsBack Reg.ofCode r.code op bytes) :
    decodeRegRm mk (bytes ++ rest) = .ok (mk r op, rest) := by
  obtain ⟨b, tail, rfl, hreg, hop⟩ := h
  simp [decodeRegRm, hreg, hop]

theorem decodeReg8Rm8_of {mk : Reg8 → RM Reg8 → Instr} {r : Reg8} {op : RM Reg8}
    (h : ReadsBack Reg8.ofCode r.code op bytes) : decodeReg8Rm8 mk (bytes ++ rest) = .ok (mk r op, rest) := by
  obtain ⟨b, tail, rfl, hreg, hop⟩ := h
  simp [decodeReg8Rm8, hreg, hop]

theorem decodeRegMem_of {opc : Byte} {mk : Reg → MemRef → Instr} {r : Reg}
    (h : ReadsBack Reg.ofCode r.code (.mem m) bytes) : decodeRegMem opc mk (bytes ++ rest) = .ok (mk r m, rest) := by
  obtain ⟨b, tail, rfl, hreg, hop⟩ := h
  simp [decodeRegMem, hreg, hop]

/-- A row told from others by its REG field, with an operand 2 alone: the group's decoder goes on with `decodeRm`. -/
theorem decodeGroup_rm {group : List Byte → Read (Instr × List Byte)} {reg : BitVec 3} {mk : RM Reg → Instr}
    (hgroup : ∀ b bs, regField b = reg → group (b :: bs) = decodeRm b mk bs) (h : ReadsBack Reg.ofCode reg op bytes) :
    group (bytes ++ rest) = .ok (mk op, rest) := by
  obtain ⟨b, tail, rfl, hreg, hop⟩ := h
  rw [List.cons_append, hgroup b _ hreg, decodeRm, hop]
  rfl

/-- The same where the row takes memory only. -/
theorem decodeGroup_mem {group : List Byte → Read (Instr × List Byte)} {opc : Byte} {reg : BitVec 3} {mk : MemRef → Instr}
    (hgroup : ∀ b bs, regField b = reg → group (b :: bs) = decodeMem opc b mk bs)
    (h : ReadsBack Reg.ofCode reg (.mem m) bytes) : group (bytes ++ rest) = .ok (mk m, rest) := by
  obtain ⟨b, tail, rfl, hreg, hop⟩ := h
  rw [List.cons_append, hgroup b _ hreg, decodeMem, hop]
  rfl

theorem decodeToSreg_of {sr : SReg} (hcs : sr ≠ .cs) (h : ReadsBack Reg.ofCode sr.code op bytes) :
    decodeToSreg ov (bytes ++ rest) = .ok (.movSregRm16 ov sr op, rest) := by
  refine decodeGroup_rm (fun b bs hb => ?_) h
  cases sr with
  | cs => exact absurd rfl hcs
  | _ => simp [decodeToSreg, hb]

theorem decodeFromSreg_of {sr : SReg} (h : ReadsBack Reg.ofCode sr.code op bytes) :
    decodeFromSreg ov (bytes ++ rest) = .ok (.movRm16Sreg ov op sr, rest) :=
  decodeGroup_rm (mk := fun op => .movRm16Sreg ov op sr) (fun b bs hb => by simp [decodeFromSreg, hb]) h

theorem decodeGroupC6_of {op : RM Reg8} (h : ReadsBack Reg8.ofCode 0 op bytes) (v : BitVec 8) :
    decodeGroupC6 ov (bytes ++ [v] ++ rest) = .ok (.movRm8Imm8 ov op v, rest) := by
  obtain ⟨b, tail, rfl, hreg, hop⟩ := h
  simp [decodeGroupC6, hreg, hop]

theorem decodeGroup83_of (h : ReadsBack Reg.ofCode 0 op bytes) (v : BitVec 8) :
    decodeGroup83 ov (bytes ++ [v] ++ rest) = .ok (.addRm32Imm8 ov op v, rest) := by
  obtain ⟨b, tail, rfl, hreg, hop⟩ := h
  simp [decodeGroup83, hreg, hop]

theorem decodeGroupImm32_of {opc : Byte} {mk : RM Reg → BitVec 32 → Instr} (h : ReadsBack Reg.ofCode 0 op bytes)
    (v : BitVec 32) : decodeGroupImm32 opc mk (bytes ++ bytes32 v ++ rest) = .ok (mk op v, rest) := by
  obtain ⟨b, tail, rfl, hreg, hop⟩ := h
  simp [decodeGroupImm32, hreg, hop]

end Rows

/-! ### Rows with an immediate (rules R153, R156) -/

section Immediates

variable {rest : List Byte}

theorem decodeImm16_bytes {mk : BitVec 16 → Instr} {v : BitVec 16} :
    decodeImm16 mk (bytes16 v ++ rest) = .ok (mk v, rest) := by simp [decodeImm16]

theorem decodeImm32_bytes {mk : BitVec 32 → Instr} {v : BitVec 32} :
    decodeImm32 mk (bytes32 v ++ rest) = .ok (mk v, rest) := by simp [decodeImm32]

theorem decodeFarPtr_bytes {mk : BitVec 32 → BitVec 16 → Instr} {off : BitVec 32} {sel : BitVec 16} :
    decodeFarPtr mk (bytes32 off ++ bytes16 sel ++ rest) = .ok (mk off sel, rest) := by simp [decodeFarPtr]

end Immediates

/-! ### Instructions -/

/-- A byte that stands for no override and is not excluded, as the first byte of an opcode is (rules R160, R161). -/
def isOpcode (b : Byte) : Bool := !isExcludedPrefix b && (overrideOf b).isNone

/-- The decoder passes the override and goes on with the opcode map. -/
theorem decode_overrideBytes {ov : Option SReg} {op : Byte} (h : isOpcode op = true) (bytes : List Byte) :
    decode (overrideBytes ov ++ op :: bytes) = decodeOpcode ov op bytes := by
  obtain ⟨hx, ho⟩ : isExcludedPrefix op = false ∧ overrideOf op = none := by simpa [isOpcode] using h
  cases ov with
  | none => simp [overrideBytes, decode, hx, ho]
  | some sr => simp [overrideBytes, decode, hx, ho]

theorem decode_of_opcode {ov : Option SReg} {op : Byte} {bytes rest : List Byte} {i : Instr} (h : isOpcode op = true)
    (hop : decodeOpcode ov op (bytes ++ rest) = .ok (i, rest)) :
    decode (overrideBytes ov ++ op :: bytes ++ rest) = .ok (i, rest) := by
  rw [List.append_assoc, List.cons_append, decode_overrideBytes h, hop]

/-- The one case split over the instructions: the row that the opcode map finds reads the rest of the encoding back. -/
theorem decode_encode {i : Instr} (rest : List Byte) (h : i.wellFormed = true) :
    decode (encode i ++ rest) = .ok (i, rest) := by
  cases i with
  | pushR32 ov r => cases r <;> exact decode_of_opcode rfl rfl
  | pushRm32 ov op =>
    exact decode_of_opcode rfl
      (decodeGroup_rm (group := decodeGroupFF ov) (fun b bs hb => by simp [decodeGroupFF, hb]) (RM.reads32 6 h))
  | pushImm32 ov imm => exact decode_of_opcode rfl decodeImm32_bytes
  | pushImm8 ov imm => exact decode_of_opcode rfl rfl
  | pushEs ov => exact decode_of_opcode rfl rfl
  | pushCs ov => exact decode_of_opcode rfl rfl
  | pushSs ov => exact decode_of_opcode rfl rfl
  | pushDs ov => exact decode_of_opcode rfl rfl
  | pushFs ov => exact decode_of_opcode rfl rfl
  | pushGs ov => exact decode_of_opcode rfl rfl
  | popR32 ov r => cases r <;> exact decode_of_opcode rfl rfl
  | popRm32 ov op =>
    exact decode_of_opcode rfl
      (decodeGroup_rm (group := decodeGroup8F ov) (fun b bs hb => by simp [decodeGroup8F, hb]) (RM.reads32 0 h))
  | popEs ov => exact decode_of_opcode rfl rfl
  | popSs ov => exact decode_of_opcode rfl rfl
  | popDs ov => exact decode_of_opcode rfl rfl
  | popFs ov => exact decode_of_opcode rfl rfl
  | popGs ov => exact decode_of_opcode rfl rfl
  | pusha ov => exact decode_of_opcode rfl rfl
  | popa ov => exact decode_of_opcode rfl rfl
  | jmpRel8 ov rel => exact decode_of_opcode rfl rfl
  | jmpRel32 ov rel => exact decode_of_opcode rfl decodeImm32_bytes
  | jmpRm32 ov op =>
    exact decode_of_opcode rfl
      (decodeGroup_rm (group := decodeGroupFF ov) (fun b bs hb => by simp [decodeGroupFF, hb]) (RM.reads32 4 h))
  | jmpM1632 ov m =>
    exact decode_of_opcode rfl
      (decodeGroup_mem (group := decodeGroupFF ov) (opc := 0xFF) (fun b bs hb => by simp [decodeGroupFF, hb])
        (MemRef.readsBack _ 5 h))
  | jmpPtr1632 ov off sel => exact decode_of_opcode rfl decodeFarPtr_bytes
  | callRel32 ov rel => exact decode_of_opcode rfl decodeImm32_bytes
  | callRm32 ov op =>
    exact decode_of_opcode rfl
      (decodeGroup_rm (group := decodeGroupFF ov) (fun b bs hb => by simp [decodeGroupFF, hb]) (RM.reads32 2 h))
  | callM1632 ov m =>
    exact decode_of_opcode rfl
      (decodeGroup_mem (group := decodeGroupFF ov) (opc := 0xFF) (fun b bs hb => by simp [decodeGroupFF, hb])
        (MemRef.readsBack _ 3 h))
  | callPtr1632 ov off sel => exact decode_of_opcode rfl decodeFarPtr_bytes
  | ret ov => exact decode_of_opcode rfl rfl
  | retImm16 ov imm => exact decode_of_opcode rfl decodeImm16_bytes
  | retFar ov => exact decode_of_opcode rfl rfl
  | retFarImm16 ov imm => exact decode_of_opcode rfl decodeImm16_bytes
  | movSregRm16 ov sr op =>
    obtain ⟨hcs, hop⟩ : sr ≠ .cs ∧ op.wellFormed = true := by simpa [Instr.wellFormed] using h
    exact decode_of_opcode rfl (decodeToSreg_of hcs (RM.reads32 sr.code hop))
  | movRm16Sreg ov op sr => exact decode_of_opcode rfl (decodeFromSreg_of (RM.reads32 sr.code h))
  | lgdt ov m =>
    exact decode_of_opcode rfl
      (decodeGroup_mem (group := decodeGroup0F01 ov) (opc := 0x01) (fun b bs hb => by simp [decodeGroup0F01, hb])
        (MemRef.readsBack _ 2 h))
  | lidt ov m =>
    exact decode_of_opcode rfl
      (decodeGroup_mem (group := decodeGroup0F01 ov) (opc := 0x01) (fun b bs hb => by simp [decodeGroup0F01, hb])
        (MemRef.readsBack _ 3 h))
  | ltr ov op =>
    exact decode_of_opcode rfl
      (decodeGroup_rm (group := decodeGroup0F00 ov) (fun b bs hb => by simp [decodeGroup0F00, hb]) (RM.reads32 3 h))
  | cli ov => exact decode_of_opcode rfl rfl
  | sti ov => exact decode_of_opcode rfl rfl
  | intN ov n => exact decode_of_opcode rfl rfl
  | int3 ov => exact decode_of_opcode rfl rfl
  | into ov => exact decode_of_opcode rfl rfl
  | bound ov r m => exact decode_of_opcode rfl (decodeRegMem_of (MemRef.readsBack _ r.code h))
  | iret ov => exact decode_of_opcode rfl rfl
  | movRm8R8 ov op r =>
    exact decode_of_opcode rfl (decodeReg8Rm8_of (mk := fun r m => .movRm8R8 ov m r) (RM.reads8 r.code h))
  | movRm32R32 ov op r =>
    exact decode_of_opcode rfl (decodeRegRm_of (mk := fun r m => .movRm32R32 ov m r) (RM.reads32 r.code h))
  | movR8Rm8 ov r op => exact decode_of_opcode rfl (decodeReg8Rm8_of (RM.reads8 r.code h))
  | movR32Rm32 ov r op => exact decode_of_opcode rfl (decodeRegRm_of (RM.reads32 r.code h))
  | movR8Imm8 ov r imm => cases r <;> exact decode_of_opcode rfl rfl
  | movR32Imm32 ov r imm => cases r <;> exact decode_of_opcode rfl decodeImm32_bytes
  | movRm8Imm8 ov op imm => exact decode_of_opcode rfl (decodeGroupC6_of (RM.reads8 0 h) imm)
  | movRm32Imm32 ov op imm => exact decode_of_opcode rfl (decodeGroupImm32_of (RM.reads32 0 h) imm)
  | lea ov r m => exact decode_of_opcode rfl (decodeRegMem_of (MemRef.readsBack _ r.code h))
  | addRm32R32 ov op r =>
    exact decode_of_opcode rfl (decodeRegRm_of (mk := fun r m => .addRm32R32 ov m r) (RM.reads32 r.code h))
  | addR32Rm32 ov r op => exact decode_of_opcode rfl (decodeRegRm_of (RM.reads32 r.code h))
  | addRm32Imm32 ov op imm => exact decode_of_opcode rfl (decodeGroupImm32_of (RM.reads32 0 h) imm)
  | addRm32Imm8 ov op imm => exact decode_of_opcode rfl (decodeGroup83_of (RM.reads32 0 h) imm)
  | nop ov => exact decode_of_opcode rfl rfl

end Sys2Proof
end

section
/-! SUPPORT. Instruction fetch: one byte, the window of bytes, the instruction, and a step that cannot fetch it
(rules R25, R97, R123, R131). -/

namespace Sys2Proof.Laws

/-- The family EncodedLength, for every instruction. -/
theorem EncodedLength.all : (i : Instr) → EncodedLength.Statement i
  | .pushR32 _ _ => pushR32 _ _
  | .pushRm32 _ _ => pushRm32 _ _
  | .pushImm32 _ _ => pushImm32 _ _
  | .pushImm8 _ _ => pushImm8 _ _
  | .pushEs _ => pushEs _
  | .pushCs _ => pushCs _
  | .pushSs _ => pushSs _
  | .pushDs _ => pushDs _
  | .pushFs _ => pushFs _
  | .pushGs _ => pushGs _
  | .popR32 _ _ => popR32 _ _
  | .popRm32 _ _ => popRm32 _ _
  | .popEs _ => popEs _
  | .popSs _ => popSs _
  | .popDs _ => popDs _
  | .popFs _ => popFs _
  | .popGs _ => popGs _
  | .pusha _ => pusha _
  | .popa _ => popa _
  | .jmpRel8 _ _ => jmpRel8 _ _
  | .jmpRel32 _ _ => jmpRel32 _ _
  | .jmpRm32 _ _ => jmpRm32 _ _
  | .jmpM1632 _ _ => jmpM1632 _ _
  | .jmpPtr1632 _ _ _ => jmpPtr1632 _ _ _
  | .callRel32 _ _ => callRel32 _ _
  | .callRm32 _ _ => callRm32 _ _
  | .callM1632 _ _ => callM1632 _ _
  | .callPtr1632 _ _ _ => callPtr1632 _ _ _
  | .ret _ => ret _
  | .retImm16 _ _ => retImm16 _ _
  | .retFar _ => retFar _
  | .retFarImm16 _ _ => retFarImm16 _ _
  | .movSregRm16 _ _ _ => movSregRm16 _ _ _
  | .movRm16Sreg _ _ _ => movRm16Sreg _ _ _
  | .lgdt _ _ => lgdt _ _
  | .lidt _ _ => lidt _ _
  | .ltr _ _ => ltr _ _
  | .cli _ => cli _
  | .sti _ => sti _
  | .intN _ _ => intN _ _
  | .int3 _ => int3 _
  | .into _ => into _
  | .bound _ _ _ => bound _ _ _
  | .iret _ => iret _
  | .movRm8R8 _ _ _ => movRm8R8 _ _ _
  | .movRm32R32 _ _ _ => movRm32R32 _ _ _
  | .movR8Rm8 _ _ _ => movR8Rm8 _ _ _
  | .movR32Rm32 _ _ _ => movR32Rm32 _ _ _
  | .movR8Imm8 _ _ _ => movR8Imm8 _ _ _
  | .movR32Imm32 _ _ _ => movR32Imm32 _ _ _
  | .movRm8Imm8 _ _ _ => movRm8Imm8 _ _ _
  | .movRm32Imm32 _ _ _ => movRm32Imm32 _ _ _
  | .lea _ _ _ => lea _ _ _
  | .addRm32R32 _ _ _ => addRm32R32 _ _ _
  | .addR32Rm32 _ _ _ => addR32Rm32 _ _ _
  | .addRm32Imm32 _ _ _ => addRm32Imm32 _ _ _
  | .addRm32Imm8 _ _ _ => addRm32Imm8 _ _ _
  | .nop _ => nop _

end Sys2Proof.Laws

namespace Sys2Proof.Machine

open Sys2Proof

/-! ### One byte (rules R25, R97, R123) -/

section FetchByte

variable {s : State} {k : Nat}

theorem fetchByte_pastEnd (h : 2 ^ 32 ≤ s.eip.toNat + k) : fetchByte s k = .error (.refuse .fetchPastEnd) := by
  rw [fetchByte, decide_eq_true h]
  rfl

/-- Below the end of the address space the check comes first, then the place, then the record of written addresses. -/
theorem fetchByte_eq (h : s.eip.toNat + k < 2 ^ 32) : fetchByte s k = (do
    segCheck s .cs (s.eip + BitVec.ofNat 32 k) 1 .fetch
    let a ← physAddr s.cfg (s.segs.cs.cache.base + (s.eip + BitVec.ofNat 32 k))
    if a ∈ s.written then .error (.refuse .fetchOfWrittenByte) else .ok (s.byteAt a)) := by
  rw [fetchByte, decide_eq_false (Nat.not_le.2 h)]
  simp only [refuseIf_false, ok_bind, refuseIf_bind, List.contains_iff_mem, pure_eq_ok]
  rfl

/-- A byte beyond the limit of a code segment (rule R90). -/
theorem segCheck_fetch_beyond {off : Word} (hv : s.segs.cs.cache.valid = true) (hk : s.segs.cs.cache.kind = .code)
    (h : effLimit s.segs.cs.cache.limit s.segs.cs.cache.g < off) :
    segCheck s .cs off 1 .fetch = .error (.raise (.gp 0)) := by
  have hcs : s.seg .cs = s.segs.cs := rfl
  have hl : limitOk s.segs.cs.cache off 1 = false := by
    rw [limitOk_eq_false, if_pos (.inl hk)]
    exact .inr (BitVec.lt_def.1 h)
  simp only [segCheck_eq, hcs, hv, hl, rightsOk]
  rfl

theorem fetchByte_beyond (hlt : s.eip.toNat + k < 2 ^ 32) (hv : s.segs.cs.cache.valid = true)
    (hk : s.segs.cs.cache.kind = .code)
    (h : effLimit s.segs.cs.cache.limit s.segs.cs.cache.g < s.eip + BitVec.ofNat 32 k) :
    fetchByte s k = .error (.raise (.gp 0)) := by
  rw [fetchByte_eq hlt]
  exact bind_first_error (segCheck_fetch_beyond hv hk h)

theorem fetchByte_written {a : Nat} (hlt : s.eip.toNat + k < 2 ^ 32)
    (hc : segCheck s .cs (s.eip + BitVec.ofNat 32 k) 1 .fetch = .ok ())
    (ha : physAddr s.cfg (s.segs.cs.cache.base + (s.eip + BitVec.ofNat 32 k)) = .ok a) (h : a ∈ s.written) :
    fetchByte s k = .error (.refuse .fetchOfWrittenByte) := by
  rw [fetchByte_eq hlt]
  exact bind_next_error hc (bind_next_error ha (if_pos h))

end FetchByte

/-! ### The window and the instruction (rules R97, R131) -/

/-- Where the bytes from the `k`th on can be fetched, the window begins with them and goes on behind them. -/
theorem fetchWindow_append {s : State} {bytes : List Byte} {k : Nat} (m : Nat)
    (h : ∀ j (hj : j < bytes.length), fetchByte s (k + j) = .ok bytes[j]) :
    fetchWindow s (bytes.length + m) k =
      (bytes ++ (fetchWindow s m (k + bytes.length)).1, (fetchWindow s m (k + bytes.length)).2) := by
  induction bytes generalizing k with
  | nil => simp
  | cons b bytes ih =>
    have hb : fetchByte s k = .ok b := h 0 (by simp)
    have hrest := ih (k := k + 1) fun j hj => by
      have := h (j + 1) (by simpa using hj)
      rwa [Nat.add_assoc, Nat.add_comm 1 j]
    rw [List.length_cons, Nat.add_right_comm, fetchWindow, hb]
    simp only [hrest, List.cons_append, Nat.add_assoc, Nat.add_comm 1]

/-- The window where a first byte that cannot be fetched lies inside it. -/
theorem fetchWindow_stops {s : State} {bytes : List Byte} {n : Nat} {e : Abort} (hn : bytes.length < n)
    (h : ∀ j (hj : j < bytes.length), fetchByte s j = .ok bytes[j]) (he : fetchByte s bytes.length = .error e) :
    fetchWindow s n 0 = (bytes, some e) := by
  obtain ⟨m, rfl⟩ : ∃ m, n = bytes.length + (m + 1) := ⟨n - bytes.length - 1, by omega⟩
  rw [fetchWindow_append (m + 1) (by simpa using h), Nat.zero_add, fetchWindow, he]
  simp

/-- The instruction whose encoding stands at EIP. -/
theorem fetchInstr_of_encode {s : State} {i : Instr} (hw : i.wellFormed = true) (hdb : s.segs.cs.cache.db = true)
    (h : ∀ k (hk : k < (encode i).length), fetchByte s k = .ok (encode i)[k]) : fetchInstr s = .ok i := by
  obtain ⟨-, hmax⟩ := Laws.EncodedLength.all i
  obtain ⟨m, hm⟩ := Nat.exists_eq_add_of_le hmax
  rw [fetchInstr, hdb, hm, fetchWindow_append m (by simpa using h)]
  simp only [Bool.not_true, refuseIf_false, ok_bind, decode_encode _ hw, pure_eq_ok]

/-- Where decoding needs a byte that cannot be fetched, that byte decides (log entry 23). -/
theorem fetchInstr_stops {s : State} {bytes : List Byte} {e : Abort} (hdb : s.segs.cs.cache.db = true)
    (hlen : bytes.length < maxLength) (h : ∀ k (hk : k < bytes.length), fetchByte s k = .ok bytes[k])
    (hdec : decode bytes = .error .truncated) (he : fetchByte s bytes.length = .error e) : fetchInstr s = .error e := by
  rw [fetchInstr, hdb, fetchWindow_stops hlen h he]
  simp only [Bool.not_true, refuseIf_false, ok_bind, hdec, Option.getD_some]

/-- Settles O4: one byte by `fetchByte_eq`, the instruction by `decode_encode`. -/
theorem fetchReadsTheEncoding : Obligations.FetchReadsTheEncoding := by
  refine ⟨fun s k => ⟨fetchByte_pastEnd, fun hk => ⟨fun e he => ?_, fun hc => ⟨fun e he => ?_, fun a ha => ?_⟩⟩⟩,
    fun s i hw hdb h => fetchInstr_of_encode hw hdb h⟩
  · rw [fetchByte_eq hk, he, error_bind]
  · rw [fetchByte_eq hk, hc, ok_bind, he, error_bind]
  · rw [fetchByte_eq hk, hc, ok_bind, ha, ok_bind]

/-! ### A step that cannot fetch (rules R360, R362) -/

/-- A step that passes the boundary and cannot fetch comes to what the fetch came to. -/
theorem step_eq_settle {s s' : State} {e : Abort} (hstop : s.cfg.stopEip ≠ some s.eip) (htf : flag s.eflags bitTF = false)
    (hvm : flag s.eflags bitVM = false) (hb : boundary s = (none, s')) (he : fetchInstr s' = .error e) :
    step s = settle s' (.error e) := by
  simp only [step, htf, hvm, Bool.false_eq_true, if_false, if_neg hstop, hb, he]

/-- Settles O7: the byte behind those that have been fetched cannot be fetched, and decoding needs it. -/
theorem fetchStops : Obligations.FetchStops := by
  intro s s' bytes hstop htf hvm hb hdb hlen h hdec
  obtain ⟨o, rfl⟩ := boundary_frame hb
  have stops {e : Abort} (he : fetchByte { s with shadow := false, oracle := o } bytes.length = .error e) :=
    step_eq_settle hstop htf hvm hb (fetchInstr_stops hdb hlen h hdec he)
  exact ⟨fun hend => stops (fetchByte_pastEnd hend), fun hlt hv hk hlim => stops (fetchByte_beyond hlt hv hk hlim),
    fun hlt hc a ha hmem => stops (fetchByte_written hlt hc ha hmem)⟩

end Sys2Proof.Machine
end

section
/-! SUPPORT. Whatever the decoder answers is well formed, and its encoding is the bytes that were read, part by part
(rules R130 to R167). -/

namespace Sys2Proof

/-! ### What a decoder answers -/

/-- Whatever a decoder of one part answers, with the bytes left after it, has the property. -/
def Answers {α : Type} (r : Read (α × List Byte)) (P : α → List Byte → Prop) : Prop :=
  ∀ a rest, r = .ok (a, rest) → P a rest

section Answers

variable {α β : Type} {P : α → List Byte → Prop} {Q : β → List Byte → Prop}

theorem Answers.ok {a : α} {rest : List Byte} (h : P a rest) : Answers (.ok (a, rest)) P := by
  rintro _ _ ⟨⟩
  exact h

theorem Answers.error {e : DecodeStop} : Answers (.error e) P := by
  rintro _ _ ⟨⟩

theorem Answers.bind {r : Read (α × List Byte)} {f : α × List Byte → Read (β × List Byte)} (h : Answers r P)
    (hf : ∀ a rest, P a rest → Answers (f (a, rest)) Q) : Answers (r >>= f) Q := by
  rcases r with e | ⟨a, rest⟩
  · exact .error
  · exact hf a rest (h a rest rfl)

theorem Answers.ite {c : Prop} [Decidable c] {r t : Read (α × List Byte)} (hr : c → Answers r P)
    (ht : ¬c → Answers t P) : Answers (if c then r else t) P := by
  split
  · exact hr ‹_›
  · exact ht ‹_›

end Answers

/-! ### Numbers and fields (rules R62, R132, R133) -/

theorem take8_answers (bs : List Byte) : Answers (take8 bs) fun v rest => v :: rest = bs := by
  match bs with
  | [] => exact .error
  | b :: t => exact .ok rfl

theorem bytes16_le16 (b0 b1 : Byte) : bytes16 (le16 b0 b1) = [b0, b1] := by
  rw [bytes16, le16, BitVec.extractLsb'_append_eq_right, BitVec.extractLsb'_append_eq_left]

theorem bytes32_le32 (b0 b1 b2 b3 : Byte) : bytes32 (le32 b0 b1 b2 b3) = [b0, b1, b2, b3] := by
  have h0 : (le32 b0 b1 b2 b3).extractLsb' 0 8 = b0 := BitVec.extractLsb'_append_eq_right
  have h1 : (le32 b0 b1 b2 b3).extractLsb' 8 8 = b1 := by
    rw [le32, BitVec.extractLsb'_append_eq_of_le (by omega)]; exact BitVec.extractLsb'_append_eq_right
  have h2 : (le32 b0 b1 b2 b3).extractLsb' 16 8 = b2 := by
    rw [le32, BitVec.extractLsb'_append_eq_of_le (by omega), BitVec.extractLsb'_append_eq_of_le (by omega)]
    exact BitVec.extractLsb'_append_eq_right
  have h3 : (le32 b0 b1 b2 b3).extractLsb' 24 8 = b3 := by
    rw [le32, BitVec.extractLsb'_append_eq_of_le (by omega), BitVec.extractLsb'_append_eq_of_le (by omega)]
    exact BitVec.extractLsb'_append_eq_left
  rw [bytes32, h0, h1, h2, h3]

theorem take16_answers (bs : List Byte) : Answers (take16 bs) fun v rest => bytes16 v ++ rest = bs := by
  match bs with
  | [] | [_] => exact .error
  | b0 :: b1 :: t => exact .ok (by rw [bytes16_le16]; rfl)

theorem take32_answers (bs : List Byte) : Answers (take32 bs) fun v rest => bytes32 v ++ rest = bs := by
  match bs with
  | [] | [_] | [_, _] | [_, _, _] => exact .error
  | b0 :: b1 :: b2 :: b3 :: t => exact .ok (by rw [bytes32_le32]; rfl)

theorem modRmByte_fields (m : Byte) : modRmByte (modField m) (regField m) (rmField m) = m := by revert m; decide

theorem sibByte_fields (s : Byte) :
    sibByte (Scale.ofCode (s.extractLsb' 6 2)) (indexCode (indexOf (s.extractLsb' 3 3))) (s.extractLsb' 0 3) = s := by
  revert s; decide

/-- An opcode byte whose low three bits name a register is its upper five bits and those three. -/
theorem opcode_fields {op : Byte} {hi : BitVec 5} (h : op.extractLsb' 3 5 = hi) : hi ++ op.extractLsb' 0 3 = op := by
  subst h; revert op; decide

/-! ### Operand 2 (rules R140 to R152) -/

theorem decodeDisp_answers {md : BitVec 2} (hmd : md ≠ 3) (bs : List Byte) :
    Answers (decodeDisp md bs) fun d rest => d.mod = md ∧ d.bytes ++ rest = bs := by
  refine .ite (fun h0 => .ok ⟨h0.symm, rfl⟩) fun h0 => .ite (fun h1 => ?_) fun h1 => ?_
  · exact .bind (take8_answers bs) fun v rest hv => .ok ⟨h1.symm, hv⟩
  · refine .bind (take32_answers bs) fun v rest hv => .ok ⟨?_, hv⟩
    change 2#2 = md
    revert md; decide

theorem Reg.ofCode_eq_ebp {c : BitVec 3} : Reg.ofCode c = .ebp ↔ c = 5 := by revert c; decide

theorem Reg.ofCode_eq_esp {c : BitVec 3} : Reg.ofCode c = .esp ↔ c = 4 := by revert c; decide

/-- A base that is no EBP, or a displacement, where MOD = 00 and the base's number 101 do not stand together. -/
theorem ebpBase_wellFormed {b : BitVec 3} {d : Disp} (h : ¬(d.mod = 0 ∧ b = 5)) :
    (decide (Reg.ofCode b ≠ .ebp) || decide (d ≠ .none)) = true := by
  simpa [Reg.ofCode_eq_ebp, imp_iff_not_or, or_comm] using h

theorem decodeSib_answers {md : BitVec 2} (hmd : md ≠ 3) (reg : BitVec 3) (bs : List Byte) :
    Answers (decodeSib md bs) fun m rest =>
      m.wellFormed = true ∧ m.encode reg ++ rest = modRmByte md reg 4 :: bs := by
  refine .bind (take8_answers bs) fun s tail hs => ?_
  have hfields := sibByte_fields s
  have hix := decide_eq_true (indexOf_ne_esp (s.extractLsb' 3 3))
  subst hs
  refine .ite (fun ⟨h0, h5⟩ => ?_) fun habs => ?_
  · rw [h5] at hfields
    refine .bind (take32_answers tail) fun v rest hv => .ok ⟨hix, ?_⟩
    rw [MemRef.encode, hfields, h0, List.cons_append, List.cons_append, hv]
  · refine .bind (decodeDisp_answers hmd tail) ?_
    rintro d rest ⟨rfl, hd⟩
    refine .ok ⟨Bool.and_eq_true_iff.2 ⟨ebpBase_wellFormed habs, hix⟩, ?_⟩
    rw [MemRef.encode, Reg.code_ofCode, hfields, List.cons_append, List.cons_append, hd]

/-- Operand 2 after the MOD R/M byte `m`: what is read is encodable, and is read from its own bytes. -/
theorem decodeOperand_answers {ρ : Type} {ofCode : BitVec 3 → ρ} {code : ρ → BitVec 3} (hcode : ∀ c, code (ofCode c) = c)
    (m : Byte) (bs : List Byte) :
    Answers (decodeOperand ofCode m bs) fun op rest =>
      op.wellFormed = true ∧ op.encode code (regField m) ++ rest = m :: bs := by
  have hm := modRmByte_fields m
  refine .ite (fun h3 => .ok ⟨rfl, ?_⟩) fun h3 => .ite (fun hsib => ?_) fun hsib =>
    .ite (fun ⟨h0, h5⟩ => ?_) fun habs => ?_
  · rw [RM.encode, hcode, ← h3, hm]; rfl
  · rw [hsib] at hm
    refine .bind (decodeSib_answers h3 (regField m) bs) fun r rest ⟨hw, hr⟩ => .ok ⟨hw, ?_⟩
    rw [RM.encode, hr, hm]
  · rw [h0, h5] at hm
    refine .bind (take32_answers bs) fun v rest hv => .ok ⟨rfl, ?_⟩
    rw [RM.encode, MemRef.encode, hm, List.cons_append, hv]
  · refine .bind (decodeDisp_answers h3 bs) fun d rest ⟨hmod, hd⟩ => .ok ⟨?_, ?_⟩
    · have hesp : Reg.ofCode (rmField m) ≠ .esp := mt Reg.ofCode_eq_esp.1 hsib
      exact Bool.and_eq_true_iff.2 ⟨decide_eq_true hesp, ebpBase_wellFormed (hmod ▸ habs)⟩
    · rw [RM.encode, MemRef.encode, Reg.code_ofCode, hmod, hm, List.cons_append, hd]

theorem decodeOperand32_answers (m : Byte) (bs : List Byte) : Answers (decodeOperand Reg.ofCode m bs) fun op rest =>
    op.wellFormed = true ∧ op.encode Reg.code (regField m) ++ rest = m :: bs :=
  decodeOperand_answers Reg.code_ofCode m bs

theorem decodeOperand8_answers (m : Byte) (bs : List Byte) : Answers (decodeOperand Reg8.ofCode m bs) fun op rest =>
    op.wellFormed = true ∧ op.encode Reg8.code (regField m) ++ rest = m :: bs :=
  decodeOperand_answers Reg8.code_ofCode m bs

/-! ### Rows -/

/-- The instruction is well formed, and its encoding with the bytes `rest` after it is the override `ov`, the opcode bytes
`ops` and the bytes `bs` that follow them. -/
def ReadFrom (ov : Option SReg) (ops bs : List Byte) (i : Instr) (rest : List Byte) : Prop :=
  i.wellFormed = true ∧ encode i ++ rest = overrideBytes ov ++ (ops ++ bs)

section Rows

variable {ov : Option SReg} {ops bs : List Byte}

/-- An instruction whose bytes after the opcode have been read. -/
theorem ReadFrom.of {i : Instr} {tail rest : List Byte} (hw : i.wellFormed = true)
    (he : encode i = overrideBytes ov ++ (ops ++ tail)) (ht : tail ++ rest = bs) : ReadFrom ov ops bs i rest :=
  ⟨hw, by rw [he, List.append_assoc, List.append_assoc, ht]⟩

/-- An instruction whose bytes after the opcode have been read in two parts. -/
theorem ReadFrom.of_parts {i : Instr} {first second mid rest : List Byte} (hw : i.wellFormed = true)
    (he : encode i = overrideBytes ov ++ (ops ++ (first ++ second))) (h1 : first ++ mid = bs)
    (h2 : second ++ rest = mid) : ReadFrom ov ops bs i rest :=
  .of hw he (by rw [List.append_assoc, h2, h1])

/-- A row that is its opcode alone. -/
theorem answers_bare {i : Instr} (hw : i.wellFormed = true) (he : encode i = overrideBytes ov ++ (ops ++ [])) :
    Answers (.ok (i, bs)) (ReadFrom ov ops bs) := .ok (.of hw he rfl)

theorem decodeImm8_answers {mk : BitVec 8 → Instr} (hw : ∀ v, (mk v).wellFormed = true)
    (he : ∀ v, encode (mk v) = overrideBytes ov ++ (ops ++ [v])) : Answers (decodeImm8 mk bs) (ReadFrom ov ops bs) :=
  .bind (take8_answers bs) fun v _ hv => .ok (.of (hw v) (he v) hv)

theorem decodeImm16_answers {mk : BitVec 16 → Instr} (hw : ∀ v, (mk v).wellFormed = true)
    (he : ∀ v, encode (mk v) = overrideBytes ov ++ (ops ++ bytes16 v)) :
    Answers (decodeImm16 mk bs) (ReadFrom ov ops bs) :=
  .bind (take16_answers bs) fun v _ hv => .ok (.of (hw v) (he v) hv)

theorem decodeImm32_answers {mk : BitVec 32 → Instr} (hw : ∀ v, (mk v).wellFormed = true)
    (he : ∀ v, encode (mk v) = overrideBytes ov ++ (ops ++ bytes32 v)) :
    Answers (decodeImm32 mk bs) (ReadFrom ov ops bs) :=
  .bind (take32_answers bs) fun v _ hv => .ok (.of (hw v) (he v) hv)

theorem decodeFarPtr_answers {mk : BitVec 32 → BitVec 16 → Instr} (hw : ∀ off sel, (mk off sel).wellFormed = true)
    (he : ∀ off sel, encode (mk off sel) = overrideBytes ov ++ (ops ++ (bytes32 off ++ bytes16 sel))) :
    Answers (decodeFarPtr mk bs) (ReadFrom ov ops bs) :=
  .bind (take32_answers bs) fun off _ hoff => .bind (take16_answers _) fun sel _ hsel =>
    .ok (.of_parts (hw off sel) (he off sel) hoff hsel)

theorem decodeRm_answers {m : Byte} {reg : BitVec 3} {mk : RM Reg → Instr} (hreg : regField m = reg)
    (hw : ∀ op, (mk op).wellFormed = op.wellFormed)
    (he : ∀ op, encode (mk op) = overrideBytes ov ++ (ops ++ op.encode Reg.code reg)) :
    Answers (decodeRm m mk bs) (ReadFrom ov ops (m :: bs)) :=
  .bind (decodeOperand32_answers m bs) fun op _ ⟨hop, hb⟩ => .ok (.of (hw op ▸ hop) (he op) (hreg ▸ hb))

theorem decodeMem_answers {opc m : Byte} {reg : BitVec 3} {mk : MemRef → Instr} (hreg : regField m = reg)
    (hw : ∀ r, (mk r).wellFormed = r.wellFormed)
    (he : ∀ r, encode (mk r) = overrideBytes ov ++ (ops ++ r.encode reg)) :
    Answers (decodeMem opc m mk bs) (ReadFrom ov ops (m :: bs)) :=
  .bind (decodeOperand32_answers m bs) fun op _ ⟨hop, hb⟩ => match op with
    | .reg _ => .error
    | .mem r => .ok (.of (hw r ▸ hop) (he r) (hreg ▸ hb))

/-- A decoder that takes one byte and goes on with it. -/
theorem answers_byte {f : Byte × List Byte → Read (Instr × List Byte)}
    (h : ∀ m tail, Answers (f (m, tail)) (ReadFrom ov ops (m :: tail))) : Answers (take8 bs >>= f) (ReadFrom ov ops bs) :=
  .bind (take8_answers bs) fun m tail hm => hm ▸ h m tail

theorem decodeRegRm_answers {mk : Reg → RM Reg → Instr} (hw : ∀ r op, (mk r op).wellFormed = op.wellFormed)
    (he : ∀ r op, encode (mk r op) = overrideBytes ov ++ (ops ++ op.encode Reg.code r.code)) :
    Answers (decodeRegRm mk bs) (ReadFrom ov ops bs) :=
  answers_byte fun _ _ => decodeRm_answers (Reg.code_ofCode _).symm (hw _) (he _)

theorem decodeReg8Rm8_answers {mk : Reg8 → RM Reg8 → Instr} (hw : ∀ r op, (mk r op).wellFormed = op.wellFormed)
    (he : ∀ r op, encode (mk r op) = overrideBytes ov ++ (ops ++ op.encode Reg8.code r.code)) :
    Answers (decodeReg8Rm8 mk bs) (ReadFrom ov ops bs) :=
  answers_byte fun m tail => .bind (decodeOperand8_answers m tail) fun op _ ⟨hop, hb⟩ =>
    .ok (.of (hw _ op ▸ hop) (he _ op) (by rw [Reg8.code_ofCode, hb]))

theorem decodeRegMem_answers {opc : Byte} {mk : Reg → MemRef → Instr} (hw : ∀ r m, (mk r m).wellFormed = m.wellFormed)
    (he : ∀ r m, encode (mk r m) = overrideBytes ov ++ (ops ++ m.encode r.code)) :
    Answers (decodeRegMem opc mk bs) (ReadFrom ov ops bs) :=
  answers_byte fun _ _ => decodeMem_answers (Reg.code_ofCode _).symm (hw _) (he _)

end Rows

/-! ### Rows told apart by a REG field (rules R165, R167) -/

section Groups

variable {ov : Option SReg} {bs : List Byte}

/-- MOV to a segment register: the REG field names one of the five that may be loaded. -/
theorem decodeToSreg_answers : Answers (decodeToSreg ov bs) (ReadFrom ov [0x8E] bs) := by
  refine answers_byte fun m tail => ?_
  dsimp only
  split
  · exact .error
  · exact .error
  · rename_i sr hcs hsr
    refine decodeRm_answers (SReg.code_of_ofCode hsr).symm (fun op => ?_) fun _ => rfl
    have hne : sr ≠ .cs := hcs
    simp [Instr.wellFormed, hne]

theorem decodeFromSreg_answers : Answers (decodeFromSreg ov bs) (ReadFrom ov [0x8C] bs) := by
  refine answers_byte fun m tail => ?_
  dsimp only
  split
  · exact .error
  · rename_i sr hsr
    exact decodeRm_answers (SReg.code_of_ofCode hsr).symm (fun _ => rfl) fun _ => rfl

theorem decodeGroupFF_answers : Answers (decodeGroupFF ov bs) (ReadFrom ov [0xFF] bs) :=
  answers_byte fun _ _ =>
    .ite (fun h => decodeRm_answers h (fun _ => rfl) fun _ => rfl) fun _ =>
    .ite (fun h => decodeMem_answers h (fun _ => rfl) fun _ => rfl) fun _ =>
    .ite (fun h => decodeRm_answers h (fun _ => rfl) fun _ => rfl) fun _ =>
    .ite (fun h => decodeMem_answers h (fun _ => rfl) fun _ => rfl) fun _ =>
    .ite (fun h => decodeRm_answers h (fun _ => rfl) fun _ => rfl) fun _ => .error

theorem decodeGroup8F_answers : Answers (decodeGroup8F ov bs) (ReadFrom ov [0x8F] bs) :=
  answers_byte fun _ _ => .ite (fun h => decodeRm_answers h (fun _ => rfl) fun _ => rfl) fun _ => .error

theorem decodeGroupC6_answers : Answers (decodeGroupC6 ov bs) (ReadFrom ov [0xC6] bs) :=
  answers_byte fun m tail => .ite (fun h => .bind (decodeOperand8_answers m tail) fun _ _ ⟨hop, hb⟩ =>
    .bind (take8_answers _) fun _ _ hv => .ok (.of_parts hop rfl (h ▸ hb) hv)) fun _ => .error

theorem decodeGroup83_answers : Answers (decodeGroup83 ov bs) (ReadFrom ov [0x83] bs) :=
  answers_byte fun m tail => .ite (fun h => .bind (decodeOperand32_answers m tail) fun _ _ ⟨hop, hb⟩ =>
    .bind (take8_answers _) fun _ _ hv => .ok (.of_parts hop rfl (h ▸ hb) hv)) fun _ => .error

theorem decodeGroupImm32_answers {opc : Byte} {mk : RM Reg → BitVec 32 → Instr}
    (hw : ∀ op v, (mk op v).wellFormed = op.wellFormed)
    (he : ∀ op v, encode (mk op v) = overrideBytes ov ++ ([opc] ++ (op.encode Reg.code 0 ++ bytes32 v))) :
    Answers (decodeGroupImm32 opc mk bs) (ReadFrom ov [opc] bs) :=
  answers_byte fun m tail => .ite (fun h => .bind (decodeOperand32_answers m tail) fun op _ ⟨hop, hb⟩ =>
    .bind (take32_answers _) fun v _ hv => .ok (.of_parts (hw op v ▸ hop) (he op v) (h ▸ hb) hv)) fun _ => .error

theorem decodeGroup0F00_answers : Answers (decodeGroup0F00 ov bs) (ReadFrom ov [0x0F, 0x00] bs) :=
  answers_byte fun _ _ => .ite (fun h => decodeRm_answers h (fun _ => rfl) fun _ => rfl) fun _ => .error

theorem decodeGroup0F01_answers : Answers (decodeGroup0F01 ov bs) (ReadFrom ov [0x0F, 0x01] bs) :=
  answers_byte fun _ _ =>
    .ite (fun h => decodeMem_answers h (fun _ => rfl) fun _ => rfl) fun _ =>
    .ite (fun h => decodeMem_answers h (fun _ => rfl) fun _ => rfl) fun _ => .error

end Groups

/-! ### The opcode map (rule R165) -/

section Map

variable {ov : Option SReg} {ops bs : List Byte} {r t : Read (Instr × List Byte)}

theorem ReadFrom.next {op : Byte} {i : Instr} {rest : List Byte} (h : ReadFrom ov (ops ++ [op]) bs i rest) :
    ReadFrom ov ops (op :: bs) i rest := by
  simpa [ReadFrom] using h

/-- A row that is told from the others by its opcode byte. -/
theorem Answers.row {op opc : Byte} (hr : Answers r (ReadFrom ov (ops ++ [opc]) bs))
    (ht : Answers t (ReadFrom ov ops (op :: bs))) : Answers (if op = opc then r else t) (ReadFrom ov ops (op :: bs)) :=
  .ite (fun h i rest hread => h ▸ (hr i rest hread).next) fun _ => ht

/-- A row whose opcode byte names a register in its low three bits. -/
theorem Answers.regRow {op : Byte} {hi : BitVec 5} (hr : Answers r (ReadFrom ov (ops ++ [hi ++ op.extractLsb' 0 3]) bs))
    (ht : Answers t (ReadFrom ov ops (op :: bs))) :
    Answers (if op.extractLsb' 3 5 = hi then r else t) (ReadFrom ov ops (op :: bs)) :=
  .ite (fun h i rest hread => (opcode_fields h ▸ hr i rest hread).next) fun _ => ht

theorem decode0F_answers : Answers (decode0F ov bs) (ReadFrom ov [0x0F] bs) :=
  answers_byte fun _ _ =>
    .row decodeGroup0F00_answers <|
    .row decodeGroup0F01_answers <|
    .row (answers_bare rfl rfl) <|
    .row (answers_bare rfl rfl) <|
    .row (answers_bare rfl rfl) <|
    .row (answers_bare rfl rfl) .error

/-- Every row of the map, in its order. -/
theorem decodeOpcode_answers (op : Byte) : Answers (decodeOpcode ov op bs) (ReadFrom ov [] (op :: bs)) :=
  .regRow (answers_bare rfl (by rw [encode, Reg.code_ofCode]; rfl)) <|
  .regRow (answers_bare rfl (by rw [encode, Reg.code_ofCode]; rfl)) <|
  .regRow (decodeImm8_answers (fun _ => rfl) fun _ => by rw [encode, Reg8.code_ofCode]; rfl) <|
  .regRow (decodeImm32_answers (fun _ => rfl) fun _ => by rw [encode, Reg.code_ofCode]; rfl) <|
  .row (decodeRegRm_answers (fun _ _ => rfl) fun _ _ => rfl) <|
  .row (decodeRegRm_answers (fun _ _ => rfl) fun _ _ => rfl) <|
  .row (answers_bare rfl rfl) <|
  .row (answers_bare rfl rfl) <|
  .row (answers_bare rfl rfl) <|
  .row decode0F_answers <|
  .row (answers_bare rfl rfl) <|
  .row (answers_bare rfl rfl) <|
  .row (answers_bare rfl rfl) <|
  .row (answers_bare rfl rfl) <|
  .row (answers_bare rfl rfl) <|
  .row (answers_bare rfl rfl) <|
  .row (decodeRegMem_answers (fun _ _ => rfl) fun _ _ => rfl) <|
  .row (decodeImm32_answers (fun _ => rfl) fun _ => rfl) <|
  .row (decodeImm8_answers (fun _ => rfl) fun _ => rfl) <|
  .row (decodeGroupImm32_answers (fun _ _ => rfl) fun _ _ => rfl) <|
  .row decodeGroup83_answers <|
  .row (decodeReg8Rm8_answers (fun _ _ => rfl) fun _ _ => rfl) <|
  .row (decodeRegRm_answers (fun _ _ => rfl) fun _ _ => rfl) <|
  .row (decodeReg8Rm8_answers (fun _ _ => rfl) fun _ _ => rfl) <|
  .row (decodeRegRm_answers (fun _ _ => rfl) fun _ _ => rfl) <|
  .row decodeFromSreg_answers <|
  .row (decodeRegMem_answers (fun _ _ => rfl) fun _ _ => rfl) <|
  .row decodeToSreg_answers <|
  .row decodeGroup8F_answers <|
  .row (answers_bare rfl rfl) <|
  .row (decodeFarPtr_answers (fun _ _ => rfl) fun _ _ => rfl) <|
  .row (decodeImm16_answers (fun _ => rfl) fun _ => rfl) <|
  .row (answers_bare rfl rfl) <|
  .row decodeGroupC6_answers <|
  .row (decodeGroupImm32_answers (fun _ _ => rfl) fun _ _ => rfl) <|
  .row (decodeImm16_answers (fun _ => rfl) fun _ => rfl) <|
  .row (answers_bare rfl rfl) <|
  .row (answers_bare rfl rfl) <|
  .row (decodeImm8_answers (fun _ => rfl) fun _ => rfl) <|
  .row (answers_bare rfl rfl) <|
  .row (answers_bare rfl rfl) <|
  .row (decodeImm32_answers (fun _ => rfl) fun _ => rfl) <|
  .row (decodeImm32_answers (fun _ => rfl) fun _ => rfl) <|
  .row (decodeFarPtr_answers (fun _ _ => rfl) fun _ _ => rfl) <|
  .row (decodeImm8_answers (fun _ => rfl) fun _ => rfl) <|
  .row (answers_bare rfl rfl) <|
  .row (answers_bare rfl rfl) <|
  .row decodeGroupFF_answers .error

end Map

/-! ### Instructions (rules R130, R160) -/

/-- An override, if there is one, then the opcode map: what is answered is encoded by the bytes before the rest. -/
theorem decode_answers (bytes : List Byte) :
    Answers (decode bytes) fun i rest => i.wellFormed = true ∧ encode i ++ rest = bytes := by
  match bytes with
  | [] => exact .error
  | b :: bs =>
    refine .ite (fun _ => .error) fun _ => ?_
    split
    · exact decodeOpcode_answers b
    · rename_i sr hsr
      match bs with
      | [] => exact .error
      | op :: bs =>
        refine .ite (fun _ => .error) fun _ => .ite (fun _ => .error) fun _ => ?_
        have hb := overrideByte_of_overrideOf hsr
        subst hb
        exact decodeOpcode_answers op

/-- Settles O1: `decode_encode`, which follows the bytes of each instruction through the decoder. -/
theorem encodeThenDecode : Obligations.EncodeThenDecode := fun _ rest h => decode_encode rest h

/-- Settles O2: `decode_answers`, which says of each part of the decoder that it answers what its bytes encode. -/
theorem decodeThenEncode : Obligations.DecodeThenEncode := fun bytes i rest h => decode_answers bytes i rest h

end Sys2Proof
end

section
/-! SUPPORT. Operand 2: the segment of a memory operand, and the bytes that reading one answers (rules R68, R95, R98, R151,
R160, R190). -/

namespace Sys2Proof.Machine

open Sys2Proof

theorem operandSeg_some (c : Config) (r : SReg) (m : MemRef) : operandSeg c (some r) m = r := rfl

theorem baseSeg_ebp (c : Config) : baseSeg c .ebp = if c.ebpDefaultSeg = .ss then .ss else .ds := by
  cases h : c.ebpDefaultSeg <;> simp [baseSeg, h]

/-- What a read of a memory operand answers, byte by byte. -/
theorem readMem_ok {s : State} {ov : Option SReg} {m : MemRef} {d : Word} {n : Nat} {v : BitVec (8 * n)} :
    readMem s ov m d n = .ok v ↔ segCheck s (operandSeg s.cfg ov m) (s.ea m + d) n .read = .ok ()
      ∧ ∀ k < n, ∃ a, physAddr s.cfg (s.linear (operandSeg s.cfg ov m) (s.ea m + d) + BitVec.ofNat 32 k) = .ok a
        ∧ s.byteAt a = v.extractLsb' (8 * k) 8 := by
  rw [readMem, segRead_ok, linRead_bytes]

/-- Settles O17: the default segment by the base register, a read by `readMem_ok`. -/
theorem defaultSegments : Obligations.DefaultSegments := by
  refine ⟨fun c m => ⟨fun r => operandSeg_some c r m, ?_⟩, fun s ov => ⟨fun m d n v => readMem_ok,
    fun m => ⟨readRM32_mem, readRM16_mem, readRM8_mem⟩, fun r => ⟨rfl, rfl⟩, fun r => rfl⟩⟩
  cases m with
  | base b d => cases b with
    | ebp => exact baseSeg_ebp c
    | _ => rfl
  | sib b sc ix d => cases b with
    | ebp => exact baseSeg_ebp c
    | _ => rfl
  | abs v => rfl
  | sibAbs sc ix v => rfl

end Sys2Proof.Machine
end

section
/-! SUPPORT. The effective address as an exact sum of integers, taken modulo 2^32 (rules R148, R149, R152, R191). -/

namespace Sys2Proof.Machine

open Sys2Proof

/-- The factor of a scale (rule R148). -/
def scaleFactor : Scale → Int
  | .x1 => 1 | .x2 => 2 | .x4 => 4 | .x8 => 8

/-- A displacement as an integer: 8 bits with their sign (rule R152). -/
def dispInt : Disp → Int
  | .none => 0
  | .d8 v => v.toInt
  | .d32 v => v.toNat

/-- The index component as an integer, before any wrap (rules R148, R149). -/
def indexInt (g : Regs) (sc : Scale) : Option Reg → Int
  | none => 0
  | some r => (g.get r).toNat * scaleFactor sc

/-- The sum of the address components of a memory operand, before any wrap (rule R191). -/
def addressSum (g : Regs) : MemRef → Int
  | .base b d => (g.get b).toNat + dispInt d
  | .abs v => v.toNat
  | .sib b sc ix d => (g.get b).toNat + indexInt g sc ix + dispInt d
  | .sibAbs sc ix v => v.toNat + indexInt g sc ix

theorem ofInt_toNat (w : Word) : BitVec.ofInt 32 w.toNat = w := by
  rw [BitVec.ofInt_natCast, BitVec.ofNat_toNat, BitVec.setWidth_eq]

theorem ofInt_scaleFactor (sc : Scale) : BitVec.ofInt 32 (scaleFactor sc) = BitVec.twoPow 32 (scaleShift sc) := by
  cases sc <;> rfl

theorem dispValue_eq_ofInt (d : Disp) : dispValue d = BitVec.ofInt 32 (dispInt d) := by
  cases d with
  | none => rfl
  | d8 v => rfl
  | d32 v => exact (ofInt_toNat v).symm

theorem indexValue_eq_ofInt (g : Regs) (sc : Scale) (ix : Option Reg) :
    indexValue g sc ix = BitVec.ofInt 32 (indexInt g sc ix) := by
  cases ix with
  | none => rfl
  | some r => rw [indexValue, indexInt, BitVec.ofInt_mul, ofInt_toNat, ofInt_scaleFactor, BitVec.shiftLeft_eq_mul_twoPow]

/-- Each addition of the model is one of integers, since taking an integer modulo 2^32 keeps sums. -/
theorem effAddr_eq_ofInt (g : Regs) (m : MemRef) : effAddr g m = BitVec.ofInt 32 (addressSum g m) := by
  cases m with
  | base b d => rw [effAddr, addressSum, BitVec.ofInt_add, ofInt_toNat, dispValue_eq_ofInt]
  | abs v => exact (ofInt_toNat v).symm
  | sib b sc ix d =>
    rw [effAddr, addressSum, BitVec.ofInt_add, BitVec.ofInt_add, ofInt_toNat, indexValue_eq_ofInt, dispValue_eq_ofInt]
  | sibAbs sc ix v => rw [effAddr, addressSum, BitVec.ofInt_add, ofInt_toNat, indexValue_eq_ofInt]

theorem toNat_effAddr (g : Regs) (m : MemRef) : ((effAddr g m).toNat : Int) = addressSum g m % 2 ^ 32 := by
  rw [effAddr_eq_ofInt, BitVec.toNat_ofInt]
  exact Int.toNat_of_nonneg (Int.emod_nonneg _ (by decide))

/-- Settles O16: `toNat_effAddr` at each form of a memory operand. -/
theorem effectiveAddressSum : Obligations.EffectiveAddressSum := by
  intro g scale disp index
  exact ⟨fun b d => toNat_effAddr g (.base b d), fun v => rfl, fun b sc ix d => toNat_effAddr g (.sib b sc ix d),
    fun sc ix v => toNat_effAddr g (.sibAbs sc ix v)⟩

end Sys2Proof.Machine
end

section
/-! SUPPORT. Instructions that complete: a chain of operations that all answer, what a store is to states that share memory,
and the state after a store and new values of ESP and EIP. -/

namespace Sys2Proof.Machine

open Sys2Proof

/-! ### Following a chain to what it answers -/

theorem bind_completes {α β : Type} {r : Res α} {f : α → Res β} {a : α} {b : β} (h : r = .ok a) (hf : f a = .ok b) :
    (r >>= f) = .ok b := bind_eq_ok.2 ⟨a, h, hf⟩

theorem settle_completes {s t : State} {r : Res State} (h : r = .ok t) : settle s r = .next t := by rw [h, settle_ok]

/-! ### States that share memory -/

/-- Memory, the record of written addresses and the parameters are the same: what `Stored` and `StoredDwords` look at. -/
structure SameBytes (s t : State) : Prop where
  cfg : t.cfg = s.cfg
  mem : t.mem = s.mem
  written : t.written = s.written

section SameBytes

variable {s s' t t' : State} {lin : Word}

theorem SameBytes.refl (s : State) : SameBytes s s := ⟨rfl, rfl, rfl⟩

theorem SameBytes.byteAt (h : SameBytes s t) (a : Nat) : t.byteAt a = s.byteAt a := by
  simp only [State.byteAt, h.mem]

theorem SameMemoryBut.congr {n : Nat} (h : SameMemoryBut s t lin n) (hs : SameBytes s s') (ht : SameBytes t t') :
    SameMemoryBut s' t' lin n := by
  intro a ha
  rw [storedAt_congr hs.cfg] at ha
  rw [ht.byteAt, hs.byteAt, h a ha]

theorem Recorded.congr {n : Nat} (h : Recorded s t lin n) (hs : SameBytes s s') (ht : SameBytes t t') :
    Recorded s' t' lin n := by
  intro a
  rw [ht.written, hs.written, storedAt_congr hs.cfg]
  exact h a

theorem Stored.congr {n : Nat} {v : BitVec (8 * n)} (h : Stored s t lin n v) (hs : SameBytes s s')
    (ht : SameBytes t t') : Stored s' t' lin n v := by
  obtain ⟨hv, hbut, hrec⟩ := h
  exact ⟨(linRead_congr ht.cfg fun a _ => ht.byteAt a).trans hv, hbut.congr hs ht, hrec.congr hs ht⟩

theorem StoredDwords.congr {vs : List Word} (h : StoredDwords s t lin vs) (hs : SameBytes s s') (ht : SameBytes t t') :
    StoredDwords s' t' lin vs := by
  obtain ⟨hvs, hbut, hrec⟩ := h
  exact ⟨hvs.congr ht.cfg fun a _ => ht.byteAt a, hbut.congr hs ht, hrec.congr hs ht⟩

end SameBytes

/-! ### After a store, with ESP and EIP written -/

theorem sameBytes_setEsp_jump (s : State) (esp next : Word) : SameBytes s ((s.setEsp esp).jump next) := ⟨rfl, rfl, rfl⟩

/-- A state that a store alone has changed, with ESP and EIP written, field by field. -/
theorem OnlyMem.setEsp_jump {s t : State} (h : OnlyMem s t) (esp next : Word) :
    (t.setEsp esp).jump next
      = { s with regs := { s.regs with esp := esp }, eip := next, mem := t.mem, written := t.written } := by
  unfold OnlyMem at h
  rw [h]
  rfl

/-- The same after a load of a segment register, which has stored the accessed bit. -/
theorem OnlyMem.setSeg_setEsp_jump {s t : State} (h : OnlyMem s t) (r : SReg) (v : SegReg) (esp next : Word) :
    ((t.setSeg r v).setEsp esp).jump next
      = { s with
          regs := { s.regs with esp := esp }
          eip := next
          segs := s.segs.set r v
          mem := t.mem
          written := t.written } := by
  unfold OnlyMem at h
  rw [h]
  rfl

end Sys2Proof.Machine
end

section
/-! SUPPORT. PUSH and POP: each is a push or a pop of the stack and the access of its operand, or the load of a segment
register (rules R202, R203, R220 to R227). -/

namespace Sys2Proof.Machine

open Sys2Proof

/-! ### PUSH (rules R220 to R224) -/

/-- The instruction pushes the doubleword `v` (rules R220 to R223). -/
def PushesDword (s : State) (ov : Option SReg) (i : Instr) (v : Word) : Prop :=
  (∃ r, i = .pushR32 ov r ∧ v = s.reg r) ∨ (∃ op, i = .pushRm32 ov op ∧ readRM32 s ov op = .ok v)
    ∨ i = .pushImm32 ov v ∨ ∃ imm, i = .pushImm8 ov imm ∧ v = imm.signExtend 32

/-- The operand is known before anything is stored: what is left is the push. -/
theorem exec_pushesDword {s : State} {ov : Option SReg} {i : Instr} {v : Word} (h : PushesDword s ov i v) :
    exec i s = settle s (push32 s v >>= fun t => .ok (t.jump (s.nextEip i))) := by
  obtain ⟨r, rfl, rfl⟩ | ⟨op, rfl, hv⟩ | rfl | ⟨imm, rfl, rfl⟩ := h
  · rfl
  · simp only [exec, execPushRm32, hv, ok_bind, pure_eq_ok]
  · rfl
  · rfl

/-- A push completes where the four bytes below ESP may be written. -/
theorem push32_completes {s : State} (v : Word) (hs : MemInv s) (h : Writable s .ss (s.esp - 4) 4) :
    ∃ u, push32 s v = .ok (u.setEsp (s.esp - 4)) ∧ Stored s u (s.linear .ss (s.esp - 4)) 4 v ∧ OnlyMem s u := by
  obtain ⟨u, hu⟩ := segWrite_of_writable v h
  obtain ⟨hst, ho, -⟩ := segWrite_spec hu hs (by omega)
  exact ⟨u, push32_ok.2 ⟨u, hu, rfl⟩, hst, ho⟩

/-- Settles O18: every form comes down to one push, by `exec_pushesDword`. -/
theorem pushStoresDoubleword : Obligations.PushStoresDoubleword := by
  intro s ov i v hi
  rw [exec_pushesDword hi]
  refine ⟨fun hs hw => ?_, fun x hx => settle_raises (bind_first_error (push32_raises hx))⟩
  obtain ⟨u, hpush, hst, ho⟩ := push32_completes v hs hw
  exact ⟨_, settle_completes (bind_completes hpush rfl), hst.congr (.refl s) (sameBytes_setEsp_jump u _ _),
    ho.setEsp_jump _ _⟩

theorem exec_pushesSegment {s : State} {i : Instr} {r : SReg} (h : PushesSegment i r) :
    exec i s = settle s (pushSeg s r (s.nextEip i)) := by
  obtain ⟨ov, ⟨rfl, rfl⟩ | ⟨rfl, rfl⟩ | ⟨rfl, rfl⟩ | ⟨rfl, rfl⟩ | ⟨rfl, rfl⟩ | ⟨rfl, rfl⟩⟩ := h <;> rfl

/-- Settles O19: `storeSelSlot_spec` says what the slot holds, and that one free value has been used. -/
theorem pushSegmentStoresSelector : Obligations.PushSegmentStoresSelector := by
  intro s ov i r hs hi hw
  rw [exec_pushesSegment ⟨ov, hi⟩]
  obtain ⟨u, hu⟩ := storeSelSlot_completes (s.seg r).sel hw
  obtain ⟨⟨hi, hst⟩, ho, -⟩ := storeSelSlot_spec hu hs
  exact ⟨_, hi, settle_completes (bind_completes hu rfl), hst.congr (.refl s) (sameBytes_setEsp_jump u _ _),
    ho.setEsp_jump _ _⟩

/-! ### POP of a general register or to memory (rules R225, R226) -/

/-- A write of a general register between two writes of the same value to ESP leaves that value in ESP. -/
theorem Regs.set_between_esp (g : Regs) (r : Reg) (v esp : Word) :
    { Regs.set { g with esp := esp } r v with esp := esp } = { g.set r v with esp := esp } := by
  cases r <;> rfl

/-- Settles O20: the destination is written in the state that the pop answers, whose ESP is 4 higher. -/
theorem popLoadsOperand : Obligations.PopLoadsOperand := by
  intro s ov v hv
  have hpop : pop32 s = .ok (v, s.setEsp (s.esp + 4)) := pop32_ok.2 ⟨hv, rfl⟩
  refine ⟨fun r => settle_completes (bind_completes hpop rfl), fun r => ?_, fun m hs hw => ?_⟩
  · rw [← Regs.set_between_esp]
    exact settle_completes (bind_completes hpop rfl)
  · have hw' : Writable (s.setEsp (s.esp + 4)) (operandSeg s.cfg ov m) ((s.setEsp (s.esp + 4)).ea m) 4 :=
      (writable_congr rfl rfl).2 hw
    obtain ⟨u, hu⟩ := segWrite_of_writable v hw'
    obtain ⟨hst, ho, -⟩ := segWrite_spec hu (s := s.setEsp (s.esp + 4)) hs (by omega)
    exact ⟨_, settle_completes (bind_completes hpop (bind_completes (a := u) hu rfl)),
      hst.congr ⟨rfl, rfl, rfl⟩ (sameBytes_setEsp_jump u _ _), ho.setEsp_jump _ _⟩

/-! ### POP of a segment register (rule R227) -/

/-- The load of DS, ES, FS or GS completes on a descriptor that passes its checks, and stores its accessed bit. -/
theorem loadSeg_data_completes {s : State} {r : SReg} {sel : Half} {d : BitVec 64} (hs : MemInv s) (hcs : r ≠ .cs)
    (hss : r ≠ .ss) (h : DataLoadable s sel d) : ∃ u, Accessed s u sel d ∧ OnlyMem s u
      ∧ loadSeg s r sel = .ok (u.setSeg r { sel := sel, cache := cacheOf d (descDpl d) }) := by
  obtain ⟨hnull, hd, hcheck⟩ := h
  obtain ⟨u, hu⟩ := setAccessed_completes hd rfl rfl
  obtain ⟨hacc, ho, -⟩ := setAccessed_spec hu hs
  exact ⟨u, hacc, ho, (loadSeg_data_ok hcs hss).2 (.inr ⟨hnull, d, u, hd, checkDataDesc_ok.2 hcheck, hu, rfl⟩)⟩

/-- The load of SS completes on a descriptor that passes its checks, and stores its accessed bit. -/
theorem loadSeg_ss_completes {s : State} {sel : Half} {d : BitVec 64} (hs : MemInv s) (h : StackLoadable s sel d) :
    ∃ u, Accessed s u sel d ∧ OnlyMem s u
      ∧ loadSeg s .ss sel = .ok (u.setSeg .ss { sel := sel, cache := cacheOf d (descDpl d) }) := by
  obtain ⟨hnull, hd, hcheck⟩ := h
  obtain ⟨u, hu⟩ := setAccessed_completes hd rfl rfl
  obtain ⟨hacc, ho, -⟩ := setAccessed_spec hu hs
  exact ⟨u, hacc, ho, loadSeg_ss_ok.2 ⟨hnull, d, u, hd, checkStackDesc_ok.2 hcheck, hu, rfl⟩⟩

/-- Once the slot has been read and the register loaded, ESP and EIP are written. -/
theorem popSeg_completes {s t : State} {r : SReg} {v : Word} (next : Word) (hv : segRead s .ss s.esp 4 = .ok v)
    (hload : loadSeg s r (v.extractLsb' 0 16) = .ok t) :
    popSeg s r next = .ok ((t.setEsp (s.esp + 4)).jump next) := bind_completes hv (bind_completes hload rfl)

theorem popsSegment_ne_cs {i : Instr} {r : SReg} (h : PopsSegment i r) : r ≠ .cs := by
  obtain ⟨ov, ⟨-, rfl⟩ | ⟨-, rfl⟩ | ⟨-, rfl⟩ | ⟨-, rfl⟩ | ⟨-, rfl⟩⟩ := h <;> decide

/-- But for POP SS, which sets the shadow too, a POP of a segment register is `popSeg`. -/
theorem exec_popsSegment {s : State} {i : Instr} {r : SReg} (h : PopsSegment i r) (hss : r ≠ .ss) :
    exec i s = settle s (popSeg s r (s.nextEip i)) := by
  obtain ⟨ov, ⟨rfl, rfl⟩ | ⟨rfl, rfl⟩ | ⟨rfl, rfl⟩ | ⟨rfl, rfl⟩ | ⟨rfl, rfl⟩⟩ := h
  · rfl
  · exact absurd rfl hss
  · rfl
  · rfl
  · rfl

/-- Settles O21: the two ways in which the load of a data segment register answers. -/
theorem popDataSegment : Obligations.PopDataSegment := by
  intro s ov i r v hs hi hv
  have hpops : PopsSegment i r := ⟨ov, by tauto⟩
  have hcs := popsSegment_ne_cs hpops
  have hss : r ≠ .ss := by obtain ⟨-, rfl⟩ | ⟨-, rfl⟩ | ⟨-, rfl⟩ | ⟨-, rfl⟩ := hi <;> decide
  rw [exec_popsSegment hpops hss]
  refine ⟨fun hnull => ?_, fun d hd => ?_⟩
  · exact settle_completes (popSeg_completes _ hv ((loadSeg_data_ok hcs hss).2 (.inl ⟨hnull, rfl⟩)))
  · obtain ⟨u, hacc, ho, hload⟩ := loadSeg_data_completes hs hcs hss hd
    exact ⟨u, hacc, settle_completes ((popSeg_completes _ hv hload).trans (congrArg _ (ho.setSeg_setEsp_jump ..)))⟩

/-- Settles O22: the load of SS, and the shadow after it. -/
theorem popStackSegment : Obligations.PopStackSegment := by
  intro s ov v d hs hv hd
  obtain ⟨u, hacc, ho, hload⟩ := loadSeg_ss_completes hs hd
  exact ⟨u, hacc, settle_completes (bind_completes
    ((popSeg_completes _ hv hload).trans (congrArg _ (ho.setSeg_setEsp_jump ..))) rfl)⟩

end Sys2Proof.Machine
end

section
/-! SUPPORT. PUSHA and POPA: the range below ESP, whole or in two pieces, and the doublewords read from a block (rules R228,
R229). -/

namespace Sys2Proof.Machine

open Sys2Proof

/-! ### PUSHA (rule R228) -/

/-- Bytes that lie inside a segment do not wrap past FFFFFFFFh (rule R90). -/
theorem limitOk_noWrap {c : Cache} {off : Word} {n : Nat} (h : limitOk c off n = true) : off.toNat + n ≤ 2 ^ 32 := by
  simp only [limitOk, Bool.and_eq_true, decide_eq_true_eq] at h
  omega

/-- Where the 32 bytes pass as one range, they do not wrap, and PUSHA checks them as one range. -/
theorem checkPushaRange_of_whole {s : State} {t : Word} (h : segCheck s .ss (t - 32) 32 .write = .ok ()) :
    checkPushaRange s t = .ok () := by
  obtain ⟨-, -, -, hlim⟩ := segCheck_ok.1 h
  have hwrap := limitOk_noWrap hlim
  rwa [checkPushaRange_whole (by bv_omega)]

/-- The bytes below `top` wrap below offset 0, and both pieces, each of whole doublewords, may be written (rule R228). -/
def PushaPieces (s : State) (top : Word) : Prop :=
  0 < top.toNat ∧ top.toNat < 32 ∧ top.toNat % 4 = 0 ∧ Writable s .ss (top - 32) (32 - top.toNat)
    ∧ Writable s .ss 0 top.toNat

theorem PushaPieces.checkPushaRange {s : State} {top : Word} (h : PushaPieces s top) :
    checkPushaRange s top = .ok () := by
  obtain ⟨hpos, hlt, -, hlow, hhigh⟩ := h
  rw [checkPushaRange_pieces hpos hlt]
  exact bind_completes hlow.1 hhigh.1

/-- No slot straddles offset 0: the slots that lie above it are part of the upper piece, the others of the lower one. -/
theorem PushaPieces.slots {s : State} {top : Word} (h : PushaPieces s top) :
    ∀ k < 8, Writable s .ss (top - BitVec.ofNat 32 (4 * (k + 1))) 4 := by
  obtain ⟨-, hlt, hmul, hlow, hhigh⟩ := h
  intro k hk
  by_cases hup : 4 * (k + 1) ≤ top.toNat
  · have hslot := hhigh.sub (k := top.toNat - 4 * (k + 1)) (m := 4) (by omega) (by omega)
    rwa [show (0 : Word) + BitVec.ofNat 32 (top.toNat - 4 * (k + 1)) = top - BitVec.ofNat 32 (4 * (k + 1)) by
      bv_omega] at hslot
  · have hslot := hlow.sub (k := 32 - 4 * (k + 1)) (m := 4) (by omega) (by omega)
    rwa [show top - 32 + BitVec.ofNat 32 (32 - 4 * (k + 1)) = top - BitVec.ofNat 32 (4 * (k + 1)) by
      bv_omega] at hslot

/-- Settles O23: the check of the range passes and every slot may be written, as one range or as two pieces. -/
theorem pushaStoresAllRegisters : Obligations.PushaStoresAllRegisters := by
  intro s ov hs hw
  obtain ⟨hcheck, hslots⟩ : checkPushaRange s s.esp = .ok ()
      ∧ ∀ k < 8, Writable s .ss (s.esp - BitVec.ofNat 32 (4 * (k + 1))) 4 := by
    obtain hw | (hw : PushaPieces s s.esp) := hw
    · exact ⟨checkPushaRange_of_whole hw.1, Writable.slots (m := 8) hw⟩
    · exact ⟨hw.checkPushaRange, hw.slots⟩
  obtain ⟨u, hu⟩ := storeDown_completes
    [s.regs.eax, s.regs.ecx, s.regs.edx, s.regs.ebx, s.esp, s.regs.ebp, s.regs.esi, s.regs.edi] hslots
  obtain ⟨hst, ho, -⟩ := storeDown_spec hu hs (by simp)
  exact ⟨_, settle_completes (bind_completes hcheck (bind_completes hu rfl)),
    hst.congr (.refl s) (sameBytes_setEsp_jump u _ _), ho.setEsp_jump _ _⟩

/-! ### POPA (rule R229) -/

/-- A doubleword of a block, read at its place. -/
theorem HoldsDwords.linRead {s : State} {lin : Word} {vs : List Word} (h : HoldsDwords s lin vs) {k : Nat}
    (hk : k < vs.length) : linRead s (lin + BitVec.ofNat 32 (4 * k)) 4 = .ok vs[k] := by
  induction vs generalizing lin k with
  | nil => cases hk
  | cons v vs ih =>
    obtain ⟨hv, hvs⟩ := h
    cases k with
    | zero => simpa using hv
    | succ k =>
      have := ih hvs (k := k) (by simpa using hk)
      rwa [show (4 : Word) = BitVec.ofNat 32 4 from rfl, add_ofNat_add, Nat.add_comm, ← Nat.mul_succ] at this

/-- Settles O24: each doubleword of the block is read at its place in the range that has been checked. -/
theorem popaLoadsAllRegisters : Obligations.PopaLoadsAllRegisters := by
  intro s ov edi esi ebp skipped ebx edx ecx eax hcheck hdwords
  have slot {k : Nat} (hk : k < 8) :
      segRead s .ss (s.esp + BitVec.ofNat 32 (4 * k)) 4 = .ok [edi, esi, ebp, skipped, ebx, edx, ecx, eax][k] :=
    segRead_part hcheck (by omega) (hdwords.linRead hk)
  have first : segRead s .ss (s.esp + 0#32) 4 = .ok edi := slot (k := 0) (by omega)
  rw [BitVec.add_zero] at first
  exact settle_completes <| bind_completes hcheck <| bind_completes first <| bind_completes (slot (k := 1) (by omega)) <|
    bind_completes (slot (k := 2) (by omega)) <| bind_completes (slot (k := 4) (by omega)) <|
    bind_completes (slot (k := 5) (by omega)) <| bind_completes (slot (k := 6) (by omega)) <|
    bind_completes (slot (k := 7) (by omega)) rfl

/-! ### PUSHA, then POPA -/

/-- What may be written may be read: a segment that is written is a data segment (rule R90). -/
theorem segCheck_read_of_write {s : State} {r : SReg} {off : Word} {n : Nat} (h : segCheck s r off n .write = .ok ()) :
    segCheck s r off n .read = .ok () := by
  obtain ⟨hvalid, hrights, -, hlim⟩ := segCheck_ok.1 h
  refine segCheck_ok.2 ⟨hvalid, ?_, nofun, hlim⟩
  simp only [rightsOk, Bool.and_eq_true] at hrights
  simp only [rightsOk, hrights.1, Bool.true_or]

/-- Settles O25: POPA reads, at the ESP that PUSHA leaves, the block that PUSHA has stored. -/
theorem pushaThenPopaRestores : Obligations.PushaThenPopaRestores := by
  intro s ov ov' hs hw
  obtain ⟨t, hpusha, ⟨hdwords, -, -⟩, ht⟩ := pushaStoresAllRegisters s ov hs (.inl hw)
  have hesp : t.esp = s.esp - 32 := by rw [ht]; rfl
  have hsegs : t.segs = s.segs := by rw [ht]
  have hseg : t.seg .ss = s.seg .ss := congrArg (SegRegs.get · .ss) hsegs
  have hlin : t.linear .ss t.esp = s.linear .ss (s.esp - 32) := by unfold State.linear; rw [hseg, hesp]
  have hread : segCheck t .ss t.esp 32 .read = .ok () := by
    rw [hesp, segCheck_congr (s := s) (by rw [hseg])]
    exact segCheck_read_of_write hw.1
  rw [← hlin] at hdwords
  refine ⟨t, _, hpusha, popaLoadsAllRegisters t ov' _ _ _ _ _ _ _ _ hread hdwords, ?_, ?_⟩
  · simp only [hesp, BitVec.sub_add_cancel]
    rfl
  · rw [ht]
    exact ⟨rfl, rfl, rfl, rfl, rfl⟩

end Sys2Proof.Machine
end

section
/-! SUPPORT. The examples of the spec's encodings. -/

namespace Sys2Proof

/-- Settles O3: each word is the encoding of its instruction (rules R130 to R165), and decoding reads encodings back. -/
theorem decodesExampleWords : Obligations.DecodesExampleWords :=
  ⟨encodeThenDecode (.pushR32 none .eax) [] rfl,
    encodeThenDecode (.jmpPtr1632 none 0x1000 0x0008) [] rfl,
    encodeThenDecode (.movSregRm16 none .ds (.reg .eax)) [] rfl,
    encodeThenDecode (.lgdt none (.abs 0x500)) [] rfl,
    encodeThenDecode (.ltr none (.reg .eax)) [] rfl,
    encodeThenDecode (.intN none 0x30) [] rfl,
    encodeThenDecode (.movRm32R32 none (.mem (.sib .esp .x1 none (.d8 4))) .eax) [] rfl,
    encodeThenDecode (.movR32Rm32 none .eax (.mem (.sib .ebx .x4 (some .ecx) (.d32 0x100)))) [] rfl,
    encodeThenDecode (.addR32Rm32 none .eax (.mem (.sibAbs .x4 (some .esi) 0x3000))) [] rfl⟩

end Sys2Proof
end

section
/-! SUPPORT. The current privilege level after each effect of an instruction (rules R33, R258, R386, R388). -/

namespace Sys2Proof.Machine

open Sys2Proof

theorem SameSystem.cpl {s t : State} (h : SameSystem s t) : t.cpl = s.cpl := by
  simp only [State.cpl, h.segs]

/-- CPL changes only where CS does: a load of another segment register keeps it (rule R33). -/
theorem cpl_setSeg {s : State} {r : SReg} (h : r ≠ .cs) (v : SegReg) : (s.setSeg r v).cpl = s.cpl := by
  have hcs : (s.setSeg r v).seg .cs = s.seg .cs := by rw [State.seg_setSeg, if_neg (Ne.symm h)]
  exact congrArg (·.cache.priv) hcs

theorem loadSeg_cpl {s t : State} {r : SReg} {sel : Half} (h : loadSeg s r sel = .ok t) : t.cpl = s.cpl := by
  by_cases hcs : r = .cs
  · subst hcs; cases h
  by_cases hss : r = .ss
  · subst hss
    obtain ⟨d, -, hsame⟩ := loadSeg_ss_same h
    exact hsame.cpl.trans (cpl_setSeg hcs _)
  · obtain ⟨v, hsame, -⟩ := loadSeg_data_same hcs hss h
    exact hsame.cpl.trans (cpl_setSeg hcs _)

/-- A load of CS makes its level the current one (rule R104). -/
theorem loadCS_cpl {s t : State} {sel : Half} {d : BitVec 64} {lvl : Level} (h : loadCS s sel d lvl = .ok t) :
    t.cpl = lvl := (loadCS_same h).2.cpl

/-- Entry through a gate never goes to a less privileged level (rules R370, R386). -/
theorem deliver_cpl_le {s t : State} {k : EventKind} {v : Byte} {e : Option Half} {p : Word}
    (h : deliver s k v e p = .ok t) : t.cpl ≤ s.cpl := by
  obtain ⟨g, d, ss, hentry, -, hsame⟩ := deliver_system h
  obtain ⟨-, -, -, -, hdpl, -⟩ := hentry
  have hcpl : t.cpl = descDpl d := hsame.cpl
  rwa [hcpl]

/-- A far return makes the level it goes to the current one. -/
theorem ReturnedSegs.cpl {s : State} {sel : Half} {d : BitVec 64} {lvl : Level} {g : SegRegs}
    (h : ReturnedSegs s sel d lvl g) : g.cs.cache.priv = lvl := by
  obtain ⟨-, rfl⟩ | ⟨-, -, -, rfl⟩ := h
  · rfl
  · rfl

/-- A far return never goes to a more privileged level (rules R256, R258). -/
theorem farReturn_le_cpl {s t : State} {isIret : Bool} {extra : Word} (h : farReturn s isIret extra = .ok t) :
    s.cpl ≤ t.cpl := by
  obtain ⟨sel, off, d, lvl, g, f, htarget, hg, -, hsame⟩ := farReturn_system h
  obtain ⟨-, -, -, -, -, hlvl, -⟩ := htarget
  have hcpl : t.cpl = lvl := hsame.cpl.trans hg.cpl
  rwa [hcpl]

/-- The instructions that return far (rules R253, R254, R300). -/
def ReturnsFar (i : Instr) : Prop :=
  ∃ ov, i = .retFar ov ∨ (∃ imm, i = .retFarImm16 ov imm) ∨ i = .iret ov

/-- Everything an instruction can do to CPL: nothing, a far return outward, or entry through a gate inward. -/
theorem Effect.cpl {i : Instr} {s t : State} (h : Effect i s t) :
    t.cpl = s.cpl ∨ s.cpl ≤ t.cpl ∧ ReturnsFar i ∨ t.cpl ≤ s.cpl ∧ ∃ k v e p, deliver s k v e p = .ok t := by
  cases h with
  | same h => exact .inl h.cpl
  | add a b h => exact .inl h.cpl
  | interruptFlag b priv h => exact .inl h.cpl
  | segLoad r sel u load h => exact .inl (h.cpl.trans (loadSeg_cpl load))
  | farTransfer sel off d u w target store load h => exact .inl (h.cpl.trans (loadCS_cpl load))
  | retFar extra hi h =>
    obtain ⟨ov, hi | hi⟩ := hi
    · exact .inr (.inl ⟨farReturn_le_cpl h, ov, .inl hi⟩)
    · exact .inr (.inl ⟨farReturn_le_cpl h, ov, .inr (.inl hi)⟩)
  | iret u hi ret h =>
    obtain ⟨ov, hi⟩ := hi
    exact .inr (.inl ⟨by rw [h.cpl]; exact farReturn_le_cpl ret, ov, .inr (.inr hi)⟩)
  | system priv segs eflags cfg => exact .inl (congrArg (·.cs.cache.priv) segs)
  | delivery k v e p h => exact .inr (.inr ⟨deliver_cpl_le h, k, v, e, p, h⟩)

/-- Settles O58: each of the three ways of `Effect.cpl` allows one direction only. -/
theorem privilegeChangesOnlyByGateOrReturn : Obligations.PrivilegeChangesOnlyByGateOrReturn := by
  intro i s t h
  obtain heq | ⟨hle, hret⟩ | ⟨hle, hdel⟩ := (exec_effect h).cpl
  · rw [heq]
    exact ⟨fun hlt => absurd hlt (BitVec.lt_irrefl _), fun hlt => absurd hlt (BitVec.lt_irrefl _)⟩
  · exact ⟨fun _ => hret, fun hlt => absurd hlt (BitVec.not_lt.2 hle)⟩
  · exact ⟨fun hlt => absurd hlt (BitVec.not_lt.2 hle), fun _ => hdel⟩

end Sys2Proof.Machine
end

section
/-! SUPPORT. The near transfers: each reads its target, checks it against the limit of CS, and jumps, calls or returns
(rules R240 to R250). -/

namespace Sys2Proof.Machine

open Sys2Proof

/-! ### Instructions as transfers to their target -/

/-- The instruction is a near JMP to `target` (rules R241, R242). -/
def NearJump (s : State) (i : Instr) (target : Word) : Prop :=
  ∃ ov, (∃ rel, i = .jmpRel8 ov rel ∧ target = s.nextEip i + rel.signExtend 32)
    ∨ (∃ rel, i = .jmpRel32 ov rel ∧ target = s.nextEip i + rel)
    ∨ ∃ op, i = .jmpRm32 ov op ∧ readRM32 s ov op = .ok target

section Transfers

variable {s : State} {i : Instr} {target ret extra : Word}

theorem exec_nearJump (h : NearJump s i target) : exec i s = settle s (nearJump s target) := by
  obtain ⟨ov, ⟨rel, rfl, rfl⟩ | ⟨rel, rfl, rfl⟩ | ⟨op, rfl, ht⟩⟩ := h
  · rfl
  · rfl
  · simp only [exec, execJmpRm32, ht, ok_bind]

/-- The return address of a near CALL is the next instruction's offset (rules R245, R246). -/
theorem exec_nearCall_next (h : NearCall s i target) : exec i s = settle s (nearCall s target (s.nextEip i)) := by
  obtain ⟨ov, ⟨rel, rfl, rfl⟩ | ⟨op, rfl, ht⟩⟩ := h
  · rfl
  · simp only [exec, execCallRm32, ht, ok_bind]

/-! ### The target check (rule R240) -/

theorem checkTarget_raises (h : effLimit s.segs.cs.cache.limit s.segs.cs.cache.g < target) :
    checkTarget s target = .error (.raise (.gp 0)) := raiseIf_of (decide_eq_true h)

theorem checkTarget_passes (h : target ≤ effLimit s.segs.cs.cache.limit s.segs.cs.cache.g) :
    checkTarget s target = .ok () := checkTarget_ok.2 h

theorem nearRet_completes (hread : segRead s .ss s.esp 4 = .ok target)
    (h : target ≤ effLimit s.segs.cs.cache.limit s.segs.cs.cache.g) :
    nearRet s extra = .ok ((s.setEsp (s.esp + 4 + extra)).jump target) :=
  bind_completes hread (bind_completes (checkTarget_passes h) rfl)

theorem nearRet_raises (hread : segRead s .ss s.esp 4 = .ok target)
    (h : effLimit s.segs.cs.cache.limit s.segs.cs.cache.g < target) : nearRet s extra = .error (.raise (.gp 0)) :=
  bind_next_error hread (bind_first_error (checkTarget_raises h))

end Transfers

/-! ### The statements -/

/-- Settles O26: behind the target check nothing is left but the jump. -/
theorem nearJumpCompletes : Obligations.NearJumpCompletes := by
  intro s ov i target hi h
  rw [exec_nearJump ⟨ov, hi⟩]
  exact settle_completes (bind_completes (checkTarget_passes h) rfl)

/-- Settles O27: behind the target check the call is a push and a jump. -/
theorem nearCallCompletes : Obligations.NearCallCompletes := by
  intro s ov i target hs hi h hw
  rw [exec_nearCall_next ⟨ov, hi⟩]
  obtain ⟨u, hpush, hst, ho⟩ := push32_completes (s.nextEip i) hs hw
  exact ⟨_, settle_completes (bind_completes (checkTarget_passes h) (bind_completes hpush rfl)),
    hst.congr (.refl s) (sameBytes_setEsp_jump u _ _), ho.setEsp_jump _ _⟩

/-- Settles O28: RET releases nothing more than its slot. -/
theorem nearReturnCompletes : Obligations.NearReturnCompletes := by
  intro s ov target hread h
  refine ⟨?_, fun imm => settle_completes (nearRet_completes hread h)⟩
  have hret := nearRet_completes (extra := 0) hread h
  rw [show s.esp + 4 + 0 = s.esp + 4 from BitVec.add_zero _] at hret
  exact settle_completes hret

/-- Settles O29: every near transfer knows its target before it pushes or releases anything, and the check comes next. -/
theorem nearTargetBeyondLimitRaises : Obligations.NearTargetBeyondLimitRaises := by
  intro s ov i target hi h
  have hcheck := checkTarget_raises h
  have jump (hi : NearJump s i target) : exec i s = takeException s (.gp 0) :=
    (exec_nearJump hi).trans (settle_raises (bind_first_error hcheck))
  have call (hi : NearCall s i target) : exec i s = takeException s (.gp 0) :=
    (exec_nearCall_next hi).trans (settle_raises (bind_first_error hcheck))
  obtain hi | hi | hi | hi | hi | ⟨rfl, hread⟩ | ⟨imm, rfl, hread⟩ := hi
  · exact jump ⟨ov, .inl hi⟩
  · exact jump ⟨ov, .inr (.inl hi)⟩
  · exact jump ⟨ov, .inr (.inr hi)⟩
  · exact call ⟨ov, .inl hi⟩
  · exact call ⟨ov, .inr hi⟩
  · exact settle_raises (nearRet_raises hread h)
  · exact settle_raises (nearRet_raises hread h)

end Sys2Proof.Machine
end

section
/-! SUPPORT. The far transfers: the load of CS, JMP and CALL through it, and far RET to the same and to an outer level
(rules R104, R243 to R256). -/

namespace Sys2Proof.Machine

open Sys2Proof

/-! ### The load of CS (rules R103, R104) -/

/-- Once its descriptor has been read, the accessed bit is set. -/
theorem setAccessed_answers {s t : State} {sel : Half} {d : BitVec 64} (hd : readDesc s sel = .ok d)
    (hg : t.gdtr = s.gdtr) (hc : t.cfg = s.cfg) (ht : MemInv t) :
    ∃ u, setAccessed t sel d = .ok u ∧ Accessed t u sel d ∧ OnlyMem t u ∧ MemInv u := by
  obtain ⟨u, hu⟩ := setAccessed_completes hd hg hc
  exact ⟨u, hu, setAccessed_spec hu ht⟩

/-- Where setting the accessed bit leads from `s` to `u`, the load of CS in a state with the memory of `s` leaves the memory
of `u`. -/
theorem loadCS_frame {s t u : State} {sel : Half} {d : BitVec 64} {lvl : Level} (hdb : descDB d = true)
    (h : setAccessed s sel d = .ok u) (hg : t.gdtr = s.gdtr) (hb : SameBytes s t) :
    loadCS t sel d lvl = .ok { t with
      segs := { t.segs with cs := loadedCS t.cfg sel d lvl }
      mem := u.mem
      written := u.written } :=
  loadCS_ok.2 ⟨hdb, _, setAccessed_frame h hb.cfg hg hb.mem hb.written, rfl⟩

/-! ### Far JMP (rules R243, R244) -/

section Transfers

variable {s : State} {i : Instr} {off : Word} {sel : Half} {d : BitVec 64}

theorem FarTargetOk.farTarget (h : FarTargetOk s sel off d) : farTarget s sel off = .ok d := by
  obtain ⟨hn, hr, hk, hce, hdpl, hrpl, hp, hoff, -⟩ := h
  exact farTarget_ok.2 ⟨hn, hr, hk, hce, hdpl, hrpl, hp, hoff⟩

theorem FarTargetOk.readDesc (h : FarTargetOk s sel off d) : readDesc s sel = .ok d := by
  obtain ⟨-, hr, -⟩ := h
  exact hr

theorem FarTargetOk.descDB (h : FarTargetOk s sel off d) : descDB d = true := by
  obtain ⟨-, -, -, -, -, -, -, -, hdb⟩ := h
  exact hdb

theorem exec_farJump (hi : FarPointer s i false off sel) : exec i s = settle s (farJump s off sel) := by
  obtain ⟨_, hexec⟩ := exec_farPointer hi
  exact hexec

/-- The return address of a far CALL is the next instruction's offset (rules R247, R248). -/
theorem exec_farCall (hi : FarPointer s i true off sel) : exec i s = settle s (farCall s off sel (s.nextEip i)) := by
  obtain ⟨ov, ⟨h, -⟩ | ⟨-, rfl⟩ | ⟨m, ⟨h, -⟩ | ⟨-, rfl⟩, hoff, hsel⟩⟩ := hi
  · cases h
  · rfl
  · cases h
  · have hptr : readFarPtr s ov m = .ok (off, sel) := bind_completes hoff (bind_completes hsel rfl)
    simp only [exec, execCallM1632, hptr, ok_bind]

end Transfers

/-- Settles O30: the target passes, and the load of CS and the jump are all that follows. -/
theorem farJumpCompletes : Obligations.FarJumpCompletes := by
  intro s ov i off sel d hs hi hd
  have hptr : FarPointer s i false off sel := ⟨ov, by simpa using hi⟩
  rw [exec_farJump hptr]
  obtain ⟨u, hu, hacc, -⟩ := setAccessed_answers hd.readDesc rfl rfl hs
  exact ⟨u, hacc, settle_completes (bind_completes hd.farTarget
    (bind_completes (loadCS_frame hd.descDB hu rfl (.refl s)) rfl))⟩

/-! ### Far CALL (rules R247, R248) -/

theorem StoredDwords.single {s t : State} {lin v : Word} (h : Stored s t lin 4 v) : StoredDwords s t lin [v] := by
  obtain ⟨hv, hbut, hrec⟩ := h
  exact ⟨⟨hv, trivial⟩, hbut, hrec⟩

/-- The two stores of a far CALL: the selector slot at SS:ESP-4, then the return address below it. -/
theorem farCallFrame_completes {s : State} (sel : Half) (ret : Word) (hs : MemInv s) (hw : Writable s .ss (s.esp - 8) 8) :
    ∃ (hi : Half) (s1 s2 : State), storeSelSlot s (s.esp - 4) sel = .ok s1 ∧ segWrite s1 .ss (s.esp - 8) 4 ret = .ok s2
      ∧ StoredDwords s s2 (s.linear .ss (s.esp - 8)) [ret, hi ++ sel]
      ∧ OnlyMem { s with freeCount := s.freeCount + 1 } s2 ∧ MemInv s2 := by
  have hslots := Writable.slots (m := 2) hw
  have hslot : Writable s .ss (s.esp - 4) 4 := hslots 0 (by omega)
  obtain ⟨s1, h1⟩ := storeSelSlot_completes sel hslot
  obtain ⟨⟨hi, hst1⟩, ho1, hm1⟩ := storeSelSlot_spec h1 hs
  have hw1 : Writable s1 .ss (s.esp - 8) 4 := ho1.writable.2 (hslots 1 (by omega))
  obtain ⟨s2, h2⟩ := segWrite_of_writable ret hw1
  obtain ⟨hst2, ho2, hm2⟩ := segWrite_spec h2 hm1 (by omega)
  have habove : s.linear .ss (s.esp - 4) = s.linear .ss (s.esp - 8) + 4 := by
    rw [← linear_add]
    congr 1
    bv_omega
  rw [habove] at hst1
  rw [ho1.linear] at hst2
  have hst := StoredDwords.snoc (vs := [ret]) (by simp) ho1.cfg ho2.cfg hst1 (.single hst2)
  exact ⟨hi, s1, s2, h1, h2, hst, ho1.trans ho2, hm2⟩

/-- Settles O31: the frame, then the load of CS over it. -/
theorem farCallCompletes : Obligations.FarCallCompletes := by
  intro s ov i off sel d hs hi hd hw
  have hptr : FarPointer s i true off sel := ⟨ov, by simpa using hi⟩
  rw [exec_farCall hptr]
  obtain ⟨hi, w1, w2, h1, h2, hst, ho, hm⟩ := farCallFrame_completes s.segs.cs.sel (s.nextEip i) hs hw
  have hb : SameBytes w2 { s with mem := w2.mem, written := w2.written } := ⟨ho.cfg.symm, rfl, rfl⟩
  obtain ⟨u, hu, hacc, -⟩ := setAccessed_answers (t := { s with mem := w2.mem, written := w2.written }) hd.readDesc rfl rfl hm
  have hload := loadCS_frame (t := w2.setEsp (s.esp - 8)) (lvl := s.cpl) hd.descDB hu ho.gdtr ⟨ho.cfg, rfl, rfl⟩
  refine ⟨hi, _, u, hst.congr (.refl s) hb, rfl, hacc, settle_completes (bind_completes hd.farTarget
    (bind_completes hw.1 (bind_completes h1 (bind_completes h2 (bind_completes hload ?_)))))⟩
  unfold OnlyMem at ho
  rw [ho]
  rfl

/-! ### Far RET (rules R253, R254, R256) -/

section Returns

variable {s : State} {i : Instr} {extra off slot : Word} {sel : Half} {d : BitVec 64} {lvl : Level}

theorem ReturnTargetOk.readDesc (h : ReturnTargetOk s sel off d lvl) : readDesc s sel = .ok d := by
  obtain ⟨-, hr, -⟩ := h
  exact hr

theorem ReturnTargetOk.descDB (h : ReturnTargetOk s sel off d lvl) : descDB d = true := by
  obtain ⟨-, -, -, -, -, -, -, -, -, hdb⟩ := h
  exact hdb

theorem ReturnTargetOk.returnLevel (h : ReturnTargetOk s sel off d lvl) : returnLevel s.cfg sel d = lvl := by
  obtain ⟨-, -, -, -, hlvl, -⟩ := h
  unfold Machine.returnLevel
  split at hlvl
  · next hh => rw [if_pos hh, hlvl]
  · next hh => rw [if_neg hh, hlvl]

theorem ReturnTargetOk.checkReturnCS (h : ReturnTargetOk s sel off d lvl) : checkReturnCS s sel d off = .ok () := by
  have hlevel := h.returnLevel
  obtain ⟨-, -, hk, hce, -, hcpl, hdpl, hp, hoff, -⟩ := h
  exact checkReturnCS_ok.2 (by rw [hlevel]; exact ⟨hk, hce, hcpl, hdpl, hp, hoff⟩)

/-- The instruction is a far RET that releases `extra` bytes more (rules R253, R254). -/
def FarRet (i : Instr) (extra : Word) : Prop :=
  ∃ ov, i = .retFar ov ∧ extra = 0 ∨ ∃ imm : BitVec 16, i = .retFarImm16 ov imm ∧ extra = imm.setWidth 32

theorem exec_farRet (h : FarRet i extra) : exec i s = settle s (farReturn s false extra) := by
  obtain ⟨ov, ⟨rfl, rfl⟩ | ⟨imm, rfl, rfl⟩⟩ := h
  · rfl
  · rfl

/-- Through a frame that may be read and names an admissible target, a far RET comes to the return to its level. -/
theorem exec_farRet_completes {t : State} (hi : FarRet i extra) (hc : segCheck s .ss s.esp 8 .read = .ok ())
    (hf : HoldsDwords s (s.linear .ss s.esp) [off, slot]) (hd : ReturnTargetOk s (slot.extractLsb' 0 16) off d lvl)
    (h : returnTo s off (slot.extractLsb' 0 16) d lvl (s.esp + 8 + extra) extra = .ok t) : exec i s = .next t := by
  obtain ⟨hoff, hslot⟩ := segRead_pair hc le_rfl hf
  have ⟨hnull, hread, _⟩ := hd
  rw [exec_farRet hi]
  rw [← hd.returnLevel] at h
  exact settle_completes (farReturn_ret_ok.2 ⟨hc, off, slot, d, hoff, hslot, hnull, hread, hd.checkReturnCS, h⟩)

theorem ReturnStackOk.checkReturnSS (h : ReturnStackOk s lvl sel d) : checkReturnSS s lvl sel d = .ok () := by
  obtain ⟨-, -, hcheck⟩ := h
  exact checkReturnSS_ok.2 hcheck

/-- A data-segment register is emptied exactly where it holds a usable data or non-conforming code segment of a level more
privileged than `lvl` (rule R256). -/
theorem emptyIfInner_eq (lvl : Level) (r : SegReg) : emptyIfInner lvl r =
    if r.cache.valid = true ∧ (r.cache.kind = .data ∨ r.cache.ce = false) ∧ r.cache.priv < lvl then
      { sel := 0, cache := { r.cache with valid := false } }
    else r := by
  simp only [emptyIfInner, Bool.and_eq_true, Bool.or_eq_true, Bool.not_eq_true', decide_eq_true_eq, and_assoc]

end Returns

/-- Settles O32: the return to the same level is the load of CS. -/
theorem farReturnSameLevel : Obligations.FarReturnSameLevel := by
  intro s ov i extra off slot d hs hi hc hf hd
  obtain ⟨u, hu, hacc, -⟩ := setAccessed_answers hd.readDesc rfl rfl hs
  refine ⟨u, hacc, exec_farRet_completes ⟨ov, hi⟩ hc hf hd ?_⟩
  rw [returnTo, if_pos rfl]
  exact returnSame_ok.2 ⟨_, loadCS_frame hd.descDB hu rfl (.refl s), rfl⟩

/-- Settles O33: both descriptors were read in `s`, and each accessed bit is set where the one before has left memory. -/
theorem farReturnOuterLevel : Obligations.FarReturnOuterLevel := by
  refine ⟨emptyIfInner_eq, ?_⟩
  intro s ov i extra off slot esp ssSlot d ds lvl hs hi hc hf hd hl hc' hf' hds
  have ⟨hnull, hread, _, _, _, hdpl, _⟩ := hds
  obtain ⟨hesp, hslot⟩ := segRead_pair hc' le_rfl hf'
  obtain ⟨u, hu, hacc, ho, hm⟩ := setAccessed_answers hd.readDesc rfl rfl hs
  obtain ⟨w, hw, hacc', -⟩ := setAccessed_answers hread ho.gdtr ho.cfg hm
  refine ⟨u, w, hacc, hacc', exec_farRet_completes ⟨ov, hi⟩ hc hf hd ?_⟩
  rw [returnTo, if_neg hl]
  refine returnOuter_ok.2 ⟨hc', esp, ssSlot, ds, _, _, hesp, hslot, hnull, hread, hds.checkReturnSS,
    loadCS_frame hd.descDB hu rfl (.refl s), setAccessed_frame hw ho.cfg.symm ho.gdtr.symm rfl rfl, ?_⟩
  rw [hdpl]
  rfl

end Sys2Proof.Machine
end

section
/-! SUPPORT. MOV to and from segment registers, LGDT, LIDT and LTR, and CLI and STI (rules R270 to R281). -/

namespace Sys2Proof.Machine

open Sys2Proof

/-! ### MOV Sreg, r/m16 (rules R270, R273) -/

/-- The state after a load of a segment register that has stored the accessed bit, with EIP written, field by field. -/
theorem OnlyMem.setSeg_jump {s t : State} (h : OnlyMem s t) (r : SReg) (v : SegReg) (next : Word) :
    (t.setSeg r v).jump next
      = { s with segs := s.segs.set r v, eip := next, mem := t.mem, written := t.written } := by
  unfold OnlyMem at h
  rw [h]
  rfl

section MoveToSegment

variable {s t : State} {ov : Option SReg} {op : RM Reg} {r : SReg} {sel : Half}

/-- But for a load of SS, which sets the shadow too, the load is followed by the jump alone. -/
theorem exec_movSreg_completes (hss : r ≠ .ss) (hsel : readRM16 s ov op = .ok sel) (hload : loadSeg s r sel = .ok t) :
    exec (.movSregRm16 ov r op) s = .next (t.jump (s.nextEip (.movSregRm16 ov r op))) :=
  settle_completes (bind_completes hsel (bind_completes hload (congrArg Except.ok (if_neg hss))))

theorem exec_movSreg_ss_completes (hsel : readRM16 s ov op = .ok sel) (hload : loadSeg s .ss sel = .ok t) :
    exec (.movSregRm16 ov .ss op) s = .next (t.jump (s.nextEip (.movSregRm16 ov .ss op))).inShadow :=
  settle_completes (bind_completes hsel (bind_completes hload rfl))

end MoveToSegment

/-- Settles O34: a data segment register is loaded in one of two ways, SS in one, and SS sets the shadow. -/
theorem moveToSegment : Obligations.MoveToSegment := by
  intro s ov op sel hs hsel
  refine ⟨fun r hcs hss => ⟨fun hnull => ?_, fun d hd => ?_⟩, fun d hd => ?_⟩
  · exact exec_movSreg_completes hss hsel ((loadSeg_data_ok hcs hss).2 (.inl ⟨hnull, rfl⟩))
  · obtain ⟨u, hacc, ho, hload⟩ := loadSeg_data_completes hs hcs hss hd
    refine ⟨u, hacc, ?_⟩
    rw [exec_movSreg_completes hss hsel hload, ho.setSeg_jump]
  · obtain ⟨u, hacc, ho, hload⟩ := loadSeg_ss_completes hs hd
    refine ⟨u, hacc, ?_⟩
    rw [exec_movSreg_ss_completes hsel hload, ho.setSeg_jump]
    rfl

/-! ### MOV r/m16, Sreg (rule R271) -/

/-- The state after a store, with EIP written, field by field. -/
theorem OnlyMem.jump {s t : State} (h : OnlyMem s t) (next : Word) :
    t.jump next = { s with eip := next, mem := t.mem, written := t.written } := by
  unfold OnlyMem at h
  rw [h]
  rfl

theorem sameBytes_jump (s : State) (next : Word) : SameBytes s (s.jump next) := ⟨rfl, rfl, rfl⟩

/-- Settles O36: a register takes a free upper word, memory the two bytes alone. -/
theorem moveFromSegment : Obligations.MoveFromSegment := by
  intro s ov sr hs
  refine ⟨fun r => ⟨s.freeHalf.1, rfl⟩, fun m hw => ?_⟩
  obtain ⟨u, hu⟩ := segWrite_of_writable (n := 2) (s.seg sr).sel hw
  obtain ⟨hst, ho, -⟩ := segWrite_spec hu hs (by omega)
  exact ⟨_, settle_completes (bind_completes (a := u) hu rfl), hst.congr (.refl s) (sameBytes_jump u _), ho.jump _⟩

/-! ### LTR (rules R275, R278) -/

section TaskRegister

variable {s t : State} {sel : Half} {d : BitVec 64}

theorem markBusy_hardware (h : s.cfg.ltrBusyRule = .hardware) : markBusy s sel = orAccessByte s sel 2 :=
  if_pos (decide_eq_true h)

theorem markBusy_source (h : s.cfg.ltrBusyRule ≠ .hardware) : markBusy s sel = .ok s :=
  if_neg (ne_true_of_eq_false (decide_eq_false h))

/-- Once read, a descriptor can be marked busy: one byte under the hardware's rule, nothing under the source's. -/
theorem markBusy_completes (hs : MemInv s) (hd : readDesc s sel = .ok d) : ∃ u, markBusy s sel = .ok u ∧ OnlyMem s u
    ∧ if s.cfg.ltrBusyRule = .hardware then ByteOred s u (descAddr s sel + 5) 2 else u = s := by
  by_cases hh : s.cfg.ltrBusyRule = .hardware
  · obtain ⟨u, hu⟩ := orAccessByte_completes (m := 2) hd rfl rfl
    refine ⟨u, (markBusy_hardware hh).trans hu, orAccessByte_onlyMem hu, ?_⟩
    rw [if_pos hh]
    exact orAccessByte_spec hu hs
  · refine ⟨s, markBusy_source hh, .refl s, ?_⟩
    rw [if_neg hh]

/-- A descriptor that LTR may load passes its checks: what is left is the busy mark and TR. -/
theorem TaskLoadable.loadTask (h : TaskLoadable s sel d) (hmark : markBusy s sel = .ok t) :
    loadTask s sel = .ok { t with tr := taskRegOf sel d } := by
  obtain ⟨hnull, hd, hkind, hbusy, hp⟩ := h
  have hfree : (hardwareBusy s.cfg && descRW d) = false := by simpa [hardwareBusy] using hbusy
  exact bind_completes (raiseIf_not hnull) <| bind_completes hd <|
    bind_completes (raiseIf_not (decide_eq_false (not_not_intro hkind))) <| bind_completes (raiseIf_not hfree) <|
    bind_completes (raiseIf_not (by rw [hp]; rfl)) <| bind_completes hmark rfl

/-- The state after LTR has marked the descriptor busy in memory, with TR and EIP written, field by field. -/
theorem OnlyMem.setTr_jump (h : OnlyMem s t) (tr : TaskReg) (next : Word) :
    State.jump { t with tr := tr } next = { s with tr := tr, eip := next, mem := t.mem, written := t.written } := by
  unfold OnlyMem at h
  rw [h]
  rfl

end TaskRegister

/-- Settles O38: the checks pass, and the busy mark is the only store. -/
theorem taskRegisterLoads : Obligations.TaskRegisterLoads := by
  intro s ov op sel d hs hcpl hsel h
  have ⟨_, hd, _⟩ := h
  obtain ⟨u, hmark, ho, hbusy⟩ := markBusy_completes hs hd
  exact ⟨u, hbusy, settle_completes (bind_completes (privileged_passes hcpl) (bind_completes hsel
    (bind_completes (h.loadTask hmark) (congrArg Except.ok (ho.setTr_jump _ _)))))⟩

/-! ### CLI and STI (rules R280, R281) -/

/-- A write of IF leaves every other flag as it was. -/
theorem flag_setFlag_if (f : Word) (b : Bool) : ∀ i < 32, flag (setFlag f bitIF b) i = if i = 9 then b else flag f i := by
  intro i hi
  rw [flag, setFlag_getLsbD hi]
  exact if_congr eq_comm rfl rfl

/-- Settles O40: the privilege check is the first part of both, and the write of IF the only other one. -/
theorem interruptFlagInstructions : Obligations.InterruptFlagInstructions := by
  intro s ov withIF
  refine ⟨fun hle => ?_, fun hlt => ?_⟩
  · have hpass : raiseIf (decide (iopl s.eflags < s.cpl)) (.gp 0) = .ok () :=
      raiseIf_not (decide_eq_false (BitVec.not_lt.2 hle))
    exact ⟨⟨_, flag_setFlag_if s.eflags false, settle_completes (bind_completes hpass rfl)⟩,
      ⟨_, flag_setFlag_if s.eflags true, settle_completes (bind_completes hpass rfl)⟩⟩
  · have hraise : raiseIf (decide (iopl s.eflags < s.cpl)) (.gp 0) = .error (.raise (.gp 0)) :=
      raiseIf_of (decide_eq_true hlt)
    exact ⟨settle_raises (bind_first_error hraise), settle_raises (bind_first_error hraise)⟩

/-! ### LGDT and LIDT, and the privilege check (rules R275 to R277) -/

/-- Settles O37: at level 0 both read the operand's two fields and write one register. -/
theorem tableRegistersLoad : Obligations.TableRegistersLoad := by
  intro s ov m limit base hcpl hlimit hbase
  have hread : readTableOperand s ov m = .ok { base := base, limit := limit } :=
    bind_completes hlimit (bind_completes hbase rfl)
  have hpass := privileged_passes hcpl
  exact ⟨settle_completes (bind_completes hpass (bind_completes hread rfl)),
    settle_completes (bind_completes hpass (bind_completes hread rfl))⟩

/-- Settles O39: the privilege check is the first part of each of the three. -/
theorem privilegedLoadsFault : Obligations.PrivilegedLoadsFault := by
  intro s ov hcpl
  have hraise : raiseIf (decide (s.cpl ≠ 0)) (.gp 0) = .error (.raise (.gp 0)) := raiseIf_of (decide_eq_true hcpl)
  exact ⟨fun m => settle_raises (bind_first_error hraise), fun m => settle_raises (bind_first_error hraise),
    fun op => settle_raises (bind_first_error hraise)⟩

end Sys2Proof.Machine
end

section
/-! SUPPORT. The interrupt instructions: INTO and BOUND that take no interrupt, the entry through a gate to the same and to
an inner level, and IRET to the same and to an outer level (rules R290 to R301, R370 to R376). -/

namespace Sys2Proof.Machine

open Sys2Proof

/-! ### INTO and BOUND (rules R292, R293) -/

/-- Settles O43: the test of BOUND is the negation of lying within the bounds. -/
theorem intoAndBoundOutcomes : Obligations.IntoAndBoundOutcomes := by
  intro s ov
  refine ⟨fun hof => settle_completes (if_neg (ne_true_of_eq_false hof)), fun r m lo hi hlo hhi => ?_⟩
  have htest : (decide ((s.reg r).toInt < lo.toInt) || decide (hi.toInt < (s.reg r).toInt))
      = !decide (lo.toInt ≤ (s.reg r).toInt ∧ (s.reg r).toInt ≤ hi.toInt) := by
    simp only [← not_lt, Bool.decide_and, decide_not, Bool.not_and, Bool.not_not]
  split
  · next hin =>
    have hpass := raiseIf_not (x := .br) (htest.trans (by rw [decide_eq_true hin]; rfl))
    exact settle_completes (bind_completes hlo (bind_completes hhi (bind_completes hpass rfl)))
  · next hout =>
    have hraise := raiseIf_of (x := .br) (htest.trans (by rw [decide_eq_false hout]; rfl))
    exact settle_raises (bind_next_error hlo (bind_next_error hhi (bind_first_error hraise)))

/-! ### Frames (rule R370, step 3) -/

theorem reverse_frameWords (s : State) (savedEip : Word) (code : Option Half) :
    (frameWords s.eflags s.segs.cs.sel savedEip code).reverse = frameUp s savedEip code := by
  cases code <;> rfl

/-- A selector slot below `top`, and doublewords stored downward from it. -/
theorem slotAndDwords_completes {s : State} {top : Word} {n : Nat} (sel : Half) {vs : List Word} (hs : MemInv s)
    (hn : 4 * (vs.length + 1) = n) (hlen : n ≤ 4096) (hw : Writable s .ss (top - BitVec.ofNat 32 n) n) :
    ∃ (hi : Half) (s1 s2 : State), storeSelSlot s (top - 4) sel = .ok s1 ∧ storeDown s1 (top - 4) vs = .ok s2
      ∧ StoredDwords s s2 (s.linear .ss (top - BitVec.ofNat 32 n)) (vs.reverse ++ [hi ++ sel])
      ∧ OnlyMem { s with freeCount := s.freeCount + 1 } s2 ∧ MemInv s2 := by
  subst hn
  have below (m : Nat) : top - BitVec.ofNat 32 (4 * (m + 1)) = top - 4 - BitVec.ofNat 32 (4 * m) := by
    rw [Nat.mul_add, Nat.add_comm, BitVec.ofNat_add, sub_add_word]
    rfl
  have hslots := hw.slots
  have hslot : Writable s .ss (top - 4) 4 := hslots 0 (by omega)
  obtain ⟨s1, h1⟩ := storeSelSlot_completes sel hslot
  obtain ⟨⟨hi, hst1⟩, ho1, hm1⟩ := storeSelSlot_spec h1 hs
  obtain ⟨s2, h2⟩ := storeDown_completes (s := s1) (top := top - 4) vs fun k hk =>
    ho1.writable.2 (below (k + 1) ▸ hslots (k + 1) (by omega))
  obtain ⟨hst2, ho2, hm2⟩ := storeDown_spec h2 hm1 (by omega)
  rw [← below, ho1.linear] at hst2
  have habove : s.linear .ss (top - 4)
      = s.linear .ss (top - BitVec.ofNat 32 (4 * (vs.length + 1))) + BitVec.ofNat 32 (4 * vs.reverse.length) := by
    rw [← linear_add, below, List.length_reverse, BitVec.sub_add_cancel]
  rw [habove] at hst1
  exact ⟨hi, s1, s2, h1, h2, .snoc (by simpa using hlen) ho1.cfg ho2.cfg hst1 hst2, ho1.trans ho2, hm2⟩

section Entry

variable {s : State} {k : EventKind} {v : Byte} {g d : BitVec 64} {e code : Option Half} {p : Word}

/-- The frame on the current stack. -/
theorem sameLevelFrame_completes (p : Word) (hs : MemInv s)
    (hw : Writable s .ss (s.esp - BitVec.ofNat 32 (frameSize code)) (frameSize code)) :
    ∃ s1, sameLevelFrame s p code = .ok (s1.setEsp (s.esp - BitVec.ofNat 32 (frameSize code)))
      ∧ StoredDwords s s1 (s.linear .ss (s.esp - BitVec.ofNat 32 (frameSize code))) (frameUp s p code)
      ∧ OnlyMem s s1 ∧ MemInv s1 := by
  have hsize := frameWords_length s.eflags s.segs.cs.sel p code
  obtain ⟨s1, h1⟩ := storeDown_completes (s := s) (top := s.esp) (frameWords s.eflags s.segs.cs.sel p code)
    (Writable.slots (by rwa [hsize]))
  have hspec := storeDown_spec h1 hs (by rw [hsize]; unfold frameSize; split <;> omega)
  rw [hsize, reverse_frameWords] at hspec
  exact ⟨s1, sameLevelFrame_ok.2 ⟨hw.1, s1, h1, rfl⟩, hspec⟩

/-- Whatever the check of the frame raises, the frame raises SS(0). -/
theorem sameLevelFrame_raises {x : Exc}
    (h : segCheck s .ss (s.esp - BitVec.ofNat 32 (frameSize code)) (frameSize code) .write = .error (.raise x)) :
    sameLevelFrame s p code = .error (.raise (.ss 0)) := by
  have hcheck := congrArg orStackFault h
  exact bind_first_error hcheck

/-- Once SS holds the stack segment of the level `lvl`, the frame may be written there (rules R90, R374). -/
theorem InnerStackOk.writable {lvl : Level} {nSS : Half} {nEsp : Word} {ds : BitVec 64} {t : State}
    (h : InnerStackOk s lvl code nSS nEsp ds) (hc : t.cfg = s.cfg)
    (hss : t.seg .ss = { sel := nSS, cache := cacheOf ds lvl }) :
    Writable t .ss (nEsp - BitVec.ofNat 32 (frameSize code + 8)) (frameSize code + 8) := by
  obtain ⟨-, ⟨-, -, -, hkind, hrw, -, -, hdb⟩, hfits, hbacked⟩ := h
  unfold Writable State.linear
  rw [segCheck_ok, hss, backed_congr hc]
  have hrights : rightsOk (cacheOf ds lvl) .write = true :=
    Bool.and_eq_true_iff.2 ⟨decide_eq_true (cacheOf_kind_data hkind), hrw⟩
  exact ⟨⟨rfl, hrights, by rintro ⟨⟩, (limitOk_iff hkind hdb (by omega)).2 hfits⟩, hbacked⟩

/-- The frame on the stack of a more privileged level: the state has taken the accessed bit of that stack's descriptor,
the load of SS, and then the doublewords. -/
theorem innerFrame_completes {lvl : Level} {nSS : Half} {nEsp : Word} {ds : BitVec 64} (v : Byte) (p : Word) (hs : MemInv s)
    (h : InnerStackOk s lvl code nSS nEsp ds) :
    ∃ (hi : Half) (s1 s2 : State), Accessed s s1 nSS ds
      ∧ StoredDwords s1 s2 (descBase ds + (nEsp - BitVec.ofNat 32 (frameSize code + 8)))
          (frameUp s p code ++ [s.esp, hi ++ s.segs.ss.sel])
      ∧ OnlyMem s s1 ∧ OnlyMem s1 s2 ∧ MemInv s2
      ∧ innerFrame s lvl v p code = .ok { s2 with
          regs := { s.regs with esp := nEsp - BitVec.ofNat 32 (frameSize code + 8) }
          segs := { s.segs with ss := { sel := nSS, cache := cacheOf ds lvl } }
          freeCount := s.freeCount + 1 } := by
  have ⟨htask, hstack, hfits, _⟩ := h
  have ⟨_, hread, _, hkind, _, _, _, hdb⟩ := hstack
  obtain ⟨s1, h1, hacc, ho1, hm1⟩ := setAccessed_answers hread rfl rfl hs
  have hsize : 4 * ((s.esp :: frameWords s.eflags s.segs.cs.sel p code).length + 1) = frameSize code + 8 := by
    have := frameWords_length s.eflags s.segs.cs.sel p code
    rw [List.length_cons]
    omega
  obtain ⟨hi, w, x, hslot, hdown, hst, ho, hm⟩ := slotAndDwords_completes (top := nEsp)
    (s := s1.setSeg .ss { sel := nSS, cache := cacheOf ds lvl }) s.segs.ss.sel hm1 hsize
    (by unfold frameSize; split <;> omega) (h.writable ho1.cfg rfl)
  rw [List.reverse_cons, reverse_frameWords, List.append_assoc] at hst
  refine ⟨hi, s1, { s1 with mem := x.mem, written := x.written }, hacc,
    hst.congr ⟨rfl, rfl, rfl⟩ ⟨ho.cfg.symm, rfl, rfl⟩, ho1, rfl, hm, ?_⟩
  refine innerFrame_ok.2 ⟨nSS, nEsp, ds, s1, w, x, newStack_iff.2 ⟨htask, hstack⟩,
    (limitOk_iff hkind hdb (by omega)).2 hfits, h1, hslot, hdown, ?_⟩
  unfold OnlyMem at ho ho1
  rw [ho, ho1]
  rfl

/-! ### Entry through a gate (rules R370 to R376) -/

theorem EntryOk.checkGateTarget (h : EntryOk s g d) (ext : Half) : checkGateTarget s g ext = .ok d := by
  obtain ⟨hn, hr, hk, hce, hdpl, hp, hoff, -⟩ := h
  exact checkGateTarget_ok.2 ⟨hn, hr, hk, hce, hdpl, hp, hoff⟩

theorem EntryOk.readDesc (h : EntryOk s g d) : readDesc s (gateSel g) = .ok d := by
  obtain ⟨-, hr, -⟩ := h
  exact hr

theorem EntryOk.descDB (h : EntryOk s g d) : descDB d = true := by
  obtain ⟨-, -, -, -, -, -, -, hdb⟩ := h
  exact hdb

/-- Behind a gate that admits the event, a delivery ends where its frame does not come about. -/
theorem deliver_frame_error {a : Abort} (hg : GateAdmits s k v g) (hd : EntryOk s g d)
    (h : entryFrame s (descDpl d) v p (pushedCode s.cfg v e) = .error a) : deliver s k v e p = .error a :=
  bind_next_error (checkGate_iff.2 hg) (bind_next_error (hd.checkGateTarget _) (bind_first_error h))

/-- Behind a gate that admits the event, the entry flags and the load of CS follow the frame, which leaves EFLAGS and the
parameters alone. -/
theorem deliver_completes {t u : State} (hg : GateAdmits s k v g) (hd : EntryOk s g d)
    (h : entryFrame s (descDpl d) v p (pushedCode s.cfg v e) = .ok t) (hflags : t.eflags = s.eflags)
    (hcfg : t.cfg = s.cfg) (hu : setAccessed t (gateSel g) d = .ok u) :
    deliver s k v e p = .ok { t with
      eflags := entryFlags s.eflags (decide (gateKind s.cfg g = .interrupt))
      segs := { t.segs with cs := loadedCS s.cfg (gateSel g) d (descDpl d) }
      eip := gateOff g
      mem := u.mem
      written := u.written } := by
  refine deliver_ok.2 ⟨g, d, t, _, checkGate_iff.2 hg, hd.checkGateTarget _, h,
    loadCS_frame hd.descDB hu rfl ⟨rfl, rfl, rfl⟩, ?_⟩
  rw [hflags, ← hcfg]
  rfl

/-- Entry at the same level. -/
theorem deliver_enters_same (hs : MemInv s) (hg : GateAdmits s k v g) (hd : EntryOk s g d) (hl : descDpl d = s.cpl)
    (hcode : pushedCode s.cfg v e = code)
    (hw : Writable s .ss (s.esp - BitVec.ofNat 32 (frameSize code)) (frameSize code)) :
    ∃ t, deliver s k v e p = .ok t ∧ EnteredSame s t p code g d := by
  subst hcode
  obtain ⟨s1, hframe, hst, ho, hm⟩ := sameLevelFrame_completes p hs hw
  obtain ⟨s2, h2, hacc, -⟩ := setAccessed_answers hd.readDesc ho.gdtr ho.cfg hm
  refine ⟨_, deliver_completes hg hd ((if_pos hl).trans hframe) ho.eflags ho.cfg (setAccessed_frame h2 rfl rfl rfl rfl),
    s1, s2, hst, ho, hacc, ?_⟩
  unfold OnlyMem at ho
  rw [ho]
  rfl

/-- Entry at a more privileged level. -/
theorem deliver_enters_inner {nSS : Half} {nEsp : Word} {ds : BitVec 64} (hs : MemInv s) (hg : GateAdmits s k v g)
    (hd : EntryOk s g d) (hl : descDpl d ≠ s.cpl) (hcode : pushedCode s.cfg v e = code)
    (hstack : InnerStackOk s (descDpl d) code nSS nEsp ds) :
    ∃ t, deliver s k v e p = .ok t ∧ EnteredInner s t p code g d nSS nEsp ds := by
  subst hcode
  obtain ⟨hi, s1, s2, hacc1, hst, ho1, ho2, hm, hframe⟩ := innerFrame_completes v p hs hstack
  have ho := ho1.trans ho2
  obtain ⟨s3, h3, hacc3, -⟩ := setAccessed_answers hd.readDesc ho.gdtr ho.cfg hm
  refine ⟨_, deliver_completes hg hd ((if_neg hl).trans hframe) ho.eflags ho.cfg
    (setAccessed_frame h3 rfl rfl rfl rfl), hi, s1, s2, s3, hacc1, hst, ho2, hacc3, ?_⟩
  unfold OnlyMem at ho
  rw [ho]
  rfl

end Entry

/-! ### INT n, INT 3 and INTO (rules R290 to R292) -/

/-- The instruction is a software interrupt of kind `k` through vector `v`. -/
def SoftwareInterrupt (s : State) (i : Instr) (k : EventKind) (v : Byte) : Prop :=
  ∃ ov, (∃ n, i = .intN ov n ∧ k = .intN ∧ v = n) ∨ (i = .int3 ov ∧ k = .int3 ∧ v = 3)
    ∨ i = .into ov ∧ flag s.eflags bitOF = true ∧ k = .into ∧ v = 4

/-- A software interrupt is a delivery without error code that saves the next instruction's EIP (rule R372). -/
theorem exec_softwareInterrupt {s : State} {i : Instr} {k : EventKind} {v : Byte} (h : SoftwareInterrupt s i k v) :
    exec i s = settle s (deliver s k v none (s.nextEip i)) := by
  obtain ⟨ov, ⟨n, rfl, rfl, rfl⟩ | ⟨rfl, rfl, rfl⟩ | ⟨rfl, hof, rfl, rfl⟩⟩ := h
  · rfl
  · rfl
  · exact congrArg (settle s) (if_pos hof)

theorem pushedCode_none (c : Config) (v : Byte) : pushedCode c v none = none := ite_self none

/-- Settles O41: the delivery enters where its frame comes about, and ends as its frame does where it does not. -/
theorem softwareInterruptEntersHandler : Obligations.SoftwareInterruptEntersHandler := by
  intro s ov i k v g d hs hi hg hd
  have hcode := pushedCode_none s.cfg v
  have ends {a : Abort} (h : entryFrame s (descDpl d) v (s.nextEip i) none = .error a) :
      deliver s k v none (s.nextEip i) = .error a := deliver_frame_error hg hd (hcode.symm ▸ h)
  rw [exec_softwareInterrupt ⟨ov, hi⟩]
  refine ⟨fun hl => ⟨fun hw => ?_, fun x hx => ?_⟩, fun hlt => ?_⟩
  · obtain ⟨t, ht, hentered⟩ := deliver_enters_same hs hg hd hl hcode hw
    exact ⟨t, settle_completes ht, hentered⟩
  · exact settle_raises (ends ((if_pos hl).trans (sameLevelFrame_raises hx)))
  have hl : descDpl d ≠ s.cpl := BitVec.ne_of_lt hlt
  refine ⟨fun nSS nEsp ds hstack => ?_, fun f hf => ?_, fun hout => ?_⟩
  · obtain ⟨t, ht, hentered⟩ := deliver_enters_inner hs hg hd hl hcode hstack
    exact ⟨t, settle_completes ht, hentered⟩
  · rw [ends ((if_neg hl).trans (bind_first_error (newStack_stops hf))), settle_stop]
  · rw [ends ((if_neg hl).trans (innerFrame_outside hout)), settle_stop]

/-! ### IRET (rules R300, R301) -/

section Returns

variable {s : State} {off slot image : Word} {sel : Half} {d : BitVec 64} {lvl : Level}

/-- The return to the same level is the load of CS, with ESP and EIP written. -/
theorem returnTo_same_completes (above extra : Word) (hs : MemInv s) (hd : ReturnTargetOk s sel off d s.cpl) :
    ∃ u, Accessed s u sel d ∧ returnTo s off sel d s.cpl above extra = .ok { s with
      regs := { s.regs with esp := above }
      segs := { s.segs with cs := loadedCS s.cfg sel d s.cpl }
      eip := off
      mem := u.mem
      written := u.written } := by
  obtain ⟨u, hu, hacc, -⟩ := setAccessed_answers hd.readDesc rfl rfl hs
  exact ⟨u, hacc, (if_pos rfl).trans (returnSame_ok.2 ⟨_, loadCS_frame hd.descDB hu rfl (.refl s), rfl⟩)⟩

/-- The return to an outer level: both descriptors are read in `s`, and each accessed bit is set where the one before has
left memory. -/
theorem returnTo_outer_completes {above esp ssSlot : Word} {ds : BitVec 64} (extra : Word) (hs : MemInv s)
    (hd : ReturnTargetOk s sel off d lvl) (hl : lvl ≠ s.cpl) (hc : segCheck s .ss above 8 .read = .ok ())
    (hf : HoldsDwords s (s.linear .ss above) [esp, ssSlot]) (hds : ReturnStackOk s lvl (ssSlot.extractLsb' 0 16) ds) :
    ∃ u w, Accessed s u sel d ∧ Accessed u w (ssSlot.extractLsb' 0 16) ds
      ∧ returnTo s off sel d lvl above extra = .ok { s with
        regs := { s.regs with esp := esp + extra }
        segs :=
          { cs := loadedCS s.cfg sel d lvl
            ss := { sel := ssSlot.extractLsb' 0 16, cache := cacheOf ds lvl }
            ds := emptyIfInner lvl s.segs.ds
            es := emptyIfInner lvl s.segs.es
            fs := emptyIfInner lvl s.segs.fs
            gs := emptyIfInner lvl s.segs.gs }
        eip := off
        mem := w.mem
        written := w.written } := by
  have ⟨hnull, hread, _, _, _, hdpl, _⟩ := hds
  obtain ⟨hesp, hslot⟩ := segRead_pair hc le_rfl hf
  obtain ⟨u, hu, hacc, ho, hm⟩ := setAccessed_answers hd.readDesc rfl rfl hs
  obtain ⟨w, hw, hacc', -⟩ := setAccessed_answers hread ho.gdtr ho.cfg hm
  have hload := loadCS_frame (lvl := lvl) hd.descDB hu rfl (.refl s)
  refine ⟨u, w, hacc, hacc', (if_neg hl).trans (returnOuter_ok.2 ⟨hc, esp, ssSlot, ds, _, _, hesp, hslot, hnull, hread,
    hds.checkReturnSS, hload, setAccessed_frame hw ho.cfg.symm ho.gdtr.symm rfl rfl, ?_⟩)⟩
  rw [hdpl]
  rfl

/-- Through a frame that may be read and names an admissible target, IRET comes to the return to its level, the restored
flags and the end of the NMI block. -/
theorem exec_iret_completes {t : State} (ov : Option SReg) (hnt : flag s.eflags bitNT = false)
    (hvm : s.cpl = 0 → flag image bitVM = false) (hc : segCheck s .ss s.esp 12 .read = .ok ())
    (hf : HoldsDwords s (s.linear .ss s.esp) [off, slot, image]) (hd : ReturnTargetOk s (slot.extractLsb' 0 16) off d lvl)
    (h : returnTo s off (slot.extractLsb' 0 16) d lvl (s.esp + 12) 0 = .ok t) :
    exec (.iret ov) s = .next { t with eflags := restoredFlags t.eflags image s.cpl, nmiBlocked := false } := by
  obtain ⟨hoff, hslot⟩ := segRead_pair hc (by omega) hf
  have himage : segRead s .ss (s.esp + 8) 4 = .ok image := segRead_part (k := 8) hc le_rfl (hf.linRead (k := 2) (by simp))
  have ⟨hnull, hread, _⟩ := hd
  rw [← hd.returnLevel, ← BitVec.add_zero (s.esp + 12)] at h
  have hreturn := farReturn_iret_ok.2 ⟨hc, off, slot, image, d, t, hoff, hslot, himage, hnull, hread, hd.checkReturnCS, h,
    restoreFlags_ok.2 ⟨hvm, rfl⟩⟩
  exact settle_completes (bind_completes (refuseIf_ok (u := ()).2 hnt) (bind_completes hreturn rfl))

end Returns

/-- Settles O46: the return to the same level leaves EFLAGS for IRET to restore. -/
theorem returnFromInterruptSameLevel : Obligations.ReturnFromInterruptSameLevel := by
  intro s ov off slot image d hs hnt hvm hc hf hd
  obtain ⟨u, hacc, hreturn⟩ := returnTo_same_completes (s.esp + 12) 0 hs hd
  exact ⟨u, hacc, exec_iret_completes ov hnt hvm hc hf hd hreturn⟩

/-- Settles O47: the return to an outer level leaves EFLAGS too, restored with the privilege of the level left. -/
theorem returnFromInterruptOuterLevel : Obligations.ReturnFromInterruptOuterLevel := by
  intro s ov off slot image esp ssSlot d ds lvl hs hnt hvm hc hf hd hl hc' hf' hds
  obtain ⟨u, w, hacc, hacc', hreturn⟩ := returnTo_outer_completes 0 hs hd hl hc' hf' hds
  rw [show esp + 0 = esp from BitVec.add_zero esp] at hreturn
  exact ⟨u, w, hacc, hacc', exec_iret_completes ov hnt hvm hc hf hd hreturn⟩

end Sys2Proof.Machine
end

section
/-! SUPPORT. The carrier instructions: MOV to a register and to operand 2, LEA and NOP, ADD and the flags it writes (rules
R310 to R330). -/

namespace Sys2Proof.Machine

open Sys2Proof

/-! ### The flags of ADD (rule R322) -/

/-- Six bits are written, one after another, and no two of them are the same bit. -/
theorem flag_addFlags (f a b : Word) {j : Nat} (hj : j < 32) : flag (addFlags f a b) j =
    if bitOF = j then addOF a b
    else if bitSF = j then (a + b).msb
    else if bitZF = j then decide (a + b = 0)
    else if bitAF = j then addAF a b
    else if bitPF = j then evenParity ((a + b).extractLsb' 0 8)
    else if bitCF = j then addCF a b
    else flag f j := by
  simp only [addFlags, flag, setFlag_getLsbD hj]

/-- A list has an even number of elements with a property exactly where the answers of its elements xor to false. -/
theorem even_length_filter {α : Type} (p : α → Bool) (l : List α) :
    decide ((l.filter p).length % 2 = 0) = !l.foldr (fun x parity => p x ^^ parity) false := by
  induction l with
  | nil => rfl
  | cons x l ih =>
    cases hx : p x with
    | false => rw [List.filter_cons_of_neg (by simp [hx]), ih, List.foldr_cons, hx, Bool.false_xor]
    | true =>
      rw [List.filter_cons_of_pos hx, List.length_cons, List.foldr_cons, hx, Bool.true_xor, ← ih, ← decide_not]
      exact decide_eq_decide.2 (by omega)

theorem evenParity_lowByte (r : Word) : evenParity (r.extractLsb' 0 8) =
    decide (((List.range 8).filter fun k => r.getLsbD k).length % 2 = 0) := by
  have hbit : ∀ k < 8, (r.extractLsb' 0 8).getLsbD k = r.getLsbD k := fun k hk => by
    rw [BitVec.getLsbD_extractLsb', Nat.zero_add, decide_eq_true hk, Bool.true_and]
  rw [even_length_filter]
  simp only [evenParity, hbit, Nat.reduceLT, List.range_succ, List.range_zero, List.nil_append, List.cons_append,
    List.foldr_cons, List.foldr_nil, Bool.xor_false, Bool.xor_assoc]

theorem addOF_eq (a b : Word) :
    addOF a b = decide (a.getLsbD 31 = b.getLsbD 31 ∧ (a + b).getLsbD 31 ≠ a.getLsbD 31) := by
  rw [Bool.decide_and, decide_not]
  rfl

/-- Settles O53: one clause for each bit that `flag_addFlags` names. -/
theorem addFlagsMeaning : Obligations.AddFlagsMeaning := by
  intro f a b
  refine ⟨flag_addFlags f a b (by omega), (flag_addFlags f a b (by omega)).trans (addOF_eq a b),
    flag_addFlags f a b (by omega), flag_addFlags f a b (by omega),
    (flag_addFlags f a b (by omega)).trans (evenParity_lowByte (a + b)), flag_addFlags f a b (by omega), ?_⟩
  intro i hi hne
  have other : ∀ k ∈ [0, 2, 4, 6, 7, 11], k ≠ i := fun k hk h => hne (h ▸ hk)
  rw [flag_addFlags f a b hi, if_neg (other bitOF (by decide)), if_neg (other bitSF (by decide)),
    if_neg (other bitZF (by decide)), if_neg (other bitAF (by decide)), if_neg (other bitPF (by decide)),
    if_neg (other bitCF (by decide))]

/-! ### MOV to a register, LEA and NOP (rules R312 to R315, R320, R330) -/

/-- Settles O49: the source is known before anything is written, and an 8-bit register is written as a byte of its
register. -/
theorem moveToRegister : Obligations.MoveToRegister := by
  intro s ov i
  refine ⟨fun r v hi => ?_, fun r v hi => ?_⟩
  · obtain ⟨op, rfl, hv⟩ | rfl := hi
    · exact settle_completes (bind_completes hv rfl)
    · rfl
  · obtain ⟨op, rfl, hv⟩ | rfl := hi
    · exact settle_completes (bind_completes hv rfl)
    · rfl

/-- Settles O51: neither has a part that can fail. -/
theorem leaAndNopComplete : Obligations.LeaAndNopComplete := fun _ _ => ⟨fun _ _ => rfl, rfl⟩

/-! ### Writes to operand 2 (rule R190) -/

/-- A store completes where the program may write, and changes nothing but memory. -/
theorem segWrite_completes {s : State} {r : SReg} {off : Word} {n : Nat} (v : BitVec (8 * n)) (hn : n ≤ 4096)
    (hs : MemInv s) (h : Writable s r off n) :
    ∃ u, segWrite s r off n v = .ok u ∧ Stored s u (s.linear r off) n v ∧ OnlyMem s u := by
  obtain ⟨u, hu⟩ := segWrite_of_writable v h
  obtain ⟨hst, ho, -⟩ := segWrite_spec hu hs hn
  exact ⟨u, hu, hst, ho⟩

/-- The state after a store, with EFLAGS and EIP written, field by field. -/
theorem OnlyMem.setFlags_jump {s t : State} (h : OnlyMem s t) (f next : Word) :
    (t.setFlags f).jump next = { s with eflags := f, eip := next, mem := t.mem, written := t.written } := by
  unfold OnlyMem at h
  rw [h]
  rfl

theorem sameBytes_setFlags_jump (s : State) (f next : Word) : SameBytes s ((s.setFlags f).jump next) := ⟨rfl, rfl, rfl⟩

/-! ### MOV to operand 2 (rules R310, R311, R316, R317) -/

section MoveToOperand

variable {s : State} {ov : Option SReg} {i : Instr}

/-- The instruction moves the doubleword `v` to operand 2 (rules R311, R317). -/
def MovesDword (s : State) (ov : Option SReg) (i : Instr) (op : RM Reg) (v : Word) : Prop :=
  (∃ r, i = .movRm32R32 ov op r ∧ v = s.reg r) ∨ i = .movRm32Imm32 ov op v

/-- The instruction moves the byte `v` to operand 2 (rules R310, R316). -/
def MovesByte (s : State) (ov : Option SReg) (i : Instr) (op : RM Reg8) (v : Byte) : Prop :=
  (∃ r, i = .movRm8R8 ov op r ∧ v = s.reg8 r) ∨ i = .movRm8Imm8 ov op v

theorem exec_movesDword {op : RM Reg} {v : Word} (h : MovesDword s ov i op v) :
    exec i s = settle s (writeRM32 s ov op v >>= fun t => .ok (t.jump (s.nextEip i))) := by
  obtain ⟨r, rfl, rfl⟩ | rfl := h
  · rfl
  · rfl

theorem exec_movesByte {op : RM Reg8} {v : Byte} (h : MovesByte s ov i op v) :
    exec i s = settle s (writeRM8 s ov op v >>= fun t => .ok (t.jump (s.nextEip i))) := by
  obtain ⟨r, rfl, rfl⟩ | rfl := h
  · rfl
  · rfl

/-- A store of at most a page and the jump after it complete where the program may write. -/
theorem settle_store_completes {r : SReg} {off next : Word} {n : Nat} (v : BitVec (8 * n)) (hn : n ≤ 4096)
    (hs : MemInv s) (hw : Writable s r off n) :
    ∃ t, settle s (segWrite s r off n v >>= fun u => .ok (u.jump next)) = .next t ∧ Stored s t (s.linear r off) n v
      ∧ t = { s with eip := next, mem := t.mem, written := t.written } := by
  obtain ⟨u, hu, hst, ho⟩ := segWrite_completes v hn hs hw
  exact ⟨_, settle_completes (bind_completes hu rfl), hst.congr (.refl s) (sameBytes_jump u _), ho.jump _⟩

end MoveToOperand

/-- Settles O50: every form comes down to one write of operand 2, in a register or by `settle_store_completes`. -/
theorem moveToOperand : Obligations.MoveToOperand := by
  intro s ov i
  refine ⟨fun op v hi => ?_, fun op v hi => ?_⟩
  · rw [exec_movesDword hi]
    refine ⟨?_, ?_⟩
    · rintro r rfl
      rfl
    · rintro m rfl hs hw
      exact settle_store_completes (n := 4) v (by omega) hs hw
  · rw [exec_movesByte hi]
    refine ⟨?_, ?_⟩
    · rintro r rfl
      rfl
    · rintro m rfl hs hw
      exact settle_store_completes (n := 1) v (by omega) hs hw

/-! ### ADD (rules R323 to R326) -/

/-- The instruction adds the doubleword `b` to operand 2 (rules R323, R325, R326). -/
def AddsDword (s : State) (ov : Option SReg) (i : Instr) (op : RM Reg) (b : Word) : Prop :=
  (∃ r, i = .addRm32R32 ov op r ∧ b = s.reg r) ∨ i = .addRm32Imm32 ov op b
    ∨ ∃ imm, i = .addRm32Imm8 ov op imm ∧ b = imm.signExtend 32

theorem exec_addsDword {s : State} {ov : Option SReg} {i : Instr} {op : RM Reg} {b : Word} (h : AddsDword s ov i op b) :
    exec i s = settle s (addToRM s ov op b (s.nextEip i)) := by
  obtain ⟨r, rfl, rfl⟩ | rfl | ⟨imm, rfl, rfl⟩ := h
  · rfl
  · rfl
  · rfl

/-- Settles O52: three forms come down to `addToRM`, whose flags come from the operands read before the write. -/
theorem addCompletes : Obligations.AddCompletes := by
  intro s ov
  refine ⟨fun i op a b hi ha => ?_, fun r op b hb => settle_completes (bind_completes hb rfl)⟩
  rw [exec_addsDword hi]
  refine ⟨?_, ?_⟩
  · rintro r rfl
    exact settle_completes (bind_completes ha rfl)
  · rintro m rfl hs hw
    obtain ⟨u, hu, hst, ho⟩ := segWrite_completes (n := 4) (a + b) (by omega) hs hw
    exact ⟨_, settle_completes (bind_completes ha (bind_completes (a := u) hu rfl)),
      hst.congr (.refl s) (sameBytes_setFlags_jump u _ _), ho.setFlags_jump _ _⟩

end Sys2Proof.Machine
end

section
/-! SUPPORT. The bits that entry through a gate and IRET write in EFLAGS, and what no instruction writes at a level other than 0:
GDTR, IDTR, TR, IOPL, and IF where IOPL is more privileged (rules R275, R301, R376, R387). -/

namespace Sys2Proof.Machine

open Sys2Proof

/-! ### Entry and return, bit by bit (rules R301, R376) -/

/-- Entry through a gate writes TF, NT and, through an interrupt gate, IF (rule R376). -/
theorem flag_entryFlags (f : Word) (interruptGate : Bool) {i : Nat} (hi : i < 32) :
    flag (entryFlags f interruptGate) i =
      if i = 8 ∨ i = 14 ∨ i = 9 ∧ interruptGate = true then false else flag f i := by
  cases interruptGate with
  | false =>
    simp only [flag, entryFlags, bitTF, bitNT, setFlag_getLsbD hi, Bool.false_eq_true, if_false]
    grind
  | true =>
    simp only [flag, entryFlags, bitTF, bitNT, bitIF, setFlag_getLsbD hi, if_true]
    grind

/-- The bits of the mask: ten always, IF where IOPL covers the level, IOPL at level 0 (rule R301). -/
theorem restoreMask_getLsbD (f : Word) (old : Level) {i : Nat} (hi : i < 32) :
    (restoreMask f old).getLsbD i = true ↔
      i ∈ [0, 2, 4, 6, 7, 8, 10, 11, 14, 16] ∨ i = 9 ∧ old ≤ iopl f ∨ (i = 12 ∨ i = 13) ∧ old = 0 := by
  by_cases hlvl : old = 0
  · subst hlvl
    have hiopl : (0 : Level) ≤ iopl f := BitVec.le_def.2 (Nat.zero_le _)
    simp only [restoreMask, hiopl, if_true, and_true]
    revert i
    decide
  · by_cases hiopl : old ≤ iopl f <;>
    · simp only [restoreMask, hiopl, hlvl, if_true, if_false, and_true, and_false]
      revert i
      decide

/-- IRET restores the bits of its mask and no other (rule R301). -/
theorem flag_restoredFlags (f n : Word) (old : Level) {i : Nat} (hi : i < 32) :
    flag (restoredFlags f n old) i =
      if i ∈ [0, 2, 4, 6, 7, 8, 10, 11, 14, 16] ∨ i = 9 ∧ old ≤ iopl f ∨ (i = 12 ∨ i = 13) ∧ old = 0 then flag n i
      else flag f i := by
  simp only [flag, restoredFlags_getLsbD hi, restoreMask_getLsbD f old hi]

/-- Settles O48: the bits are those of the flag writes on entry, and those of the mask on return. -/
theorem flagsOfEntryAndReturn : Obligations.FlagsOfEntryAndReturn :=
  ⟨fun f interruptGate _ hi => flag_entryFlags f interruptGate hi, fun f n old _ hi => flag_restoredFlags f n old hi⟩

/-! ### Writes to EFLAGS that leave IOPL and IF guarded -/

/-- From EFLAGS `f` to `f'` at level `lvl`: IOPL is the same, and IF is not newly set where IOPL does not cover the level. -/
def FlagsGuarded (lvl : Level) (f f' : Word) : Prop :=
  iopl f' = iopl f ∧ (iopl f < lvl → flag f' bitIF = true → flag f bitIF = true)

/-- IOPL is bits 12 and 13 (rule R27). -/
theorem iopl_congr {f f' : Word} (h12 : flag f' 12 = flag f 12) (h13 : flag f' 13 = flag f 13) : iopl f' = iopl f := by
  apply BitVec.eq_of_getLsbD_eq
  intro j hj
  have hbits : j = 0 ∨ j = 1 := by omega
  simp only [iopl, BitVec.getLsbD_extractLsb', hj, decide_true, Bool.true_and]
  obtain rfl | rfl := hbits
  · exact h12
  · exact h13

theorem FlagsGuarded.refl (lvl : Level) (f : Word) : FlagsGuarded lvl f f := ⟨rfl, fun _ h => h⟩

/-- ADD writes none of the three bits (rule R322). -/
theorem FlagsGuarded.addFlags (lvl : Level) (f a b : Word) : FlagsGuarded lvl f (addFlags f a b) := by
  have kept {j : Nat} (hj : j ∈ [9, 12, 13]) : flag (Machine.addFlags f a b) j = flag f j := by
    fin_cases hj <;> exact flag_addFlags f a b (by decide)
  refine ⟨iopl_congr (kept (by decide)) (kept (by decide)), fun _ h => ?_⟩
  rwa [bitIF, kept (by decide)] at h

/-- CLI and STI write IF where IOPL covers the level (rules R280, R281). -/
theorem FlagsGuarded.setIF {lvl : Level} {f : Word} (hpriv : lvl ≤ iopl f) (b : Bool) :
    FlagsGuarded lvl f (setFlag f bitIF b) :=
  ⟨iopl_congr (flag_setFlag_if f b 12 (by decide)) (flag_setFlag_if f b 13 (by decide)),
    fun hlt => absurd hlt (BitVec.not_lt.2 hpriv)⟩

/-- Entry through a gate clears flags only (rule R376). -/
theorem FlagsGuarded.entryFlags (lvl : Level) (f : Word) (interruptGate : Bool) :
    FlagsGuarded lvl f (entryFlags f interruptGate) := by
  refine ⟨iopl_congr (flag_entryFlags f interruptGate (by decide)) (flag_entryFlags f interruptGate (by decide)),
    fun _ h => ?_⟩
  rw [flag_entryFlags f interruptGate (by decide)] at h
  split at h
  · cases h
  · exact h

/-- IRET restores IOPL at level 0 only, and IF only where IOPL covers the level (rule R301). -/
theorem FlagsGuarded.restoredFlags {lvl : Level} (hlvl : lvl ≠ 0) (f n : Word) :
    FlagsGuarded lvl f (restoredFlags f n lvl) := by
  have hiopl {j : Nat} (hj : j = 12 ∨ j = 13) : flag (Machine.restoredFlags f n lvl) j = flag f j := by
    rw [flag_restoredFlags f n lvl (by omega), if_neg]
    obtain rfl | rfl := hj <;> simpa using hlvl
  refine ⟨iopl_congr (hiopl (.inl rfl)) (hiopl (.inr rfl)), fun hlt h => ?_⟩
  rw [flag_restoredFlags f n lvl (by decide), if_neg (by simp [bitIF, BitVec.not_le.2 hlt])] at h
  exact h

/-! ### What each effect keeps at a level other than 0 (rule R387) -/

/-- GDTR, IDTR and TR are as before, and EFLAGS has been written as the level of `s` allows. -/
structure SystemGuarded (s t : State) : Prop where
  gdtr : t.gdtr = s.gdtr
  idtr : t.idtr = s.idtr
  tr : t.tr = s.tr
  eflags : FlagsGuarded s.cpl s.eflags t.eflags

/-- A state that differs from `s`, as far as the system part goes, in the segment registers and in guarded flags. -/
theorem SystemGuarded.ofSame {s t : State} {g : SegRegs} {f : Word} (h : SameSystem { s with segs := g, eflags := f } t)
    (hf : FlagsGuarded s.cpl s.eflags f) : SystemGuarded s t :=
  ⟨h.gdtr, h.idtr, h.tr, by rwa [h.eflags]⟩

/-- A load of a segment register writes the segment registers alone. -/
theorem loadSeg_guarded {s t u : State} {r : SReg} {sel : Half} (h : loadSeg s r sel = .ok u) (hu : SameSystem u t) :
    SystemGuarded s t := by
  by_cases hcs : r = .cs
  · subst hcs; cases h
  by_cases hss : r = .ss
  · subst hss
    obtain ⟨d, -, hsame⟩ := loadSeg_ss_same h
    exact .ofSame (hsame.trans hu) (.refl _ _)
  · obtain ⟨v, hsame, -⟩ := loadSeg_data_same hcs hss h
    exact .ofSame (hsame.trans hu) (.refl _ _)

/-- A delivery writes CS, SS and the entry flags. -/
theorem deliver_guarded {s t : State} {k : EventKind} {v : Byte} {e : Option Half} {p : Word}
    (h : deliver s k v e p = .ok t) : SystemGuarded s t := by
  obtain ⟨g, d, ss, -, -, hsame⟩ := deliver_system h
  exact ⟨hsame.gdtr, hsame.idtr, hsame.tr, by rw [hsame.eflags]; exact .entryFlags _ _ _⟩

/-- A far return from a level other than 0 writes the segment registers and, by IRET, guarded flags. -/
theorem farReturn_guarded {s t u : State} {isIret : Bool} {extra : Word} (hlvl : s.cpl ≠ 0)
    (h : farReturn s isIret extra = .ok u) (hu : SameSystem u t) : SystemGuarded s t := by
  obtain ⟨sel, off, d, lvl, g, f, -, -, hf, hsame⟩ := farReturn_system h
  refine .ofSame (hsame.trans hu) ?_
  cases isIret with
  | false => rw [show f = s.eflags from hf]; exact .refl _ _
  | true =>
    obtain ⟨n, rfl⟩ := hf
    exact .restoredFlags hlvl _ n

theorem Effect.systemGuarded {i : Instr} {s t : State} (h : Effect i s t) (hlvl : s.cpl ≠ 0) : SystemGuarded s t := by
  cases h with
  | same h => exact .ofSame h (.refl _ _)
  | add a b h => exact .ofSame h (.addFlags _ _ a b)
  | interruptFlag b priv h => exact .ofSame h (.setIF priv b)
  | segLoad r sel u load h => exact loadSeg_guarded load h
  | farTransfer sel off d u w target store load h =>
    obtain ⟨-, hload⟩ := loadCS_same load
    exact .ofSame (((store.setSeg .cs _).trans hload).trans h) (.refl _ _)
  | retFar extra hi h => exact farReturn_guarded hlvl h (.refl t)
  | iret u hi ret h => exact farReturn_guarded hlvl ret h
  | system priv segs eflags cfg => exact absurd priv hlvl
  | delivery k v e p h => exact deliver_guarded h

/-- Settles O59: LGDT, LIDT and LTR complete at level 0 only, and every other effect writes guarded flags. -/
theorem userLeavesSystemRegistersAlone : Obligations.UserLeavesSystemRegistersAlone := by
  intro i s t h hlvl
  obtain ⟨hgdtr, hidtr, htr, hiopl, hif⟩ := (exec_effect h).systemGuarded hlvl
  exact ⟨hgdtr, hidtr, htr, hiopl, hif⟩

end Sys2Proof.Machine
end

section
/-! SUPPORT. Deliveries that end in an exception or a stop, the entry of an exception or a hardware interrupt into its handler,
and what a boundary accepts (rules R350 to R353, R360 to R379). -/

namespace Sys2Proof.Machine

open Sys2Proof

/-! ### The checks on the gate (rule R370, step 1) -/

section Gate

variable {s : State} {k : EventKind} {v : Byte} {e : Option Half} {p : Word}

/-- The error code of a gate, counted as the rule counts it (rule R361). -/
theorem gateCode_eq (v : Byte) : gateCode v = BitVec.ofNat 16 (8 * v.toNat + 2) := by
  apply BitVec.eq_of_toNat_eq
  have := v.isLt
  simp [gateCode, BitVec.toNat_shiftLeft, Nat.shiftLeft_eq]
  omega

/-- A gate beyond the IDT limit raises. -/
theorem deliver_beyondIdt (h : s.idtr.limit.toNat < 8 * v.toNat + 7) :
    deliver s k v e p = .error (.raise (.gp (gateCode v + extOf k))) := by
  rw [← gateOffset_toNat] at h
  exact bind_first_error (bind_first_error (raiseIf_of (decide_eq_true h)))

/-- A gate whose DPL is checked and more privileged than CPL raises its error code, with EXT clear (rules R368, R371). -/
theorem deliver_gatePrivilege {g : BitVec 64} (hlimit : 8 * v.toNat + 7 ≤ s.idtr.limit.toNat)
    (hread : linRead s (s.idtr.base + BitVec.ofNat 32 (8 * v.toNat)) 8 = .ok g)
    (hkind : gateKind s.cfg g = .interrupt ∨ gateKind s.cfg g = .trap) (hchecked : DplChecked s.cfg k)
    (hdpl : descDpl g < s.cpl) : deliver s k v e p = .error (.raise (.gp (gateCode v))) := by
  rw [← gateOffset_eq] at hread
  have hinside : decide (s.idtr.limit.toNat < (gateOffset v).toNat + 7) = false :=
    decide_eq_false (by rw [gateOffset_toNat]; omega)
  have htask : decide (gateKind s.cfg g = .task) = false := by obtain h | h := hkind <;> simp [h]
  have hnone : decide (gateKind s.cfg g = .none) = false := by obtain h | h := hkind <;> simp [h]
  have hraise : (checksGateDpl s.cfg k && decide (descDpl g < s.cpl)) = true :=
    Bool.and_eq_true_iff.2 ⟨checksGateDpl_iff.2 hchecked, decide_eq_true hdpl⟩
  exact bind_first_error (bind_next_error (raiseIf_not hinside) (bind_next_error hread
    (bind_next_error (refuseIf_ok (u := ()).2 htask) (bind_next_error (raiseIf_not hnone)
      (bind_first_error (raiseIf_of hraise))))))

end Gate

/-- Settles O42: the instruction names its kind, vector and parameter, and its delivery raises at the gate. -/
theorem gatePrivilegeFault : Obligations.GatePrivilegeFault := by
  intro s ov i n g hlimit hread hkind hdpl hi
  obtain ⟨k, hsoft, hchecked⟩ : ∃ k, SoftwareInterrupt s i k n ∧ DplChecked s.cfg k := by
    obtain ⟨rfl, hc⟩ | ⟨rfl, rfl, hc⟩ | ⟨rfl, rfl, hof, hc⟩ := hi
    · exact ⟨.intN, ⟨ov, .inl ⟨n, rfl, rfl, rfl⟩⟩, by decide, .inl hc⟩
    · exact ⟨.int3, ⟨ov, .inr (.inl ⟨rfl, rfl, rfl⟩)⟩, by decide, hc.imp_right fun hn => ⟨rfl, hn⟩⟩
    · exact ⟨.into, ⟨ov, .inr (.inr ⟨rfl, hof, rfl, rfl⟩)⟩, by decide, .inl hc⟩
  rw [exec_softwareInterrupt hsoft, ← gateCode_eq]
  exact settle_raises (deliver_gatePrivilege hlimit hread hkind hchecked hdpl)

/-! ### Exceptions and hardware interrupts (rules R360, R372, R379) -/

section Events

variable {s t : State} {k : EventKind} {v : Byte} {e : Option Half} {p : Word}

theorem deliverOrStop_completes (h : deliver s k v e p = .ok t) : deliverOrStop s k v e p = .next t := by
  rw [deliverOrStop, h]

/-- What a delivery that is no software interrupt raises stops the run (rule R379). -/
theorem deliverOrStop_raises {x : Exc} (h : deliver s k v e p = .error (.raise x)) :
    deliverOrStop s k v e p = .fault (.duringDelivery v) := by
  rw [deliverOrStop, h]

theorem deliverOrStop_stops {f : Fault} (h : deliver s k v e p = .error (.stop f)) :
    deliverOrStop s k v e p = .fault f := by
  rw [deliverOrStop, h]

/-- Each event is the delivery of its vector and code, with the EIP of the instruction saved (rules R360, R372). -/
theorem EventDelivered.eq_deliverOrStop {out : Out} (h : EventDelivered s out k v e) :
    out = deliverOrStop s k v e s.eip := by
  obtain ⟨c, rfl, rfl, rfl, rfl⟩ | ⟨c, rfl, rfl, rfl, rfl⟩ | ⟨c, rfl, rfl, rfl, rfl⟩ | ⟨rfl, rfl, rfl, rfl⟩
    | ⟨rfl, rfl, rfl⟩ := h
  · rfl
  · rfl
  · have hvector : excVector s.cfg (.np c) = if s.cfg.npVector = .v11 then 11 else 13 := by
      unfold excVector
      cases s.cfg.npVector <;> rfl
    rw [← hvector]
    rfl
  · rfl
  · rfl

end Events

/-- Settles O44: the delivery enters where its frame comes about, and stops the run where a check of it raises. -/
theorem exceptionEntersHandler : Obligations.ExceptionEntersHandler := by
  intro s out k v e hs hout
  rw [hout.eq_deliverOrStop]
  refine ⟨fun hlimit => deliverOrStop_raises (deliver_beyondIdt hlimit), fun g d hg hd => ?_⟩
  have ends {a : Abort} (h : entryFrame s (descDpl d) v s.eip (pushedCode s.cfg v e) = .error a) :
      deliver s k v e s.eip = .error a := deliver_frame_error hg hd h
  refine ⟨fun hl => ⟨fun hw => ?_, fun x hx => ?_⟩, fun hlt => ?_⟩
  · obtain ⟨t, ht, hentered⟩ := deliver_enters_same hs hg hd hl rfl hw
    exact ⟨t, deliverOrStop_completes ht, hentered⟩
  · exact deliverOrStop_raises (ends ((if_pos hl).trans (sameLevelFrame_raises hx)))
  have hl : descDpl d ≠ s.cpl := BitVec.ne_of_lt hlt
  refine ⟨fun nSS nEsp ds hstack => ?_, fun f hf => ?_, fun houtside => ?_⟩
  · obtain ⟨t, ht, hentered⟩ := deliver_enters_inner hs hg hd hl rfl hstack
    exact ⟨t, deliverOrStop_completes ht, hentered⟩
  · exact deliverOrStop_stops (ends ((if_neg hl).trans (bind_first_error (newStack_stops hf))))
  · exact deliverOrStop_stops (ends ((if_neg hl).trans (innerFrame_outside houtside)))

/-! ### Requests at a boundary (rules R350 to R353) -/

/-- A lone INTR is selected where IF is set. -/
theorem selectRequest_intr (nmiOk : Bool) (v : Byte) : selectRequest nmiOk true [.intr v] = some (.intr v, []) := by
  simp [selectRequest, isIntr]

/-- A lone NMI is selected whatever IF is. -/
theorem selectRequest_nmi (ifOn : Bool) : selectRequest true ifOn [.nmi] = some (.nmi, []) := rfl

/-- With IF clear, INTR requests are not selected. -/
theorem selectRequest_waits (nmiOk : Bool) {waiting : List Request} (h : ∀ r ∈ waiting, r ≠ .nmi) :
    selectRequest nmiOk false waiting = none := by
  have hnmi : Request.nmi ∉ waiting := fun hmem => h _ hmem rfl
  simp [selectRequest, hnmi]

section Boundary

variable {s : State} {waiting : List Request} {coming : List (List Request)}

/-- Outside a shadow, a boundary accepts what is selected of the requests that wait there. -/
theorem boundary_accepts {r : Request} {rest : List Request} (hshadow : s.shadow = false)
    (horacle : s.oracle = waiting :: coming)
    (h : selectRequest (!s.nmiBlocked) (flag s.eflags bitIF) waiting = some (r, rest)) :
    boundary s = (some r, { s with oracle := carryOver rest coming }) := by
  simp only [boundary, horacle, hshadow, Bool.false_eq_true, if_false, h]

/-- In a shadow, or where nothing is selected, every request waits. -/
theorem boundary_waits (horacle : s.oracle = waiting :: coming)
    (h : s.shadow = true ∨ selectRequest (!s.nmiBlocked) (flag s.eflags bitIF) waiting = none) :
    boundary s = (none, { s with shadow := false, oracle := carryOver waiting coming }) := by
  have hnone : (if s.shadow then none else selectRequest (!s.nmiBlocked) (flag s.eflags bitIF) waiting) = none := by
    obtain h | h := h
    · exact if_pos h
    · rw [h, ite_self]
  simp only [boundary, horacle, hnone]

/-- A step at a boundary that accepts a request is its acceptance (rules R352, R353). -/
theorem step_eq_acceptRequest {s' : State} {r : Request} (hstop : s.cfg.stopEip ≠ some s.eip)
    (htf : flag s.eflags bitTF = false) (hvm : flag s.eflags bitVM = false) (h : boundary s = (some r, s')) :
    step s = acceptRequest s' r := by
  simp only [step, htf, hvm, hstop, h, Bool.false_eq_true, if_false]

end Boundary

/-- Settles O45: a lone request that is selected is accepted with nothing left to carry over, and what is not selected is
carried over whole. -/
theorem hardwareInterrupts : Obligations.HardwareInterrupts := by
  intro s coming hstop htf hvm
  refine ⟨fun v hshadow horacle hif => ?_, fun hshadow horacle hnmi => ?_, fun waiting next hne horacle hwait => ?_⟩
  · have hselect : selectRequest (!s.nmiBlocked) (flag s.eflags bitIF) [.intr v] = some (.intr v, []) := by
      rw [hif]
      exact selectRequest_intr _ v
    exact step_eq_acceptRequest hstop htf hvm (boundary_accepts hshadow horacle hselect)
  · have hselect : selectRequest (!s.nmiBlocked) (flag s.eflags bitIF) [.nmi] = some (.nmi, []) := by
      rw [hnmi]
      exact selectRequest_nmi _
    exact step_eq_acceptRequest hstop htf hvm (boundary_accepts hshadow horacle hselect)
  · rw [boundary_waits horacle (hwait.imp_right fun ⟨hif, hintr⟩ => by rw [hif]; exact selectRequest_waits _ hintr),
      carryOver, if_neg hne]

end Sys2Proof.Machine
end

section
/-! SUPPORT. Where a run begins and ends: what the launch premises establish (rule R421), the reset state as a launch state,
and the steps that TF, VM and `stop_eip` decide before anything is fetched (rules R27, R403, R425). -/

namespace Sys2Proof.Machine

open Sys2Proof

/-! ### The end of a run (rules R403, R425) -/

section RunEnd

variable {s : State}

/-- A run that has set TF is refused (rule R403). -/
theorem step_eq_refused_singleStep (htf : flag s.eflags bitTF = true) : step s = .refused .singleStep := if_pos htf

/-- A run that has set VM is refused (rule R27). -/
theorem step_eq_refused_virtual8086 (htf : flag s.eflags bitTF = false) (hvm : flag s.eflags bitVM = true) :
    step s = .refused .virtual8086 := by
  simp only [step, htf, hvm, Bool.false_eq_true, if_false, if_true]

/-- At `stop_eip` the state stays as it is (rule R425). -/
theorem step_eq_self_of_stopEip (htf : flag s.eflags bitTF = false) (hvm : flag s.eflags bitVM = false)
    (hstop : s.cfg.stopEip = some s.eip) : step s = .next s := by
  simp only [step, htf, hvm, Bool.false_eq_true, if_false, if_pos hstop]

end RunEnd

/-- Settles O6, by the order in which a step tests TF, VM and `stop_eip`. -/
theorem runEndsAtStopEip : Obligations.RunEndsAtStopEip := fun _ =>
  ⟨step_eq_self_of_stopEip, step_eq_refused_singleStep, step_eq_refused_virtual8086⟩

/-! ### What a launch establishes (rule R421) -/

theorem launch_eq_next {s : State} (h : launchOk s = true) : launch s = .next s := if_pos h

/-- The launch premises, one by one (L1 to L6 and L8). -/
theorem launchOk_iff {s : State} :
    launchOk s = true ↔ launchCS s = true ∧ launchSS s = true
      ∧ (launchData s.cpl s.segs.es = true ∧ launchData s.cpl s.segs.ds = true
        ∧ launchData s.cpl s.segs.fs = true ∧ launchData s.cpl s.segs.gs = true)
      ∧ launchFlags s.eflags = true ∧ launchTask s.tr = true := by
  simp only [launchOk, Bool.and_eq_true, and_assoc]

/-- Premise L4 is the invariant of a data segment register without its allowance for conforming code (log entry 24). -/
theorem dataSegOk_of_launchData {lvl : Level} {r : SegReg} (h : launchData lvl r = true) : dataSegOk lvl r = true := by
  simp only [launchData, dataSegOk, Bool.and_eq_true, Bool.or_eq_true] at h ⊢
  obtain ⟨hnull | ⟨husable, hpriv⟩, hti⟩ := h
  · exact ⟨.inl hnull, hti⟩
  · exact ⟨.inr ⟨husable, .inr hpriv⟩, hti⟩

/-- Premise L6 fixes every bit that the invariant of EFLAGS fixes, and NT, TF and RF besides. -/
theorem flagsInv_of_launchFlags {f : Word} (h : launchFlags f = true) : FlagsInv f := by
  have hfixed : f &&& 0xFFFFC12A#32 = 0x00000002#32 := of_decide_eq_true h
  calc f &&& 0xFFFE802A#32
      = f &&& 0xFFFFC12A#32 &&& 0xFFFE802A#32 := by rw [BitVec.and_assoc]; rfl
    _ = 0x00000002#32 := by rw [hfixed]; rfl

/-- A launch from canonical memory starts with every invariant. -/
theorem inv_of_launchOk {s : State} (h : launchOk s = true) (hmem : MemInv s) : Inv s := by
  obtain ⟨hcs, hss, ⟨hes, hds, hfs, hgs⟩, hflags, htask⟩ := launchOk_iff.1 h
  exact ⟨⟨hcs, hss, dataSegOk_of_launchData hes, dataSegOk_of_launchData hds, dataSegOk_of_launchData hfs,
    dataSegOk_of_launchData hgs⟩, flagsInv_of_launchFlags hflags, hmem, htask⟩

/-- The reset state meets the launch premises: flat CS and SS at level 0, flat ES and DS, null FS and GS, no flag set and no
TSS. -/
theorem launchOk_reset : launchOk State.reset = true := by
  have hflat : launchData 0 { sel := 0x0010, cache := flatData } = true := by decide
  have hnull : launchData 0 nullSeg = true := by decide
  exact launchOk_iff.2 ⟨by decide, by decide, ⟨hflat, hflat, hnull, hnull⟩, by decide, by decide⟩

/-- Settles O54: what a launch establishes, at the reset state. -/
theorem resetIsALaunchState : Obligations.ResetIsALaunchState :=
  ⟨launch_eq_next launchOk_reset, inv_of_launchOk launchOk_reset MemInv.reset⟩

end Sys2Proof.Machine
end
